-- ==== Sys2Proof/Word.lean ====
section
/-! DEFINITION. The values CORE works on: bytes, 16-bit words and 32-bit float patterns (00_scope.md R7, R9), and the
six-byte instruction record (30_encoding.md R80). -/

namespace Sys2Proof

/-- `u8` of 00_scope.md R9. -/
abbrev Byte := BitVec 8

/-- `u16` of 00_scope.md R9: integer registers, addresses, 2-byte immediates. -/
abbrev Word := BitVec 16

/-- `b32` of 00_scope.md R9: the exact bits of a float register (10_state.md R29). -/
abbrev Pattern := BitVec 32

/-- `ib[0..5]` of 00_scope.md R10: one fixed 6-byte instruction record, byte 0 at the lowest address (30_encoding.md R80). -/
structure Record where
  b0 : Byte
  b1 : Byte
  b2 : Byte
  b3 : Byte
  b4 : Byte
  b5 : Byte
  deriving DecidableEq, Repr

/-- The record's bytes, lowest address first. -/
def Record.bytes (r : Record) : List Byte := [r.b0, r.b1, r.b2, r.b3, r.b4, r.b5]

end Sys2Proof
end

