-- ==== Sys2Proof/Config.lean ====
section
/-! DEFINITION. The names the configuration speaks of (registers, mnemonics, byte order, multiplier mode) and the
configuration itself: the named parameters of 00_scope.md R7 that 10_state.md R39 calls a parameter of the step.
Their default values, and the check of 00_scope.md R8, are in Machine/Parameters.lean. -/

namespace Sys2Proof

/-- The eight integer registers, in the order of 10_state.md R20. -/
inductive IntReg where
  | pc | sp | bp | ir0 | ir1 | ir2 | ir3 | irv
  deriving DecidableEq, Repr

/-- The five float registers, in the order of 10_state.md R21. -/
inductive FltReg where
  | fr0 | fr1 | fr2 | fr3 | frv
  deriving DecidableEq, Repr

/-- The 25 mnemonics, in the order of 30_encoding.md R86. -/
inductive Opcode where
  | halt | seti | setf | addi | subi | inci | deci | cmpi
  | meqi | mnei | mgti | mgei | mlti | mlei | leai
  | pushi | popi | pushf | popf | lodi | stoi | lodf | stof | call | retn
  deriving DecidableEq, Repr

/-- The parameter `ENDIAN` (20_memory.md R52). -/
inductive Endian where
  | little | big
  deriving DecidableEq, Repr

/-- The parameter `LEA_MULT_MODE` (43_address.md R171). -/
inductive LeaMultMode where
  | literal | register
  deriving DecidableEq, Repr

/-- The configuration (00_scope.md R7; the list in 10_state.md R39). Plain data: which configurations the model admits
is `Config.Valid`. `LOAD_BASE` is no field: it is an argument of the load (20_memory.md R70). -/
structure Config where
  rwMin : Word
  rwMax : Word
  maxAddr : Word
  endian : Endian
  /-- `OPCODE_MAP` (30_encoding.md R86): opcode byte and mnemonic, one row each. -/
  opcodeMap : List (Byte × Opcode)
  /-- `REG_IDS`, the integer id space (10_state.md R22). -/
  intIds : List (Byte × IntReg)
  /-- `REG_IDS`, the float id space (10_state.md R22). -/
  fltIds : List (Byte × FltReg)
  leaMultMode : LeaMultMode
  deriving DecidableEq, Repr

end Sys2Proof
end

