-- ==== Sys2Proof/Machine/Bytes.lean ====
section
/-! DEFINITION. The byte order of multi-byte values (20_memory.md R52, parameter `ENDIAN`), written once for data, the
stack, instruction immediates and the load header. Bytes are listed lowest address first. -/

namespace Sys2Proof

/-- The 2-byte value whose bytes, lowest address first, are `b0 b1` (20_memory.md R52). -/
def assembleWord : Endian → Byte → Byte → Word
  | .little, b0, b1 => b1 ++ b0
  | .big, b0, b1 => b0 ++ b1

/-- The 4-byte pattern whose bytes, lowest address first, are `b0 b1 b2 b3` (20_memory.md R52). -/
def assemblePattern : Endian → Byte → Byte → Byte → Byte → Pattern
  | .little, b0, b1, b2, b3 => b3 ++ b2 ++ b1 ++ b0
  | .big, b0, b1, b2, b3 => b0 ++ b1 ++ b2 ++ b3

/-- Byte `k` of a 2-byte value, `k` counted from the lowest address: `v[7:0]` then `v[15:8]` when little-endian (20_memory.md R52). -/
def wordByte (e : Endian) (v : Word) (k : Nat) : Byte :=
  match e with
  | .little => v.extractLsb' (8 * k) 8
  | .big => v.extractLsb' (8 * (1 - k)) 8

/-- Byte `k` of a 4-byte pattern, `k` counted from the lowest address: `w[8k+7:8k]` when little-endian (20_memory.md R52). -/
def patternByte (e : Endian) (w : Pattern) (k : Nat) : Byte :=
  match e with
  | .little => w.extractLsb' (8 * k) 8
  | .big => w.extractLsb' (8 * (3 - k)) 8

/-- The two bytes of a word, lowest address first. -/
def wordBytes (e : Endian) (v : Word) : List Byte := [wordByte e v 0, wordByte e v 1]

/-- The four bytes of a pattern, lowest address first. -/
def patternBytes (e : Endian) (w : Pattern) : List Byte :=
  [patternByte e w 0, patternByte e w 1, patternByte e w 2, patternByte e w 3]

end Sys2Proof
end

