-- ==== Sys2Proof/Machine/Memory.lean ====
section
/-! DEFINITION. The one memory `M` (20_memory.md R50) as plain data: a list of (address, byte) pairs in one canonical form,
and its read and write of one byte. An unlisted address reads 0x00, the reset contents of 10_state.md R40 (log 10). -/

namespace Sys2Proof.Machine

/-- `M`: the bytes that are not 0x00, by address, addresses strictly rising. -/
abbrev Memory := List Host.Cell

/-- The canonical form: addresses strictly rising and inside 0x0000..0xFFFF (20_memory.md R50), no entry equal to the
0x00 an unlisted address reads as. -/
abbrev Memory.wf (m : Memory) : Prop :=
  m.Pairwise (fun x y => x.1 < y.1) ∧ ∀ c ∈ m, c.1 < 65536 ∧ c.2 ≠ 0#8

/-- `M[a]`. A read has no side effect (20_memory.md R58). -/
def Memory.read : Memory → Nat → Byte
  | [], _ => 0#8
  | (k, b) :: m, a => if k = a then b else Memory.read m a

/-- `M[a] <- b`, keeping the canonical form. It changes only the byte named (20_memory.md R58). -/
def Memory.write : Memory → Nat → Byte → Memory
  | [], a, b => if b = 0#8 then [] else [(a, b)]
  | (k, c) :: m, a, b =>
    if a < k then (if b = 0#8 then (k, c) :: m else (a, b) :: (k, c) :: m)
    else if a = k then (if b = 0#8 then m else (a, b) :: m)
    else (k, c) :: Memory.write m a b

/-- The bytes of `bs` stored from address `a` upward, byte `i` at `a + i mod 2^16` (00_scope.md R12; 20_memory.md R70; log 5). -/
def Memory.writeBytes : Memory → Word → List Byte → Memory
  | m, _, [] => m
  | m, a, b :: bs => Memory.writeBytes (m.write a.toNat b) (a + 1) bs

/-- The byte at `a + k mod 2^16` (00_scope.md R12; log 5). -/
def Memory.readAt (m : Memory) (a : Word) (k : Nat) : Byte := m.read (a + BitVec.ofNat 16 k).toNat

/-- `MemRead(a, 2)` (00_scope.md R12), in the byte order of 20_memory.md R52. -/
def Memory.readWord (m : Memory) (e : Endian) (a : Word) : Word := assembleWord e (m.readAt a 0) (m.readAt a 1)

/-- `MemRead(a, 4)` (00_scope.md R12), in the byte order of 20_memory.md R52. -/
def Memory.readPattern (m : Memory) (e : Endian) (a : Word) : Pattern :=
  assemblePattern e (m.readAt a 0) (m.readAt a 1) (m.readAt a 2) (m.readAt a 3)

/-- `MemRead(a, 6)` (00_scope.md R12): the six bytes as a sequence, which is how a fetch reads them (20_memory.md R54). -/
def Memory.readRecord (m : Memory) (a : Word) : Record :=
  ⟨m.readAt a 0, m.readAt a 1, m.readAt a 2, m.readAt a 3, m.readAt a 4, m.readAt a 5⟩

/-- `MemWrite(a, 2, v)` (00_scope.md R12). -/
def Memory.writeWord (m : Memory) (e : Endian) (a : Word) (v : Word) : Memory := m.writeBytes a (wordBytes e v)

/-- `MemWrite(a, 4, w)` (00_scope.md R12). -/
def Memory.writePattern (m : Memory) (e : Endian) (a : Word) (w : Pattern) : Memory := m.writeBytes a (patternBytes e w)

end Sys2Proof.Machine
end

