-- ==== Sys2Proof/Syntax.lean ====
section
/-! DEFINITION. The instructions: one constructor per row of spec/opcode_table.json, operands in the order of the
assembler text of 30_encoding.md R91. Register operands are the raw id bytes of the record: an id that names no register
is no decode error and is found only when the instruction accesses it (30_encoding.md R88). -/

namespace Sys2Proof

/-- An integer register id byte, kind `IR` of 30_encoding.md R84. -/
abbrev IntId := Byte

/-- A float register id byte, kind `FR` of 30_encoding.md R84. -/
abbrev FltId := Byte

/-- The 25 instructions of 30_encoding.md R86. -/
inductive Instr where
  | halt
  | seti (r : IntId) (v : Word)
  | setf (f : FltId) (w : Pattern)
  | addi (a b : IntId)
  | subi (a b : IntId)
  | inci (r : IntId)
  | deci (r : IntId)
  | cmpi (a b : IntId)
  | meqi (src dst : IntId)
  | mnei (src dst : IntId)
  | mgti (src dst : IntId)
  | mgei (src dst : IntId)
  | mlti (src dst : IntId)
  | mlei (src dst : IntId)
  | leai (base off : IntId) (mult : Byte) (dest : IntId)
  | pushi (r : IntId)
  | popi (r : IntId)
  | pushf (f : FltId)
  | popf (f : FltId)
  | lodi (addr : Word) (r : IntId)
  | stoi (addr : Word) (r : IntId)
  | lodf (addr : Word) (f : FltId)
  | stof (addr : Word) (f : FltId)
  | call (addr : Word)
  | retn
  deriving DecidableEq, Repr

/-- The mnemonic of an instruction (30_encoding.md R86). -/
def Instr.opcode : Instr → Opcode
  | .halt => .halt
  | .seti _ _ => .seti
  | .setf _ _ => .setf
  | .addi _ _ => .addi
  | .subi _ _ => .subi
  | .inci _ => .inci
  | .deci _ => .deci
  | .cmpi _ _ => .cmpi
  | .meqi _ _ => .meqi
  | .mnei _ _ => .mnei
  | .mgti _ _ => .mgti
  | .mgei _ _ => .mgei
  | .mlti _ _ => .mlti
  | .mlei _ _ => .mlei
  | .leai _ _ _ _ => .leai
  | .pushi _ => .pushi
  | .popi _ => .popi
  | .pushf _ => .pushf
  | .popf _ => .popf
  | .lodi _ _ => .lodi
  | .stoi _ _ => .stoi
  | .lodf _ _ => .lodf
  | .stof _ _ => .stof
  | .call _ => .call
  | .retn => .retn

end Sys2Proof
end

