-- ==== Sys2Proof/Machine/Parameters.lean ====
section
/-! DEFINITION. The configuration's tables and checks: looking an id or opcode byte up, the default tables of the spec, the
test configuration `EX`, and which configurations the model admits (00_scope.md R8). -/

namespace Sys2Proof

/-- The name a byte stands for in a table of (byte, name) rows. -/
def nameOf? {α : Type} : List (Byte × α) → Byte → Option α
  | [], _ => none
  | (k, x) :: rows, b => if k = b then some x else nameOf? rows b

/-- The byte that stands for a name in a table of (byte, name) rows. -/
def byteOf? {α : Type} [DecidableEq α] : List (Byte × α) → α → Option Byte
  | [], _ => none
  | (k, y) :: rows, x => if y = x then some k else byteOf? rows x

/-- A table with no two rows for one byte or for one name: the byte alone selects (30_encoding.md R82), and every name is
selected by one byte. -/
abbrev tableInjective {α : Type} [DecidableEq α] (rows : List (Byte × α)) : Prop :=
  (rows.map Prod.fst).Nodup ∧ (rows.map Prod.snd).Nodup

/-- All mnemonics (30_encoding.md R86). -/
def allOpcodes : List Opcode :=
  [.halt, .seti, .setf, .addi, .subi, .inci, .deci, .cmpi, .meqi, .mnei, .mgti, .mgei, .mlti, .mlei, .leai,
   .pushi, .popi, .pushf, .popf, .lodi, .stoi, .lodf, .stof, .call, .retn]

/-- All integer registers (10_state.md R20). -/
def allIntRegs : List IntReg := [.pc, .sp, .bp, .ir0, .ir1, .ir2, .ir3, .irv]

/-- All float registers (10_state.md R21). -/
def allFltRegs : List FltReg := [.fr0, .fr1, .fr2, .fr3, .frv]

/-- The default `OPCODE_MAP`: the table of 30_encoding.md R86. -/
def defaultOpcodeMap : List (Byte × Opcode) :=
  [(0x01#8, .halt), (0x02#8, .seti), (0x03#8, .setf), (0x04#8, .addi), (0x05#8, .subi), (0x06#8, .inci),
   (0x07#8, .deci), (0x08#8, .cmpi), (0x09#8, .meqi), (0x0A#8, .mnei), (0x0B#8, .mgti), (0x0C#8, .mgei),
   (0x0D#8, .mlti), (0x0E#8, .mlei), (0x0F#8, .leai), (0x10#8, .pushi), (0x11#8, .popi), (0x12#8, .pushf),
   (0x13#8, .popf), (0x14#8, .lodi), (0x15#8, .stoi), (0x16#8, .lodf), (0x17#8, .stof), (0x18#8, .call),
   (0x19#8, .retn)]

/-- The default integer ids of `REG_IDS`: 10_state.md R22. -/
def defaultIntIds : List (Byte × IntReg) :=
  [(0x00#8, .pc), (0x01#8, .sp), (0x02#8, .bp), (0x03#8, .ir0), (0x04#8, .ir1), (0x05#8, .ir2), (0x06#8, .ir3),
   (0x07#8, .irv)]

/-- The default float ids of `REG_IDS`: 10_state.md R22. -/
def defaultFltIds : List (Byte × FltReg) :=
  [(0x00#8, .fr0), (0x01#8, .fr1), (0x02#8, .fr2), (0x03#8, .fr3), (0x04#8, .frv)]

/-- The example configuration `EX` of 00_scope.md R8, with the spec's decision for every other parameter
(00_scope.md R7). `RW_MIN` and `RW_MAX` are OPEN in the spec: these two values are a test configuration only (log 2). -/
def Config.ex : Config where
  rwMin := 0x4000#16
  rwMax := 0xBFFF#16
  maxAddr := 0xFFFF#16
  endian := .little
  opcodeMap := defaultOpcodeMap
  intIds := defaultIntIds
  fltIds := defaultFltIds
  leaMultMode := .literal

/-- The bounds of 00_scope.md R8: `0x0006 <= RW_MIN`, `RW_MIN + 4 <= RW_MAX`, `RW_MAX <= MAX_ADDR - 28`, over the integers. -/
abbrev Config.boundsOk (c : Config) : Prop :=
  6 ≤ c.rwMin.toNat ∧ c.rwMin.toNat + 4 ≤ c.rwMax.toNat ∧ c.rwMax.toNat + 28 ≤ c.maxAddr.toNat

/-- The tables name every instruction and register by exactly one byte (30_encoding.md R82, R86; 10_state.md R22; log 3). -/
abbrev Config.tablesOk (c : Config) : Prop :=
  (tableInjective c.opcodeMap ∧ ∀ x ∈ allOpcodes, (byteOf? c.opcodeMap x).isSome) ∧
  (tableInjective c.intIds ∧ ∀ x ∈ allIntRegs, (byteOf? c.intIds x).isSome) ∧
  (tableInjective c.fltIds ∧ ∀ x ∈ allFltRegs, (byteOf? c.fltIds x).isSome)

/-- The configurations the model admits; any other is refused (00_scope.md R8; 93_implementation_defined.md U3; log 13). -/
abbrev Config.Valid (c : Config) : Prop := c.boundsOk ∧ c.tablesOk

/-- The opcode lookup of 30_encoding.md R82. -/
def Config.opcodeAt? (c : Config) (b : Byte) : Option Opcode := nameOf? c.opcodeMap b

/-- The integer register an id byte names; `none` for an out-of-range id (10_state.md R22). -/
def Config.intReg? (c : Config) (id : IntId) : Option IntReg := nameOf? c.intIds id

/-- The float register an id byte names; `none` for an out-of-range id (10_state.md R22). -/
def Config.fltReg? (c : Config) (id : FltId) : Option FltReg := nameOf? c.fltIds id

/-- The opcode byte of a mnemonic (30_encoding.md R86). -/
def Config.opcodeByte (c : Config) (o : Opcode) : Byte := (byteOf? c.opcodeMap o).getD 0

/-- The id byte of an integer register (10_state.md R22). -/
def Config.intId (c : Config) (r : IntReg) : IntId := (byteOf? c.intIds r).getD 0

/-- The id byte of a float register (10_state.md R22). -/
def Config.fltId (c : Config) (r : FltReg) : FltId := (byteOf? c.fltIds r).getD 0

end Sys2Proof
end

