-- ==== Sys2Proof/Machine/State.lean ====
section
/-! DEFINITION. The state of CORE (10_state.md R39), its status values (R31), the reset state (R40) and the two ways a step
can stop without a next state. -/

namespace Sys2Proof.Machine

/-- The integer register file (10_state.md R20): eight separate 16-bit registers, none hard-wired, no aliases. -/
structure IntFile where
  pc : Word
  sp : Word
  bp : Word
  ir0 : Word
  ir1 : Word
  ir2 : Word
  ir3 : Word
  irv : Word
  deriving DecidableEq, Repr

/-- The float register file (10_state.md R21): five separate 32-bit patterns. -/
structure FltFile where
  fr0 : Pattern
  fr1 : Pattern
  fr2 : Pattern
  fr3 : Pattern
  frv : Pattern
  deriving DecidableEq, Repr

/-- The comparison flag `cmp` (10_state.md R30). -/
inductive CmpFlag where
  | uninitialized | equal | greater | less
  deriving DecidableEq, Repr

/-- The twelve error kinds of 10_state.md R31. -/
inductive ErrorKind where
  | registerUnrecognized | registerNotAllowed | unrecognizedOpcode | comparisonNotInitialized | stackOverflow
  | stackUnderflow | memoryAccessOutOfBounds | invalidAddressMultiplier | executeOutOfCodeBlock | decrementZero
  | arithmeticOverflow | arithmeticUnderflow
  deriving DecidableEq, Repr

/-- The status code: `NoError`, `Halt` or one error kind (10_state.md R31). -/
inductive Status where
  | noError | halt | error (k : ErrorKind)
  deriving DecidableEq, Repr

/-- The architectural state (10_state.md R39), with the configuration, which R39 calls a parameter of the step, carried as
a field that no step changes (log 1). -/
structure State where
  cfg : Config
  ints : IntFile
  flts : FltFile
  cmp : CmpFlag
  status : Status
  mem : Memory
  cycles : Nat
  lastInstr : Record
  deriving DecidableEq, Repr

/-- The reset state under a configuration (10_state.md R40; 70_reset_and_hazards.md R270). -/
def State.resetWith (c : Config) : State where
  cfg := c
  ints := { pc := 0, sp := c.rwMax, bp := c.rwMax, ir0 := 0, ir1 := 0, ir2 := 0, ir3 := 0, irv := 0 }
  flts := { fr0 := 0, fr1 := 0, fr2 := 0, fr3 := 0, frv := 0 }
  cmp := .uninitialized
  status := .noError
  mem := []
  cycles := 0
  lastInstr := ⟨0, 0, 0, 0, 0, 0⟩

/-- The reset state the host starts from: the example configuration `EX` of 00_scope.md R8 (log 2). -/
def State.reset : State := State.resetWith Config.ex

/-- Why the machine stops with no next state (log 4). -/
inductive Fault where
  /-- Raised by the fetch when `pc > 0xFFFA`: the model fault of 40_sequencer.md R111 and 60_exceptions.md R243.
  `left` is the state it leaves: the step is counted, nothing else changed (R110). Safe: the spec's own treatment. -/
  | fetchOutOfRange (left : State)
  /-- Raised by a step asked of a core that is Halted or Errored: 40_sequencer.md R115, `stuck` in
  93_implementation_defined.md U2. The state stays as it was. Safe: the spec gives no step there. -/
  | stopped (status : Status)
  deriving DecidableEq, Repr

/-- Why the model has no meaning for a step. -/
inductive Refusal where
  /-- Raised by an arm of `exec` whose instruction has no meaning yet; no arm uses it. Safe. -/
  | notModelled (mnemonic : String)
  /-- Raised by the step when the configuration is not one 00_scope.md R8 admits (93_implementation_defined.md U3). Safe. -/
  | invalidConfiguration
  deriving DecidableEq, Repr

/-- What a step, or one instruction, answers. -/
abbrev Answer := Host.Outcome State Fault Refusal

end Sys2Proof.Machine
end

