-- ==== Sys2Proof/Machine/Registers.lean ====
section
/-! DEFINITION. The register files' one home: reading and writing a register by name, and the named updates of the state.
No register is hard-wired (10_state.md R20), so a write is read back as written. -/

namespace Sys2Proof.Machine

/-- The value of an integer register. -/
def IntFile.get (f : IntFile) : IntReg → Word
  | .pc => f.pc
  | .sp => f.sp
  | .bp => f.bp
  | .ir0 => f.ir0
  | .ir1 => f.ir1
  | .ir2 => f.ir2
  | .ir3 => f.ir3
  | .irv => f.irv

/-- The file after a write of one integer register. -/
def IntFile.set (f : IntFile) (r : IntReg) (v : Word) : IntFile :=
  match r with
  | .pc => { f with pc := v }
  | .sp => { f with sp := v }
  | .bp => { f with bp := v }
  | .ir0 => { f with ir0 := v }
  | .ir1 => { f with ir1 := v }
  | .ir2 => { f with ir2 := v }
  | .ir3 => { f with ir3 := v }
  | .irv => { f with irv := v }

/-- The pattern in a float register. -/
def FltFile.get (f : FltFile) : FltReg → Pattern
  | .fr0 => f.fr0
  | .fr1 => f.fr1
  | .fr2 => f.fr2
  | .fr3 => f.fr3
  | .frv => f.frv

/-- The file after a write of one float register. -/
def FltFile.set (f : FltFile) (r : FltReg) (w : Pattern) : FltFile :=
  match r with
  | .fr0 => { f with fr0 := w }
  | .fr1 => { f with fr1 := w }
  | .fr2 => { f with fr2 := w }
  | .fr3 => { f with fr3 := w }
  | .frv => { f with frv := w }

/-- Write one integer register. -/
def State.putInt (s : State) (r : IntReg) (v : Word) : State := { s with ints := s.ints.set r v }

/-- Write one float register. -/
def State.putFlt (s : State) (r : FltReg) (w : Pattern) : State := { s with flts := s.flts.set r w }

/-- Write the comparison flag (10_state.md R30). -/
def State.putCmp (s : State) (c : CmpFlag) : State := { s with cmp := c }

/-- Write the status code (10_state.md R32: only `raise` and HALT do). -/
def State.putStatus (s : State) (k : Status) : State := { s with status := k }

/-- Replace the memory. -/
def State.putMem (s : State) (m : Memory) : State := { s with mem := m }

/-- `set_int_general` may write this register: all but pc, sp, bp and irv (00_scope.md R11; 10_state.md R24). -/
def generalAllowed : IntReg → Bool
  | .pc | .sp | .bp | .irv => false
  | .ir0 | .ir1 | .ir2 | .ir3 => true

/-- `set_int_any` may write this register: all but sp (00_scope.md R11; 10_state.md R24). -/
def anyAllowed : IntReg → Bool
  | .sp => false
  | .pc | .bp | .ir0 | .ir1 | .ir2 | .ir3 | .irv => true

end Sys2Proof.Machine
end

