-- ==== Sys2Proof/Machine/Ops.lean ====
section
/-! DEFINITION. The shared operations the instruction rules are written from: raising a status kind, which is the one thing
an exception of CORE does (00_scope.md R13; 60_exceptions.md R240, R244), the memory accesses of a step, and the stack's push and
pop (44_stack.md R180 to R185). There is no return from an exception (60_exceptions.md R245). -/

namespace Sys2Proof.Machine

/-- A part of an instruction: a result, or the state a `raise` left, which ends the instruction (00_scope.md R13). -/
abbrev Exec (α : Type) := Except State α

/-- `raise K`: the status becomes `K`, the instruction ends here, and the writes already made stand (00_scope.md R13;
60_exceptions.md R244). No register is saved and control goes nowhere (R240). -/
def raise {α : Type} (s : State) (k : ErrorKind) : Exec α := .error (s.putStatus (.error k))

/-- The step's next state: the instruction's result, or the state its `raise` left. Both are next states: an error is a
status of the machine, which stops it at its next step (40_sequencer.md R115; log 11). -/
def finish : Exec State → Answer
  | .ok s => .next s
  | .error s => .next s

/-- `MemRead(a, 2)` of the state's memory (00_scope.md R12). -/
def State.loadWord (s : State) (a : Word) : Word := s.mem.readWord s.cfg.endian a

/-- `MemRead(a, 4)` of the state's memory (00_scope.md R12). -/
def State.loadPattern (s : State) (a : Word) : Pattern := s.mem.readPattern s.cfg.endian a

/-- `MemWrite(a, 2, v)` to the state's memory (00_scope.md R12). -/
def State.storeWord (s : State) (a : Word) (v : Word) : State := s.putMem (s.mem.writeWord s.cfg.endian a v)

/-- `MemWrite(a, 4, w)` to the state's memory (00_scope.md R12). -/
def State.storePattern (s : State) (a : Word) (w : Pattern) : State := s.putMem (s.mem.writePattern s.cfg.endian a w)

/-- A push of `n` bytes fits: `sp <= MAX_ADDR - n`, over the integers (20_memory.md R55; 44_stack.md R184; log 6). -/
def State.pushFits (s : State) (n : Nat) : Bool := decide (s.ints.sp.toNat + n ≤ s.cfg.maxAddr.toNat)

/-- There is something to pop: `sp > RW_MAX`, whatever the size of the pop (20_memory.md R55; 44_stack.md R185). -/
def State.popReady (s : State) : Bool := decide (s.cfg.rwMax.toNat < s.ints.sp.toNat)

/-- The overflow test that opens every push (44_stack.md R180, R182, R184). -/
def checkPush (s : State) (n : Nat) : Exec Unit := if s.pushFits n then .ok () else raise s .stackOverflow

/-- The underflow test that opens every pop (44_stack.md R181, R183, R185). -/
def checkPop (s : State) : Exec Unit := if s.popReady then .ok () else raise s .stackUnderflow

/-- Store 2 bytes at sp and raise sp by 2 (44_stack.md R180, R184). -/
def State.stackWord (s : State) (v : Word) : State := (s.storeWord s.ints.sp v).putInt .sp (s.ints.sp + 2)

/-- Store 4 bytes at sp and raise sp by 4 (44_stack.md R182, R184). -/
def State.stackPattern (s : State) (w : Pattern) : State := (s.storePattern s.ints.sp w).putInt .sp (s.ints.sp + 4)

/-- Lower sp by `n` (44_stack.md R181, R183, R185); the popped bytes stay in memory. -/
def State.unstack (s : State) (n : Nat) : State := s.putInt .sp (s.ints.sp - BitVec.ofNat 16 n)

/-- `push(2, v)` (44_stack.md R184). -/
def pushWord (s : State) (v : Word) : Exec State := do
  checkPush s 2
  pure (s.stackWord v)

/-- `push(4, w)` (44_stack.md R184). -/
def pushPattern (s : State) (w : Pattern) : Exec State := do
  checkPush s 4
  pure (s.stackPattern w)

/-- One register of a call frame. -/
inductive FrameSlot where
  | int (r : IntReg)
  | flt (r : FltReg)
  deriving DecidableEq, Repr

/-- The registers CALL saves, in push order: pc, bp, ir0..ir3, fr0..fr3 (46_call_return.md R220). RETN pops them in reverse (R221). -/
def frameSlots : List FrameSlot :=
  [.int .pc, .int .bp, .int .ir0, .int .ir1, .int .ir2, .int .ir3, .flt .fr0, .flt .fr1, .flt .fr2, .flt .fr3]

/-- Push one register of the frame (46_call_return.md R220). -/
def pushSlot (s : State) : FrameSlot → Exec State
  | .int r => pushWord s (s.ints.get r)
  | .flt r => pushPattern s (s.flts.get r)

/-- `x <- pop(n)` for one register of the frame (46_call_return.md R221; 44_stack.md R185). -/
def popSlot (s : State) : FrameSlot → Exec State
  | .int r => do
    checkPop s
    let t := s.unstack 2
    pure (t.putInt r (t.loadWord t.ints.sp))
  | .flt r => do
    checkPop s
    let t := s.unstack 4
    pure (t.putFlt r (t.loadPattern t.ints.sp))

/-- Push the slots in order, each with its own check; those before a failing one stay done (46_call_return.md R220). -/
def pushSlots : List FrameSlot → State → Exec State
  | [], s => pure s
  | x :: xs, s => do
    let t ← pushSlot s x
    pushSlots xs t

/-- Pop the slots in order, each with its own check; those before a failing one stay done (46_call_return.md R221). -/
def popSlots : List FrameSlot → State → Exec State
  | [], s => pure s
  | x :: xs, s => do
    let t ← popSlot s x
    popSlots xs t

end Sys2Proof.Machine
end

