-- ==== Sys2Proof/Machine/Operands.lean ====
section
/-! DEFINITION. Every operand form: the register-file primitives of 00_scope.md R11 (reads, the two integer setters, the float
setter and the tests without a write), LEAI's multiplier (43_address.md R171) and the load/store window (45_load_store.md R200). -/

namespace Sys2Proof.Machine

/-- The register an integer id names, or RegisterUnrecognized (00_scope.md R11; 10_state.md R22). -/
def intOperand (s : State) (id : IntId) : Exec IntReg :=
  match s.cfg.intReg? id with
  | some r => .ok r
  | none => raise s .registerUnrecognized

/-- The register a float id names, or RegisterUnrecognized (00_scope.md R11; 10_state.md R22). -/
def fltOperand (s : State) (id : FltId) : Exec FltReg :=
  match s.cfg.fltReg? id with
  | some r => .ok r
  | none => raise s .registerUnrecognized

/-- `get_int(id)`: any of the eight registers may be read (00_scope.md R11; 10_state.md R23). -/
def getInt (s : State) (id : IntId) : Exec Word := do
  let r ← intOperand s id
  pure (s.ints.get r)

/-- `get_float(id)` (00_scope.md R11). -/
def getFlt (s : State) (id : FltId) : Exec Pattern := do
  let r ← fltOperand s id
  pure (s.flts.get r)

/-- The register `set_int_general` would write: RegisterUnrecognized for no register, RegisterNotAllowed for pc, sp, bp and irv
(00_scope.md R11). -/
def generalDest (s : State) (id : IntId) : Exec IntReg := do
  let r ← intOperand s id
  if generalAllowed r then pure r else raise s .registerNotAllowed

/-- The register `set_int_any` would write: as `generalDest`, but RegisterNotAllowed only for sp (00_scope.md R11). -/
def anyDest (s : State) (id : IntId) : Exec IntReg := do
  let r ← intOperand s id
  if anyAllowed r then pure r else raise s .registerNotAllowed

/-- `check_general(id)`: raises what `set_int_general` would and writes nothing (00_scope.md R11). -/
def checkGeneral (s : State) (id : IntId) : Exec Unit := do
  let _ ← generalDest s id
  pure ()

/-- `check_any(id)`: raises what `set_int_any` would and writes nothing (00_scope.md R11). -/
def checkAny (s : State) (id : IntId) : Exec Unit := do
  let _ ← anyDest s id
  pure ()

/-- `check_float(id)`: raises what `set_float` would and writes nothing (00_scope.md R11). -/
def checkFlt (s : State) (id : FltId) : Exec Unit := do
  let _ ← fltOperand s id
  pure ()

/-- `set_int_general(id, v)` (00_scope.md R11). -/
def setIntGeneral (s : State) (id : IntId) (v : Word) : Exec State := do
  let r ← generalDest s id
  pure (s.putInt r v)

/-- `set_int_any(id, v)` (00_scope.md R11). -/
def setIntAny (s : State) (id : IntId) (v : Word) : Exec State := do
  let r ← anyDest s id
  pure (s.putInt r v)

/-- `set_float(id, w)`: all five registers may be written, bit for bit (00_scope.md R11; 10_state.md R24, R29). -/
def setFlt (s : State) (id : FltId) (w : Pattern) : Exec State := do
  let r ← fltOperand s id
  pure (s.putFlt r w)

/-- LEAI's multiplier `m`: the literal byte, or the register it names, by `LEA_MULT_MODE` (43_address.md R170, R171). -/
def multiplier (s : State) (mult : Byte) : Exec Nat :=
  match s.cfg.leaMultMode with
  | .literal => pure mult.toNat
  | .register => do
    let v ← getInt s mult
    pure v.toNat

/-- `(vb + ((vo << m) mod 2^16)) mod 2^16` (43_address.md R170). -/
def effectiveAddress (vb vo : Word) (m : Nat) : Word := vb + BitVec.ofNat 16 (vo.toNat * 2 ^ m)

/-- `in_window(addr, n)`: `RW_MIN <= addr` and `addr < RW_MAX - n + 1`, over the integers (45_load_store.md R200; log 6). -/
def State.inWindow (s : State) (addr : Word) (n : Nat) : Bool :=
  decide (s.cfg.rwMin.toNat ≤ addr.toNat ∧ addr.toNat + n < s.cfg.rwMax.toNat + 1)

/-- The window test that opens every load and store (45_load_store.md R201 to R204). -/
def checkWindow (s : State) (addr : Word) (n : Nat) : Exec Unit :=
  if s.inWindow addr n then .ok () else raise s .memoryAccessOutOfBounds

/-- `addr <u RW_MIN`: the target lies in the code block (46_call_return.md R220). -/
def State.inCodeBlock (s : State) (addr : Word) : Bool := decide (addr.toNat < s.cfg.rwMin.toNat)

end Sys2Proof.Machine
end

