-- ==== Sys2Proof/Machine/Address.lean ====
section
/-! DEFINITION. Load effective address (43_address.md). -/

namespace Sys2Proof.Machine

/-- LEAI base off mult dest: base, off, the multiplier test, then the destination (43_address.md R170, R171). -/
def execLeai (base off : IntId) (mult : Byte) (dest : IntId) (s : State) : Answer := finish do
  let vb ← getInt s base
  let vo ← getInt s off
  let m ← multiplier s mult
  if 2 < m then raise s .invalidAddressMultiplier
  else setIntAny s dest (effectiveAddress vb vo m)

end Sys2Proof.Machine
end

