-- ==== Sys2Proof/Machine/Flags.lean ====
section
/-! DEFINITION. Every flag computation of the spec: the wrap tests of ADDI and SUBI (41_arithmetic.md R134, R136), the
unsigned compare (R142) and the predicates of the conditional moves (42_conditional_move.md R151). -/

namespace Sys2Proof.Machine

/-- ADDI's result, `(va + vb) mod 2^16` (41_arithmetic.md R134). -/
def sumOf (va vb : Word) : Word := BitVec.ofNat 16 (va.toNat + vb.toNat)

/-- `sum <u max(va, vb)`: the wrap ADDI flags (41_arithmetic.md R134). -/
def sumWrapped (va vb : Word) : Bool := decide ((sumOf va vb).toNat < max va.toNat vb.toNat)

/-- SUBI's result, `(vb - va) mod 2^16` (41_arithmetic.md R136). -/
def differenceOf (va vb : Word) : Word := BitVec.ofInt 16 ((vb.toNat : Int) - (va.toNat : Int))

/-- `diff >u vb`: the wrap SUBI flags (41_arithmetic.md R136). -/
def differenceWrapped (va vb : Word) : Bool := decide (vb.toNat < (differenceOf va vb).toNat)

/-- `compare(a, b)`: the unsigned comparison of CMPI (41_arithmetic.md R142). -/
def compareWords (va vb : Word) : CmpFlag :=
  if va.toNat = vb.toNat then .equal else if vb.toNat < va.toNat then .greater else .less

/-- The six variants of 42_conditional_move.md R151. -/
inductive Condition where
  | equal | notEqual | greater | greaterOrEqual | less | lessOrEqual
  deriving DecidableEq, Repr

/-- The predicate table `P(cmp)` of 42_conditional_move.md R151. No predicate holds of Uninitialized, of which R150 never asks. -/
def conditionHolds : Condition → CmpFlag → Bool
  | _, .uninitialized => false
  | .equal, .equal => true
  | .equal, .greater => false
  | .equal, .less => false
  | .notEqual, .equal => false
  | .notEqual, .greater => true
  | .notEqual, .less => true
  | .greater, .equal => false
  | .greater, .greater => true
  | .greater, .less => false
  | .greaterOrEqual, .equal => true
  | .greaterOrEqual, .greater => true
  | .greaterOrEqual, .less => false
  | .less, .equal => false
  | .less, .greater => false
  | .less, .less => true
  | .lessOrEqual, .equal => true
  | .lessOrEqual, .greater => false
  | .lessOrEqual, .less => true

end Sys2Proof.Machine
end

