-- ==== Sys2Proof/Machine/Arithmetic.lean ====
section
/-! DEFINITION. Register set, integer arithmetic and compare (41_arithmetic.md). -/

namespace Sys2Proof.Machine

/-- SETI r v (41_arithmetic.md R130). -/
def execSeti (r : IntId) (v : Word) (s : State) : Answer := finish (setIntGeneral s r v)

/-- SETF f w (41_arithmetic.md R131). -/
def execSetf (f : FltId) (w : Pattern) (s : State) : Answer := finish (setFlt s f w)

/-- ADDI a b: the wrapped sum is stored before the overflow is raised (41_arithmetic.md R134). -/
def execAddi (a b : IntId) (s : State) : Answer := finish do
  let va ← getInt s a
  let vb ← getInt s b
  let t ← setIntGeneral s b (sumOf va vb)
  if sumWrapped va vb then raise t .arithmeticOverflow else pure t

/-- SUBI a b: the wrapped difference is stored before the underflow is raised (41_arithmetic.md R136). -/
def execSubi (a b : IntId) (s : State) : Answer := finish do
  let va ← getInt s a
  let vb ← getInt s b
  let t ← setIntGeneral s b (differenceOf va vb)
  if differenceWrapped va vb then raise t .arithmeticUnderflow else pure t

/-- INCI r: wraps silently (41_arithmetic.md R138). -/
def execInci (r : IntId) (s : State) : Answer := finish do
  let v ← getInt s r
  setIntGeneral s r (v + 1)

/-- DECI r: the destination is tested before the value (41_arithmetic.md R140). -/
def execDeci (r : IntId) (s : State) : Answer := finish do
  let v ← getInt s r
  checkGeneral s r
  if v = 0 then raise s .decrementZero else setIntGeneral s r (v - 1)

/-- CMPI a b: overwrites cmp and nothing else (41_arithmetic.md R142). -/
def execCmpi (a b : IntId) (s : State) : Answer := finish do
  let va ← getInt s a
  let vb ← getInt s b
  pure (s.putCmp (compareWords va vb))

end Sys2Proof.Machine
end

