-- ==== Sys2Proof/Machine/CallReturn.lean ====
section
/-! DEFINITION. Call and return (46_call_return.md). -/

namespace Sys2Proof.Machine

/-- CALL addr: ten pushes, then the target test, then the jump (46_call_return.md R220). -/
def execCall (addr : Word) (s : State) : Answer := finish do
  let t ← pushSlots frameSlots s
  if t.inCodeBlock addr then pure (t.putInt .pc addr) else raise t .executeOutOfCodeBlock

/-- RETN: the ten pops in exact reverse order, pc last (46_call_return.md R221). -/
def execRetn (s : State) : Answer := finish (popSlots frameSlots.reverse s)

end Sys2Proof.Machine
end

