-- ==== Sys2Proof/Machine/CondMove.lean ====
section
/-! DEFINITION. The six conditional moves (42_conditional_move.md): one rule, R150, under six predicates, R151. -/

namespace Sys2Proof.Machine

/-- The common rule R150. When the predicate fails neither register is accessed; a raise leaves cmp as it was. -/
def condMove (p : Condition) (src dst : IntId) (s : State) : Exec State :=
  if s.cmp = .uninitialized then raise s .comparisonNotInitialized
  else if conditionHolds p s.cmp then do
    let v ← getInt s src
    let t ← setIntAny s dst v
    pure (t.putCmp .uninitialized)
  else pure (s.putCmp .uninitialized)

/-- MEQI src dst (42_conditional_move.md R152). -/
def execMeqi (src dst : IntId) (s : State) : Answer := finish (condMove .equal src dst s)

/-- MNEI src dst (42_conditional_move.md R153). -/
def execMnei (src dst : IntId) (s : State) : Answer := finish (condMove .notEqual src dst s)

/-- MGTI src dst (42_conditional_move.md R154). -/
def execMgti (src dst : IntId) (s : State) : Answer := finish (condMove .greater src dst s)

/-- MGEI src dst (42_conditional_move.md R155). -/
def execMgei (src dst : IntId) (s : State) : Answer := finish (condMove .greaterOrEqual src dst s)

/-- MLTI src dst (42_conditional_move.md R156). -/
def execMlti (src dst : IntId) (s : State) : Answer := finish (condMove .less src dst s)

/-- MLEI src dst (42_conditional_move.md R157). -/
def execMlei (src dst : IntId) (s : State) : Answer := finish (condMove .lessOrEqual src dst s)

end Sys2Proof.Machine
end

