-- ==== Sys2Proof/Machine/Control.lean ====
section
/-! DEFINITION. HALT (40_sequencer.md R117), CORE's only system instruction (60_exceptions.md R250). -/

namespace Sys2Proof.Machine

/-- HALT: `status <- Halt`; cmp is left as it is (40_sequencer.md R117). -/
def execHalt (s : State) : Answer := .next (s.putStatus .halt)

end Sys2Proof.Machine
end

