-- ==== Sys2Proof/Machine/LoadStore.lean ====
section
/-! DEFINITION. Loads and stores to the read-write block (45_load_store.md). The window test comes first (60_exceptions.md R246). -/

namespace Sys2Proof.Machine

/-- LODI addr r (45_load_store.md R201). -/
def execLodi (addr : Word) (r : IntId) (s : State) : Answer := finish do
  checkWindow s addr 2
  checkGeneral s r
  setIntGeneral s r (s.loadWord addr)

/-- STOI addr r (45_load_store.md R202). -/
def execStoi (addr : Word) (r : IntId) (s : State) : Answer := finish do
  checkWindow s addr 2
  let v ← getInt s r
  pure (s.storeWord addr v)

/-- LODF addr f (45_load_store.md R203). -/
def execLodf (addr : Word) (f : FltId) (s : State) : Answer := finish do
  checkWindow s addr 4
  checkFlt s f
  setFlt s f (s.loadPattern addr)

/-- STOF addr f (45_load_store.md R204). -/
def execStof (addr : Word) (f : FltId) (s : State) : Answer := finish do
  checkWindow s addr 4
  let w ← getFlt s f
  pure (s.storePattern addr w)

end Sys2Proof.Machine
end

