-- ==== Sys2Proof/Machine/Stack.lean ====
section
/-! DEFINITION. Stack push and pop (44_stack.md). The stack grows toward higher addresses (90_conflicts.md C5). -/

namespace Sys2Proof.Machine

/-- PUSHI r: the overflow test comes before the register read (44_stack.md R180). -/
def execPushi (r : IntId) (s : State) : Answer := finish do
  checkPush s 2
  let v ← getInt s r
  pure (s.stackWord v)

/-- POPI r: the underflow test, the destination test, then sp and the register (44_stack.md R181). -/
def execPopi (r : IntId) (s : State) : Answer := finish do
  checkPop s
  checkAny s r
  let t := s.unstack 2
  setIntAny t r (t.loadWord t.ints.sp)

/-- PUSHF f (44_stack.md R182). -/
def execPushf (f : FltId) (s : State) : Answer := finish do
  checkPush s 4
  let w ← getFlt s f
  pure (s.stackPattern w)

/-- POPF f: the underflow test does not look at the size (44_stack.md R183; 90_conflicts.md C1). -/
def execPopf (f : FltId) (s : State) : Answer := finish do
  checkPop s
  checkFlt s f
  let t := s.unstack 4
  setFlt t f (t.loadPattern t.ints.sp)

end Sys2Proof.Machine
end

