-- ==== Sys2Proof/Machine/Dispatch.lean ====
section
/-! DEFINITION. The one dispatch: an arm per constructor of Instr, each one call of that instruction's meaning (40_sequencer.md R114).
The state it is given already has pc advanced (R112). -/

namespace Sys2Proof.Machine

def exec (i : Instr) (s : State) : Host.Outcome State Fault Refusal :=
  match i with
  | .halt => Sys2Proof.Machine.execHalt s
  | .seti r v => Sys2Proof.Machine.execSeti r v s
  | .setf f w => Sys2Proof.Machine.execSetf f w s
  | .addi a b => Sys2Proof.Machine.execAddi a b s
  | .subi a b => Sys2Proof.Machine.execSubi a b s
  | .inci r => Sys2Proof.Machine.execInci r s
  | .deci r => Sys2Proof.Machine.execDeci r s
  | .cmpi a b => Sys2Proof.Machine.execCmpi a b s
  | .meqi src dst => Sys2Proof.Machine.execMeqi src dst s
  | .mnei src dst => Sys2Proof.Machine.execMnei src dst s
  | .mgti src dst => Sys2Proof.Machine.execMgti src dst s
  | .mgei src dst => Sys2Proof.Machine.execMgei src dst s
  | .mlti src dst => Sys2Proof.Machine.execMlti src dst s
  | .mlei src dst => Sys2Proof.Machine.execMlei src dst s
  | .leai base off mult dest => Sys2Proof.Machine.execLeai base off mult dest s
  | .pushi r => Sys2Proof.Machine.execPushi r s
  | .popi r => Sys2Proof.Machine.execPopi r s
  | .pushf f => Sys2Proof.Machine.execPushf f s
  | .popf f => Sys2Proof.Machine.execPopf f s
  | .lodi addr r => Sys2Proof.Machine.execLodi addr r s
  | .stoi addr r => Sys2Proof.Machine.execStoi addr r s
  | .lodf addr f => Sys2Proof.Machine.execLodf addr f s
  | .stof addr f => Sys2Proof.Machine.execStof addr f s
  | .call addr => Sys2Proof.Machine.execCall addr s
  | .retn => Sys2Proof.Machine.execRetn s

end Sys2Proof.Machine
end

