-- ==== Sys2Proof/WellFormed.lean ====
section
/-! DEFINITION. Which instructions an assembler line can write (30_encoding.md R90, R91): registers are written by name,
so every register operand is the id of a register of its kind. The decoder yields other instructions too: an id that
names no register decodes (30_encoding.md R88) and the machine gives it its meaning; `WellFormed` rules those out
(log 9). Immediates and LEAI's multiplier have no further check: every value of their width can be written. -/

namespace Sys2Proof

/-- The byte names an integer register (kind `IR` of 30_encoding.md R84). -/
def Config.namesInt (c : Config) (id : IntId) : Bool := (c.intReg? id).isSome

/-- The byte names a float register (kind `FR` of 30_encoding.md R84). -/
def Config.namesFlt (c : Config) (id : FltId) : Bool := (c.fltReg? id).isSome

/-- Every register operand names a register of its kind; in `LEA_MULT_MODE = Register` LEAI's multiplier is one of them
(43_address.md R171). -/
def Instr.wellFormed (c : Config) : Instr → Bool
  | .halt => true
  | .seti r _ => c.namesInt r
  | .setf f _ => c.namesFlt f
  | .addi a b => c.namesInt a && c.namesInt b
  | .subi a b => c.namesInt a && c.namesInt b
  | .inci r => c.namesInt r
  | .deci r => c.namesInt r
  | .cmpi a b => c.namesInt a && c.namesInt b
  | .meqi s d => c.namesInt s && c.namesInt d
  | .mnei s d => c.namesInt s && c.namesInt d
  | .mgti s d => c.namesInt s && c.namesInt d
  | .mgei s d => c.namesInt s && c.namesInt d
  | .mlti s d => c.namesInt s && c.namesInt d
  | .mlei s d => c.namesInt s && c.namesInt d
  | .leai base off mult dest =>
    c.namesInt base && c.namesInt off && (decide (c.leaMultMode = .literal) || c.namesInt mult) && c.namesInt dest
  | .pushi r => c.namesInt r
  | .popi r => c.namesInt r
  | .pushf f => c.namesFlt f
  | .popf f => c.namesFlt f
  | .lodi _ r => c.namesInt r
  | .stoi _ r => c.namesInt r
  | .lodf _ f => c.namesFlt f
  | .stof _ f => c.namesFlt f
  | .call _ => true
  | .retn => true

end Sys2Proof
end

