-- ==== Sys2Proof/Decode.lean ====
section
/-! DEFINITION. The decoder (30_encoding.md R80 to R89), total on all six-byte records, and after it the encoder, from the
same tables (R81, R86, R91). -/

namespace Sys2Proof

/-- Why a record does not decode. Raised by the decoder alone; the sequencer turns it into the status UnrecognizedOpcode
(40_sequencer.md R113). Safe: it is the spec's own outcome. -/
inductive DecodeError where
  /-- The opcode byte is not in the opcode map (30_encoding.md R82, R87). -/
  | unrecognizedOpcode (b : Byte)
  deriving DecidableEq, Repr

/-- The eight schemas of 30_encoding.md R81. S5 is named there and used by no instruction (R96). -/
inductive Schema where
  | s0 | s1 | s2 | s3 | s4 | s5 | s6 | s7
  deriving DecidableEq, Repr

/-- The static schema of each opcode (30_encoding.md R86). -/
def Opcode.schema : Opcode → Schema
  | .halt | .retn => .s0
  | .inci | .deci | .pushi | .popi | .pushf | .popf => .s1
  | .call => .s2
  | .seti | .lodi | .stoi | .lodf | .stof => .s3
  | .addi | .subi | .cmpi | .meqi | .mnei | .mgti | .mgei | .mlti | .mlei => .s4
  | .setf => .s6
  | .leai => .s7

/-- How many bytes of the record a schema uses, the opcode byte included; the rest are the `-` of 30_encoding.md R81, which
are ignored (R85). -/
def Schema.usedBytes : Schema → Nat
  | .s0 => 1
  | .s1 => 2
  | .s2 => 3
  | .s3 => 4
  | .s4 => 3
  | .s5 => 5
  | .s6 => 6
  | .s7 => 5

/-- `imm16(1)`, the 2-byte field of schema S2 (30_encoding.md R81, R83). -/
def imm16At1 (c : Config) (r : Record) : Word := assembleWord c.endian r.b1 r.b2

/-- `imm16(2)`, the 2-byte field of schema S3 (30_encoding.md R81, R83). -/
def imm16At2 (c : Config) (r : Record) : Word := assembleWord c.endian r.b2 r.b3

/-- `imm32(2)`, the 4-byte field of schema S6 (30_encoding.md R81, R83). -/
def imm32At2 (c : Config) (r : Record) : Pattern := assemblePattern c.endian r.b2 r.b3 r.b4 r.b5

/-- The operand fields of a record, read in the opcode's schema (30_encoding.md R81, R86). -/
def operandsOf (c : Config) (o : Opcode) (r : Record) : Instr :=
  match o with
  | .halt => .halt
  | .seti => .seti r.b1 (imm16At2 c r)
  | .setf => .setf r.b1 (imm32At2 c r)
  | .addi => .addi r.b1 r.b2
  | .subi => .subi r.b1 r.b2
  | .inci => .inci r.b1
  | .deci => .deci r.b1
  | .cmpi => .cmpi r.b1 r.b2
  | .meqi => .meqi r.b1 r.b2
  | .mnei => .mnei r.b1 r.b2
  | .mgti => .mgti r.b1 r.b2
  | .mgei => .mgei r.b1 r.b2
  | .mlti => .mlti r.b1 r.b2
  | .mlei => .mlei r.b1 r.b2
  | .leai => .leai r.b1 r.b2 r.b3 r.b4
  | .pushi => .pushi r.b1
  | .popi => .popi r.b1
  | .pushf => .pushf r.b1
  | .popf => .popf r.b1
  | .lodi => .lodi (imm16At2 c r) r.b1
  | .stoi => .stoi (imm16At2 c r) r.b1
  | .lodf => .lodf (imm16At2 c r) r.b1
  | .stof => .stof (imm16At2 c r) r.b1
  | .call => .call (imm16At1 c r)
  | .retn => .retn

/-- `decode(ib[0..5])` (30_encoding.md R82): the opcode byte first, then the operand fields; nothing but the six bytes is read. -/
def decode (c : Config) (r : Record) : Except DecodeError Instr :=
  match c.opcodeAt? r.b0 with
  | none => .error (.unrecognizedOpcode r.b0)
  | some o => .ok (operandsOf c o r)

/-- A record of schema S0: unused bytes are 0x00, as the assembler writes them (30_encoding.md R85, R91). -/
def recordS0 (op : Byte) : Record := ⟨op, 0, 0, 0, 0, 0⟩

/-- A record of schema S1 (30_encoding.md R81). -/
def recordS1 (op a : Byte) : Record := ⟨op, a, 0, 0, 0, 0⟩

/-- A record of schema S2 (30_encoding.md R81). -/
def recordS2 (c : Config) (op : Byte) (v : Word) : Record :=
  ⟨op, wordByte c.endian v 0, wordByte c.endian v 1, 0, 0, 0⟩

/-- A record of schema S3 (30_encoding.md R81). -/
def recordS3 (c : Config) (op a : Byte) (v : Word) : Record :=
  ⟨op, a, wordByte c.endian v 0, wordByte c.endian v 1, 0, 0⟩

/-- A record of schema S4 (30_encoding.md R81). -/
def recordS4 (op a b : Byte) : Record := ⟨op, a, b, 0, 0, 0⟩

/-- A record of schema S6 (30_encoding.md R81). -/
def recordS6 (c : Config) (op a : Byte) (w : Pattern) : Record :=
  ⟨op, a, patternByte c.endian w 0, patternByte c.endian w 1, patternByte c.endian w 2, patternByte c.endian w 3⟩

/-- A record of schema S7 (30_encoding.md R81). -/
def recordS7 (op a b m d : Byte) : Record := ⟨op, a, b, m, d, 0⟩

/-- The record of an instruction (30_encoding.md R91). -/
def encode (c : Config) (i : Instr) : Record :=
  let op := c.opcodeByte i.opcode
  match i with
  | .halt => recordS0 op
  | .seti r v => recordS3 c op r v
  | .setf f w => recordS6 c op f w
  | .addi a b => recordS4 op a b
  | .subi a b => recordS4 op a b
  | .inci r => recordS1 op r
  | .deci r => recordS1 op r
  | .cmpi a b => recordS4 op a b
  | .meqi s d => recordS4 op s d
  | .mnei s d => recordS4 op s d
  | .mgti s d => recordS4 op s d
  | .mgei s d => recordS4 op s d
  | .mlti s d => recordS4 op s d
  | .mlei s d => recordS4 op s d
  | .leai base off mult dest => recordS7 op base off mult dest
  | .pushi r => recordS1 op r
  | .popi r => recordS1 op r
  | .pushf f => recordS1 op f
  | .popf f => recordS1 op f
  | .lodi addr r => recordS3 c op r addr
  | .stoi addr r => recordS3 c op r addr
  | .lodf addr f => recordS3 c op f addr
  | .stof addr f => recordS3 c op f addr
  | .call addr => recordS2 c op addr
  | .retn => recordS0 op

/-- Byte `k` of an opcode-table word: the first byte is the table's bits 7..0, and bits at or above `nbits` are 0. -/
def tableByte (nbits w k : Nat) : Byte := BitVec.ofNat 8 (w % 2 ^ nbits / 2 ^ (8 * k))

/-- The record whose bits the opcode table numbers as `w`. -/
def tableRecord (nbits w : Nat) : Record :=
  ⟨tableByte nbits w 0, tableByte nbits w 1, tableByte nbits w 2, tableByte nbits w 3, tableByte nbits w 4,
   tableByte nbits w 5⟩

/-- What the decoder reads from an opcode-table word, under the spec's own tables (`Config.ex`). -/
def decodeTableWord (nbits w : Nat) : Option Instr :=
  match decode Config.ex (tableRecord nbits w) with
  | .ok i => some i
  | .error _ => none

end Sys2Proof
end

