-- ==== Sys2Proof/Machine/Sequencer.lean ====
section
/-! DEFINITION. The PC sequencer's part of a step around the instruction (40_sequencer.md R110 to R116): the test that the
core is Running, the cycle count, the fetch, the decode error and the early advance of pc. Step.lean only calls it. -/

namespace Sys2Proof.Machine

/-- The step is counted whatever it does (40_sequencer.md R116; 10_state.md R35). -/
def State.countCycle (s : State) : State := { s with cycles := s.cycles + 1 }

/-- The six bytes of the fetch are kept in `last_instr` (40_sequencer.md R111; 10_state.md R36). -/
def State.keepFetched (s : State) (ib : Record) : State := { s with lastInstr := ib }

/-- `ib[0..5] = M[pc] .. M[pc+5]` (40_sequencer.md R111). No region is checked. -/
def State.fetched (s : State) : Record := s.mem.readRecord s.ints.pc

/-- The six bytes at pc lie in the memory: `pc <= 0xFFFA` (20_memory.md R55; 40_sequencer.md R111). -/
def State.fetchInRange (s : State) : Bool := decide (s.ints.pc.toNat ≤ 0xFFFA)

/-- `pc <- (pc + 6) mod 2^16` (40_sequencer.md R112). -/
def State.advance (s : State) : State := s.putInt .pc (s.ints.pc + 6)

/-- The state an instruction executes in: the cycle counted, the fetched bytes kept, pc advanced (40_sequencer.md R110 to R112). -/
def State.executing (s : State) : State := (s.countCycle.keepFetched s.fetched).advance

/-- The state after a record that does not decode: the status set and pc kept (40_sequencer.md R113). -/
def State.undecoded (s : State) : State :=
  (s.countCycle.keepFetched s.fetched).putStatus (.error .unrecognizedOpcode)

/-- What the sequencer hands on: an instruction and the state it executes in, or the step's own answer. -/
inductive Prepared where
  | execute (i : Instr) (s : State)
  | answer (o : Answer)
  deriving Repr

/-- Everything of a step before the instruction executes, in the order of 40_sequencer.md R110. A configuration outside
00_scope.md R8 is refused; a core that is not Running has no step (R115). -/
def prepare (s : State) : Prepared :=
  if ¬ s.cfg.Valid then .answer (.refused .invalidConfiguration)
  else if s.status ≠ .noError then .answer (.fault (.stopped s.status))
  else if s.fetchInRange then
    match decode s.cfg s.fetched with
    | .ok i => .execute i s.executing
    | .error _ => .answer (.next s.undecoded)
  else .answer (.fault (.fetchOutOfRange s.countCycle))

/-- The state with six bytes stored at pc, where the next step fetches. -/
def State.placeRecord (s : State) (ib : Record) : State := s.putMem (s.mem.writeBytes s.ints.pc ib.bytes)

end Sys2Proof.Machine
end

