-- ==== Sys2Proof/Machine/Step.lean ====
section
/-! DEFINITION. One step of CORE (40_sequencer.md R110): what the sequencer prepares, then the decoded instruction. -/

namespace Sys2Proof.Machine

/-- One iteration of the fetch-decode-execute loop (40_sequencer.md R110; log 14). The engine state at its end is a function of the
status (10_state.md R33). -/
def step (s : State) : Host.Outcome State Fault Refusal :=
  match prepare s with
  | .execute i t => exec i t
  | .answer o => o

/-- `s` with the instruction of an opcode-table word stored at pc, where `step` fetches. -/
def State.withFetchWord (s : State) (nbits w : Nat) : State := s.placeRecord (tableRecord nbits w)

end Sys2Proof.Machine
end

