-- ==== Sys2Proof/Machine/HostInterface.lean ====
section
/-! DEFINITION. What the host may do while CORE is not stepping (70_reset_and_hazards.md R272, R273): reset, load a program
(20_memory.md R70) and observe (60_exceptions.md R256). None of it is part of a step. -/

namespace Sys2Proof.Machine

/-- Reset, from any state: every field is reinitialised, under the same configuration (70_reset_and_hazards.md R270). -/
def State.restart (s : State) : State := State.resetWith s.cfg

/-- `M[LOAD_BASE + i] <- bytes[i]`, addresses mod 2^16, nothing validated (20_memory.md R70). -/
def State.load (s : State) (base : Word) (bytes : List Byte) : State := s.putMem (s.mem.writeBytes base bytes)

/-- The record bytes of a program file: after the 2-byte count header, `6 * count` bytes; the header is not among them
(20_memory.md R70). A file with no whole header has no records, and a file shorter than its header says gives what it has (log 8). -/
def programBytes (e : Endian) : List Byte → List Byte
  | h0 :: h1 :: rest => rest.take (6 * (assembleWord e h0 h1).toNat)
  | _ => []

/-- The host's program load (20_memory.md R70). -/
def State.loadProgram (s : State) (base : Word) (file : List Byte) : State := s.load base (programBytes s.cfg.endian file)

/-- The engine state (10_state.md R33). -/
inductive EngineState where
  | running | halted | errored (k : ErrorKind)
  deriving DecidableEq, Repr

/-- The engine state as the function of `status` that 10_state.md R33 gives. -/
def State.engine (s : State) : EngineState :=
  match s.status with
  | .noError => .running
  | .halt => .halted
  | .error k => .errored k

/-- The status output: one byte (60_exceptions.md R241). -/
def statusCode : Status → Byte
  | .noError => 0x00
  | .halt => 0x01
  | .error .registerUnrecognized => 0x02
  | .error .registerNotAllowed => 0x03
  | .error .unrecognizedOpcode => 0x04
  | .error .comparisonNotInitialized => 0x05
  | .error .stackOverflow => 0x06
  | .error .stackUnderflow => 0x07
  | .error .memoryAccessOutOfBounds => 0x08
  | .error .invalidAddressMultiplier => 0x09
  | .error .executeOutOfCodeBlock => 0x0A
  | .error .decrementZero => 0x0B
  | .error .arithmeticOverflow => 0x0C
  | .error .arithmeticUnderflow => 0x0D

/-- The byte read port on `M` (60_exceptions.md R256). -/
def State.readPort (s : State) (a : Word) : Byte := s.mem.read a.toNat

/-- The stack's contents, the bytes `[RW_MAX, sp)`; none when sp is below RW_MAX (60_exceptions.md R256; 90_conflicts.md C8). -/
def State.stackBytes (s : State) : List Byte :=
  (List.range (s.ints.sp.toNat - s.cfg.rwMax.toNat)).map (fun k => s.mem.readAt s.cfg.rwMax k)

/-- The constant core id (10_state.md R37; log 12). -/
def coreId : Nat := 0

/-- The constant core count (10_state.md R37). -/
def coreCount : Nat := 1

end Sys2Proof.Machine
end

