-- ==== Sys2Proof/Safety.lean ====
section
/-! DEFINITION. What counts as a safe state and a clean run, in the terms the statements use. -/

namespace Sys2Proof.Machine

/-- The stack pointer's whole-machine rule: `sp - RW_MAX` is even and `RW_MAX - 2 <= sp <= MAX_ADDR` (44_stack.md R187;
20_memory.md R59). -/
abbrev State.stackOk (s : State) : Prop :=
  (s.ints.sp.toNat + s.cfg.rwMax.toNat) % 2 = 0 ∧ s.cfg.rwMax.toNat ≤ s.ints.sp.toNat + 2 ∧
    s.ints.sp.toNat ≤ s.cfg.maxAddr.toNat

/-- The machine's invariant: an admitted configuration (00_scope.md R8), memory in its canonical form, and the stack
pointer's rule. -/
abbrev State.Inv (s : State) : Prop := s.cfg.Valid ∧ s.mem.wf ∧ s.stackOk

/-- The bytes of the code block `[0x0000, RW_MIN)` are the same in both states (20_memory.md R51, R59). -/
def SameCodeBlock (s t : State) : Prop := ∀ a, a < s.cfg.rwMin.toNat → t.mem.read a = s.mem.read a

/-- A step from `s` has a next state: no model fault and no refusal. -/
def CanStep (s : State) : Prop := ∃ t, step s = .next t

/-- The run from `s` ends Halted, the only clean end (40_sequencer.md R119). -/
def EndsHalted (s : State) : Prop := ∃ k t, Sys2Proof.core.run k s = .next t ∧ t.engine = .halted

/-- The run from `s` ends Errored with kind `e` (40_sequencer.md R119). -/
def EndsErrored (s : State) (e : ErrorKind) : Prop := ∃ k t, Sys2Proof.core.run k s = .next t ∧ t.engine = .errored e

/-- The registers `set_int_general` may write: ir0..ir3 (10_state.md R24). -/
abbrev IsGeneral (r : IntReg) : Prop := r = .ir0 ∨ r = .ir1 ∨ r = .ir2 ∨ r = .ir3

/-- `in_window(addr, n)` as 45_load_store.md R200 writes it, over the integers. -/
abbrev InWindow (c : Config) (addr : Word) (n : Nat) : Prop :=
  (c.rwMin.toNat : Int) ≤ addr.toNat ∧ (addr.toNat : Int) < (c.rwMax.toNat : Int) - n + 1

/-- `sp <= MAX_ADDR - n`, over the integers (44_stack.md R184). -/
abbrev PushFits (s : State) (n : Nat) : Prop := (s.ints.sp.toNat : Int) ≤ (s.cfg.maxAddr.toNat : Int) - n

/-- The 2-byte value at addresses `a` and `a + 1` of a memory (20_memory.md R52). -/
abbrev wordAt (e : Endian) (m : Memory) (a : Nat) : Word := assembleWord e (m.read a) (m.read (a + 1))

/-- The 4-byte pattern at addresses `a` to `a + 3` of a memory (20_memory.md R52). -/
abbrev patternAt (e : Endian) (m : Memory) (a : Nat) : Pattern :=
  assemblePattern e (m.read a) (m.read (a + 1)) (m.read (a + 2)) (m.read (a + 3))

/-- From `s` to `t` the word `v` was stored at `a`: its two bytes are there, and every other byte of memory is as before. -/
abbrev StoredWord (s t : State) (a : Nat) (v : Word) : Prop :=
  t.mem.read a = wordByte s.cfg.endian v 0 ∧ t.mem.read (a + 1) = wordByte s.cfg.endian v 1 ∧
    ∀ x, x < a ∨ a + 2 ≤ x → t.mem.read x = s.mem.read x

/-- From `s` to `t` the pattern `w` was stored at `a`: its four bytes are there, and every other byte of memory is as before. -/
abbrev StoredPattern (s t : State) (a : Nat) (w : Pattern) : Prop :=
  (∀ k, k < 4 → t.mem.read (a + k) = patternByte s.cfg.endian w k) ∧
    ∀ x, x < a ∨ a + 4 ≤ x → t.mem.read x = s.mem.read x

/-- The frame of 46_call_return.md R220: each register saved, with its offset from S. -/
def frameLayout : List (Nat × FrameSlot) :=
  [(0, .int .pc), (2, .int .bp), (4, .int .ir0), (6, .int .ir1), (8, .int .ir2), (10, .int .ir3),
   (12, .flt .fr0), (16, .flt .fr1), (20, .flt .fr2), (24, .flt .fr3)]

/-- How many bytes the first `k` registers of the frame take (46_call_return.md R220). -/
def frameOffset (k : Nat) : Nat := [0, 2, 4, 6, 8, 10, 12, 16, 20, 24].getD k 28

/-- The register of `t` that a slot names holds the value at address `a` of a memory. -/
def SlotHolds (t : State) (e : Endian) (m : Memory) (a : Nat) : FrameSlot → Prop
  | .int r => t.ints.get r = wordAt e m a
  | .flt r => t.flts.get r = patternAt e m a

/-- The register a slot names holds the same value in both states. -/
def SlotSame (s t : State) : FrameSlot → Prop
  | .int r => t.ints.get r = s.ints.get r
  | .flt r => t.flts.get r = s.flts.get r

/-- The conditional move with a given predicate (42_conditional_move.md R151). -/
def moveOf : Condition → IntId → IntId → Instr
  | .equal, src, dst => .meqi src dst
  | .notEqual, src, dst => .mnei src dst
  | .greater, src, dst => .mgti src dst
  | .greaterOrEqual, src, dst => .mgei src dst
  | .less, src, dst => .mlti src dst
  | .lessOrEqual, src, dst => .mlei src dst

/-- `P(cmp)` as 42_conditional_move.md R152 to R157 write it. -/
abbrev PredicateHolds (p : Condition) (c : CmpFlag) : Prop :=
  (p = .equal ∧ c = .equal) ∨ (p = .notEqual ∧ (c = .greater ∨ c = .less)) ∨ (p = .greater ∧ c = .greater) ∨
  (p = .greaterOrEqual ∧ (c = .greater ∨ c = .equal)) ∨ (p = .less ∧ c = .less) ∨
  (p = .lessOrEqual ∧ (c = .less ∨ c = .equal))

/-- The mnemonics of the conditional moves (42_conditional_move.md R151). -/
def moveOpcodes : List Opcode := [.meqi, .mnei, .mgti, .mgei, .mlti, .mlei]

/-- Which instructions can raise each kind (60_exceptions.md R242). UnrecognizedOpcode is the sequencer's. -/
def raisedBy : ErrorKind → List Opcode
  | .registerUnrecognized =>
    [.seti, .setf, .addi, .subi, .inci, .deci, .cmpi] ++ moveOpcodes ++
      [.leai, .pushi, .popi, .pushf, .popf, .lodi, .stoi, .lodf, .stof]
  | .registerNotAllowed => [.seti, .addi, .subi, .inci, .deci, .lodi] ++ moveOpcodes ++ [.leai, .popi]
  | .unrecognizedOpcode => []
  | .comparisonNotInitialized => moveOpcodes
  | .stackOverflow => [.pushi, .pushf, .call]
  | .stackUnderflow => [.popi, .popf, .retn]
  | .memoryAccessOutOfBounds => [.lodi, .stoi, .lodf, .stof]
  | .invalidAddressMultiplier => [.leai]
  | .executeOutOfCodeBlock => [.call]
  | .decrementZero => [.deci]
  | .arithmeticOverflow => [.addi]
  | .arithmeticUnderflow => [.subi]

end Sys2Proof.Machine
end

