-- ==== Sys2Proof/Certificates/Slice0/Obligations.lean ====
section
/-! DEFINITION. The statements for the provers. Each says which rule of spec/ it formalises. `exec i s` is the instruction's own
effect, in the state whose pc is already pc_next (40_sequencer.md R112); `step` adds the fetch, the count and the advance.
`cfg.boundsOk` is 00_scope.md R8; `cfg.Valid`, an admitted configuration, adds that the tables are maps without ambiguity
(30_encoding.md R82; log 3). -/

open Sys2Proof Sys2Proof.Machine

/-! ### Encoding (30_encoding.md) -/

/-- R93: the nine worked encodings decode to their lines, and the lines encode to those bytes. -/
def Obligations.ExampleLinesEncodeAndDecode : Prop :=
  ∀ p ∈ ([(.seti 3 5, ⟨0x02, 0x03, 0x05, 0x00, 0x00, 0x00⟩), (.seti 4 3, ⟨0x02, 0x04, 0x03, 0x00, 0x00, 0x00⟩),
      (.addi 3 4, ⟨0x04, 0x03, 0x04, 0x00, 0x00, 0x00⟩), (.halt, ⟨0x01, 0x00, 0x00, 0x00, 0x00, 0x00⟩),
      (.seti 3 0xFFFF, ⟨0x02, 0x03, 0xFF, 0xFF, 0x00, 0x00⟩), (.seti 4 0x0001, ⟨0x02, 0x04, 0x01, 0x00, 0x00, 0x00⟩),
      (.deci 3, ⟨0x07, 0x03, 0x00, 0x00, 0x00, 0x00⟩), (.cmpi 3 4, ⟨0x08, 0x03, 0x04, 0x00, 0x00, 0x00⟩),
      (.meqi 3 4, ⟨0x09, 0x03, 0x04, 0x00, 0x00, 0x00⟩)] : List (Instr × Record)),
    decode Config.ex p.2 = .ok p.1 ∧ encode Config.ex p.1 = p.2

/-- R86 with R81: each opcode byte, with any operand bytes, is its instruction, the fields where the table puts them and wide
fields little-endian. -/
def Obligations.OpcodeMapSelectsTheInstruction : Prop :=
  ∀ x1 x2 x3 x4 x5 : Byte,
    decode Config.ex ⟨0x01, x1, x2, x3, x4, x5⟩ = .ok .halt ∧
    decode Config.ex ⟨0x02, x1, x2, x3, x4, x5⟩ = .ok (.seti x1 (x3 ++ x2)) ∧
    decode Config.ex ⟨0x03, x1, x2, x3, x4, x5⟩ = .ok (.setf x1 (x5 ++ x4 ++ x3 ++ x2)) ∧
    decode Config.ex ⟨0x04, x1, x2, x3, x4, x5⟩ = .ok (.addi x1 x2) ∧
    decode Config.ex ⟨0x05, x1, x2, x3, x4, x5⟩ = .ok (.subi x1 x2) ∧
    decode Config.ex ⟨0x06, x1, x2, x3, x4, x5⟩ = .ok (.inci x1) ∧
    decode Config.ex ⟨0x07, x1, x2, x3, x4, x5⟩ = .ok (.deci x1) ∧
    decode Config.ex ⟨0x08, x1, x2, x3, x4, x5⟩ = .ok (.cmpi x1 x2) ∧
    decode Config.ex ⟨0x09, x1, x2, x3, x4, x5⟩ = .ok (.meqi x1 x2) ∧
    decode Config.ex ⟨0x0A, x1, x2, x3, x4, x5⟩ = .ok (.mnei x1 x2) ∧
    decode Config.ex ⟨0x0B, x1, x2, x3, x4, x5⟩ = .ok (.mgti x1 x2) ∧
    decode Config.ex ⟨0x0C, x1, x2, x3, x4, x5⟩ = .ok (.mgei x1 x2) ∧
    decode Config.ex ⟨0x0D, x1, x2, x3, x4, x5⟩ = .ok (.mlti x1 x2) ∧
    decode Config.ex ⟨0x0E, x1, x2, x3, x4, x5⟩ = .ok (.mlei x1 x2) ∧
    decode Config.ex ⟨0x0F, x1, x2, x3, x4, x5⟩ = .ok (.leai x1 x2 x3 x4) ∧
    decode Config.ex ⟨0x10, x1, x2, x3, x4, x5⟩ = .ok (.pushi x1) ∧
    decode Config.ex ⟨0x11, x1, x2, x3, x4, x5⟩ = .ok (.popi x1) ∧
    decode Config.ex ⟨0x12, x1, x2, x3, x4, x5⟩ = .ok (.pushf x1) ∧
    decode Config.ex ⟨0x13, x1, x2, x3, x4, x5⟩ = .ok (.popf x1) ∧
    decode Config.ex ⟨0x14, x1, x2, x3, x4, x5⟩ = .ok (.lodi (x3 ++ x2) x1) ∧
    decode Config.ex ⟨0x15, x1, x2, x3, x4, x5⟩ = .ok (.stoi (x3 ++ x2) x1) ∧
    decode Config.ex ⟨0x16, x1, x2, x3, x4, x5⟩ = .ok (.lodf (x3 ++ x2) x1) ∧
    decode Config.ex ⟨0x17, x1, x2, x3, x4, x5⟩ = .ok (.stof (x3 ++ x2) x1) ∧
    decode Config.ex ⟨0x18, x1, x2, x3, x4, x5⟩ = .ok (.call (x2 ++ x1)) ∧
    decode Config.ex ⟨0x19, x1, x2, x3, x4, x5⟩ = .ok .retn

/-- R87: the illegal opcode bytes are 0x00 and 0x1A..0xFF, 231 of them, and fetching one raises UnrecognizedOpcode. -/
def Obligations.IllegalOpcodeBytesAreRejected : Prop :=
  (∀ r : Record, decode Config.ex r = .error (.unrecognizedOpcode r.b0) ↔ r.b0 = 0x00 ∨ 0x1A ≤ r.b0.toNat) ∧
  ((List.range 256).filter (fun b => (Config.ex.opcodeAt? (BitVec.ofNat 8 b)).isNone)).length = 231 ∧
  ∀ s : State, s.cfg = Config.ex → s.status = .noError → s.ints.pc.toNat ≤ 0xFFFA →
    (s.mem.read s.ints.pc.toNat = 0x00 ∨ 0x1A ≤ (s.mem.read s.ints.pc.toNat).toNat) →
    ∃ t, step s = .next t ∧ t.status = .error .unrecognizedOpcode ∧ t.ints = s.ints

/-- R82, R83, R86, R91: in every admitted configuration, decoding an instruction's record gives the instruction, whatever its
operands. -/
def Obligations.DecodeUndoesEncode : Prop := ∀ c : Config, c.Valid → ∀ i : Instr, decode c (encode c i) = .ok i

/-- R81, R82, R85: in every admitted configuration, encoding a decoded record gives back every byte its schema uses. -/
def Obligations.EncodeRestoresTheUsedBytes : Prop :=
  ∀ c : Config, c.Valid → ∀ (r : Record) (i : Instr), decode c r = .ok i →
    (encode c i).bytes.take i.opcode.schema.usedBytes = r.bytes.take i.opcode.schema.usedBytes

/-- R85: decoding (so executing) is the same whatever the unused bytes hold, and the encoder writes 0x00 there. -/
def Obligations.UnusedBytesAreIgnored : Prop :=
  (∀ (c : Config) (r q : Record), r.b0 = q.b0 →
    (∀ o, c.opcodeAt? r.b0 = some o → r.bytes.take o.schema.usedBytes = q.bytes.take o.schema.usedBytes) →
    decode c r = decode c q) ∧
  ∀ (c : Config) (i : Instr) (b : Byte), b ∈ (encode c i).bytes.drop i.opcode.schema.usedBytes → b = 0x00

/-- R22: the register ids, in their two spaces; an accessor given an id out of range raises RegisterUnrecognized. -/
def Obligations.RegisterIdsNameTheRegisters : Prop :=
  [(0x00 : IntId), 0x01, 0x02, 0x03, 0x04, 0x05, 0x06, 0x07].map Config.ex.intReg? =
    [some .pc, some .sp, some .bp, some .ir0, some .ir1, some .ir2, some .ir3, some .irv] ∧
  [(0x00 : FltId), 0x01, 0x02, 0x03, 0x04].map Config.ex.fltReg? =
    [some .fr0, some .fr1, some .fr2, some .fr3, some .frv] ∧
  ∀ s : State, s.cfg = Config.ex →
    (∀ (id : IntId) (v : Word), 0x08 ≤ id.toNat → getInt s id = raise s .registerUnrecognized ∧
      setIntGeneral s id v = raise s .registerUnrecognized ∧ setIntAny s id v = raise s .registerUnrecognized) ∧
    ∀ (id : FltId) (w : Pattern), 0x05 ≤ id.toNat → getFlt s id = raise s .registerUnrecognized ∧
      setFlt s id w = raise s .registerUnrecognized

/-! ### The sequencer (40_sequencer.md, 10_state.md) -/

/-- R110, R111, R112: a step whose record decodes to `i` is `exec i` in the state with the cycle counted, the six fetched bytes in
last_instr and pc advanced by 6. -/
def Obligations.StepRunsTheDecodedInstruction : Prop :=
  ∀ (s : State) (ib : Record) (i : Instr), s.cfg.Valid → s.status = .noError → s.ints.pc.toNat ≤ 0xFFFA →
    ib = ⟨s.mem.read s.ints.pc.toNat, s.mem.read (s.ints.pc.toNat + 1), s.mem.read (s.ints.pc.toNat + 2),
      s.mem.read (s.ints.pc.toNat + 3), s.mem.read (s.ints.pc.toNat + 4), s.mem.read (s.ints.pc.toNat + 5)⟩ →
    decode s.cfg ib = .ok i →
    step s = exec i { s with cycles := s.cycles + 1, lastInstr := ib, ints := { s.ints with pc := s.ints.pc + 6 } }

/-- R113: a record that does not decode sets the status, keeps pc, and changes only cycles and last_instr besides. -/
def Obligations.UnrecognizedOpcodeStops : Prop :=
  ∀ (s : State) (ib : Record), s.cfg.Valid → s.status = .noError → s.ints.pc.toNat ≤ 0xFFFA →
    ib = ⟨s.mem.read s.ints.pc.toNat, s.mem.read (s.ints.pc.toNat + 1), s.mem.read (s.ints.pc.toNat + 2),
      s.mem.read (s.ints.pc.toNat + 3), s.mem.read (s.ints.pc.toNat + 4), s.mem.read (s.ints.pc.toNat + 5)⟩ →
    s.cfg.opcodeAt? ib.b0 = none →
    step s = .next { s with cycles := s.cycles + 1, lastInstr := ib, status := .error .unrecognizedOpcode }

/-- R243, R111: a fetch at pc > 0xFFFA is the model fault FetchOutOfRange. That the fault carries the state with the step counted and
nothing else changed is DEDUCED from R110, which counts before it tests pc (log 4). -/
def Obligations.FetchPastTheTopFaults : Prop :=
  ∀ s : State, s.cfg.Valid → s.status = .noError → 0xFFFA < s.ints.pc.toNat →
    step s = .fault (.fetchOutOfRange { s with cycles := s.cycles + 1 })

/-- R33: the engine state is a function of status, it is Running after reset, and a core that is Halted or Errored has no
step. -/
def Obligations.EngineStateFollowsStatus : Prop :=
  (∀ s : State, (s.engine = .running ↔ s.status = .noError) ∧ (s.engine = .halted ↔ s.status = .halt) ∧
    ∀ k, s.engine = .errored k ↔ s.status = .error k) ∧
  (∀ c : Config, (State.resetWith c).engine = .running) ∧
  ∀ s t : State, s.engine ≠ .running → step s ≠ .next t

/-- R8 (and the model's own reading of the tables, log 3): a configuration outside the bounds, or with an ambiguous table, is
refused. -/
def Obligations.OtherConfigurationsAreRefused : Prop :=
  ∀ s : State, ¬ s.cfg.Valid → step s = .refused .invalidConfiguration

/-- R110, R115, R119: a step has a next state exactly when the configuration is admitted, the core is Running and the fetch is in
range: no instruction ends a run in a fault or a refusal. -/
def Obligations.StepsExactlyWhenRunningAndInRange : Prop :=
  ∀ s : State, CanStep s ↔ s.cfg.Valid ∧ s.status = .noError ∧ s.ints.pc.toNat ≤ 0xFFFA

/-- R116: every step adds 1 to cycles, so `n` steps add `n`, from reset to `n`. -/
def Obligations.EveryStepCountsOneCycle : Prop :=
  (∀ s t : State, step s = .next t → t.cycles = s.cycles + 1) ∧
  (∀ (n : Nat) (s t : State), Sys2Proof.core.run n s = .next t → t.cycles = s.cycles + n) ∧
  ∀ (n : Nat) (c : Config) (t : State), Sys2Proof.core.run n (State.resetWith c) = .next t → t.cycles = n

/-- R36, R111: after any step last_instr holds the six bytes at the old pc; and no step changes the configuration (R39). -/
def Obligations.LastInstrIsTheFetchedRecord : Prop :=
  ∀ s t : State, step s = .next t →
    t.lastInstr = ⟨s.mem.read s.ints.pc.toNat, s.mem.read (s.ints.pc.toNat + 1), s.mem.read (s.ints.pc.toNat + 2),
      s.mem.read (s.ints.pc.toNat + 3), s.mem.read (s.ints.pc.toNat + 4), s.mem.read (s.ints.pc.toNat + 5)⟩ ∧
    t.cfg = s.cfg

/-- R34, R35, R36: no instruction reads or writes the cycle counter or last_instr: with other values there, it does the same and
leaves them as they are. -/
def Obligations.HiddenStateIsNeitherReadNorWritten : Prop :=
  ∀ (i : Instr) (s t : State) (n : Nat) (ib : Record), exec i s = .next t →
    exec i { s with cycles := n, lastInstr := ib } = .next { t with cycles := n, lastInstr := ib }

/-- R115, R119, R245: a run ends in one way. Two runs from one state that both end out of Running end after the same number of
steps, in the same state; a run with such an end is stopped by no fetch past the top (that this third end is a fault is the model's
own, log 4); so Halted excludes every error kind, and one error kind every other. -/
def Obligations.RunsEndOneWay : Prop :=
  ∀ s : State,
    (∀ (m n : Nat) (t u : State), Sys2Proof.core.run m s = .next t → Sys2Proof.core.run n s = .next u →
      t.engine ≠ .running → u.engine ≠ .running → m = n ∧ u = t) ∧
    (∀ (m n : Nat) (t w : State), Sys2Proof.core.run m s = .next t → t.engine ≠ .running →
      Sys2Proof.core.run n s ≠ .fault (.fetchOutOfRange w)) ∧
    (∀ e, EndsHalted s → ¬ EndsErrored s e) ∧
    ∀ e e', EndsErrored s e → EndsErrored s e' → e = e'

/-- R21, R29: the instructions that name no float register, CALL and RETN apart, neither read nor write the float file: with other
patterns there, they do the same and leave them as they are. -/
def Obligations.IntegerInstructionsIgnoreTheFloatFile : Prop :=
  ∀ (i : Instr) (s t : State) (g : FltFile),
    i.opcode ∉ [.setf, .pushf, .popf, .lodf, .stof, .call, .retn] → exec i s = .next t →
    exec i { s with flts := g } = .next { t with flts := g }

/-- R114, R240: every instruction, in every state, ends in a next state: an error is a status, never a trap or a fault. -/
def Obligations.EveryInstructionEndsInANextState : Prop := ∀ (i : Instr) (s : State), ∃ t, exec i s = .next t

/-- R117: HALT sets status Halt and nothing else; after its step the core is Halted with pc at HALT's address plus 6, whatever the
record's other bytes hold. -/
def Obligations.HaltStopsCleanly : Prop :=
  (∀ x1 x2 x3 x4 x5, decode Config.ex ⟨0x01, x1, x2, x3, x4, x5⟩ = .ok .halt) ∧
  (∀ s : State, exec .halt s = .next { s with status := .halt }) ∧
  ∀ s : State, s.cfg.Valid → s.status = .noError → s.ints.pc.toNat ≤ 0xFFFA →
    s.cfg.opcodeAt? (s.mem.read s.ints.pc.toNat) = some .halt →
    ∃ t, step s = .next t ∧ t.engine = .halted ∧ t.ints = { s.ints with pc := s.ints.pc + 6 } ∧ t.cmp = s.cmp ∧
      t.flts = s.flts ∧ t.mem = s.mem

/-! ### Reset and whole-machine rules -/

/-- R40, R270: every field after reset, from any state. -/
def Obligations.ResetLeavesTheStatedValues : Prop :=
  (∀ c : Config,
    (State.resetWith c).ints =
      { pc := 0x0000, sp := c.rwMax, bp := c.rwMax, ir0 := 0x0000, ir1 := 0x0000, ir2 := 0x0000, ir3 := 0x0000, irv := 0x0000 } ∧
    (State.resetWith c).flts =
      { fr0 := 0x00000000, fr1 := 0x00000000, fr2 := 0x00000000, fr3 := 0x00000000, frv := 0x00000000 } ∧
    (State.resetWith c).cmp = .uninitialized ∧ (State.resetWith c).status = .noError ∧
    (∀ a, (State.resetWith c).mem.read a = 0x00) ∧ (State.resetWith c).cycles = 0 ∧
    (State.resetWith c).lastInstr = ⟨0x00, 0x00, 0x00, 0x00, 0x00, 0x00⟩) ∧
  ∀ s : State, s.restart = State.resetWith s.cfg

/-- R187, R59 (log 2 for the host's own reset state): the invariant holds after reset, in every admitted configuration. -/
def Obligations.ResetMeetsTheInvariant : Prop :=
  (∀ c : Config, c.Valid → (State.resetWith c).Inv) ∧ State.reset.Inv

/-- R187, R59: every step keeps the invariant: memory canonical, `sp - RW_MAX` even, `RW_MAX - 2 <= sp <= MAX_ADDR`. -/
def Obligations.EveryStepKeepsTheInvariant : Prop := ∀ s t : State, s.Inv → step s = .next t → t.Inv

/-- R59, R187: what an instruction writes to memory lies in the read-write block below RW_MAX for stores and in
`[RW_MAX - 2, MAX_ADDR - 1]` for pushes; no other instruction writes memory; sp keeps its rule; the code block is untouched. -/
def Obligations.MemoryWritesStayInTheirRegions : Prop :=
  ∀ (i : Instr) (s t : State), s.Inv → exec i s = .next t →
    (∀ a, t.mem.read a ≠ s.mem.read a →
      ((i.opcode = .stoi ∨ i.opcode = .stof) ∧ s.cfg.rwMin.toNat ≤ a ∧ a < s.cfg.rwMax.toNat) ∨
      ((i.opcode = .pushi ∨ i.opcode = .pushf ∨ i.opcode = .call) ∧ s.cfg.rwMax.toNat ≤ a + 2 ∧ a < s.cfg.maxAddr.toNat)) ∧
    t.stackOk ∧ SameCodeBlock s t

/-- R59, R275: no run, however long, changes a byte of the code block. -/
def Obligations.NoRunWritesTheCodeBlock : Prop :=
  ∀ (n : Nat) (s t : State), s.Inv → Sys2Proof.core.run n s = .next t → SameCodeBlock s t ∧ t.Inv ∧ t.cfg = s.cfg

/-- R242, R32: an instruction leaves status alone, or halts (HALT), or raises a kind the table lists for it. -/
def Obligations.StatusChangesOnlyAsTheTableSays : Prop :=
  ∀ (i : Instr) (s t : State), exec i s = .next t →
    t.status = s.status ∨ (i = .halt ∧ t.status = .halt) ∨ ∃ k, t.status = .error k ∧ i.opcode ∈ raisedBy k

/-- R244, R13: an instruction other than ADDI, SUBI, CALL and RETN that raises changes nothing but status. -/
def Obligations.FailingInstructionsChangeOnlyStatus : Prop :=
  ∀ (i : Instr) (s t : State) (k : ErrorKind),
    i.opcode ≠ .addi → i.opcode ≠ .subi → i.opcode ≠ .call → i.opcode ≠ .retn → s.status = .noError →
    exec i s = .next t → t.status = .error k → t = { s with status := .error k }

/-- R244, R113, R117: where pc stands when a step ends the run: at the record for UnrecognizedOpcode, else at pc_next. -/
def Obligations.PcAtTheStop : Prop :=
  ∀ s t : State, step s = .next t → t.status ≠ .noError →
    t.ints.pc = if t.status = .error .unrecognizedOpcode then s.ints.pc else s.ints.pc + 6

/-- R24, R26, R27, R28: which instructions can change sp, bp, irv, pc (after the advance), the float registers and frv. -/
def Obligations.RegistersChangeOnlyByTheirInstructions : Prop :=
  ∀ (i : Instr) (s t : State), exec i s = .next t →
    (t.ints.sp ≠ s.ints.sp → i.opcode ∈ [.pushi, .popi, .pushf, .popf, .call, .retn]) ∧
    (t.ints.bp ≠ s.ints.bp → i.opcode ∈ moveOpcodes ++ [.leai, .popi, .retn]) ∧
    (t.ints.irv ≠ s.ints.irv → i.opcode ∈ moveOpcodes ++ [.leai, .popi]) ∧
    (t.ints.pc ≠ s.ints.pc → i.opcode ∈ moveOpcodes ++ [.leai, .popi, .call, .retn]) ∧
    (t.flts ≠ s.flts → i.opcode ∈ [.setf, .popf, .lodf, .retn]) ∧
    (t.flts.frv ≠ s.flts.frv → i.opcode ∈ [.setf, .popf, .lodf])

/-- R30: cmp changes only by CMPI and the conditional moves, and a conditional move only resets it. -/
def Obligations.CmpChangesOnlyByCompareAndMoves : Prop :=
  ∀ (i : Instr) (s t : State), exec i s = .next t →
    (t.cmp ≠ s.cmp → i.opcode = .cmpi ∨ (i.opcode ∈ moveOpcodes ∧ t.cmp = .uninitialized))

/-- R88, R242 (WellFormed is the model's own notion, log 9): an instruction whose register operands all name registers never raises
RegisterUnrecognized. -/
def Obligations.WellFormedNeverRaisesRegisterUnrecognized : Prop :=
  ∀ (i : Instr) (s t : State), i.wellFormed s.cfg = true → s.status = .noError → exec i s = .next t →
    t.status ≠ .error .registerUnrecognized

/-- R20, R24: registers are separate: a register written reads back as written, and every other register as before. -/
def Obligations.RegistersAreSeparate : Prop :=
  (∀ (f : IntFile) (r q : IntReg) (v : Word), (f.set r v).get q = if q = r then v else f.get q) ∧
  ∀ (f : FltFile) (r q : FltReg) (w : Pattern), (f.set r w).get q = if q = r then w else f.get q

/-! ### Register set, arithmetic, compare (41_arithmetic.md) -/

/-- R130: SETI writes ir0..ir3, refuses the other registers, and does not know ids out of range. -/
def Obligations.SetiWritesAGeneralRegister : Prop :=
  ∀ (s : State) (id : IntId) (v : Word),
    (∀ lo hi x4 x5, v = hi ++ lo → decode Config.ex ⟨0x02, id, lo, hi, x4, x5⟩ = .ok (.seti id v)) ∧
    (∀ r, s.cfg.intReg? id = some r → IsGeneral r → exec (.seti id v) s = .next { s with ints := s.ints.set r v }) ∧
    (∀ r, s.cfg.intReg? id = some r → ¬ IsGeneral r →
      exec (.seti id v) s = .next { s with status := .error .registerNotAllowed }) ∧
    (s.cfg.intReg? id = none → exec (.seti id v) s = .next { s with status := .error .registerUnrecognized })

/-- R131: SETF writes any float register, bit for bit. -/
def Obligations.SetfWritesAFloatRegister : Prop :=
  ∀ (s : State) (id : FltId) (w : Pattern),
    (∀ b0 b1 b2 b3, w = b3 ++ b2 ++ b1 ++ b0 → decode Config.ex ⟨0x03, id, b0, b1, b2, b3⟩ = .ok (.setf id w)) ∧
    (∀ r, s.cfg.fltReg? id = some r → exec (.setf id w) s = .next { s with flts := s.flts.set r w }) ∧
    (s.cfg.fltReg? id = none → exec (.setf id w) s = .next { s with status := .error .registerUnrecognized })

/-- R134: ADDI stores the sum mod 2^16 into b, and then raises ArithmeticOverflow iff va + vb >= 2^16. -/
def Obligations.AddiStoresTheSumAndFlagsOverflow : Prop :=
  ∀ (s : State) (a b : IntId),
    (∀ x3 x4 x5, decode Config.ex ⟨0x04, a, b, x3, x4, x5⟩ = .ok (.addi a b)) ∧
    (∀ ra rb, s.cfg.intReg? a = some ra → s.cfg.intReg? b = some rb → IsGeneral rb →
      exec (.addi a b) s = .next
        { s with
          ints := s.ints.set rb (BitVec.ofNat 16 ((s.ints.get ra).toNat + (s.ints.get rb).toNat))
          status := if 2 ^ 16 ≤ (s.ints.get ra).toNat + (s.ints.get rb).toNat then .error .arithmeticOverflow else s.status }) ∧
    (∀ ra rb, s.cfg.intReg? a = some ra → s.cfg.intReg? b = some rb → ¬ IsGeneral rb →
      exec (.addi a b) s = .next { s with status := .error .registerNotAllowed }) ∧
    (s.cfg.intReg? a = none ∨ s.cfg.intReg? b = none →
      exec (.addi a b) s = .next { s with status := .error .registerUnrecognized })

/-- R136: SUBI stores vb - va mod 2^16 into b, and then raises ArithmeticUnderflow iff va > vb. -/
def Obligations.SubiStoresTheDifferenceAndFlagsUnderflow : Prop :=
  ∀ (s : State) (a b : IntId),
    (∀ x3 x4 x5, decode Config.ex ⟨0x05, a, b, x3, x4, x5⟩ = .ok (.subi a b)) ∧
    (∀ ra rb, s.cfg.intReg? a = some ra → s.cfg.intReg? b = some rb → IsGeneral rb →
      exec (.subi a b) s = .next
        { s with
          ints := s.ints.set rb (s.ints.get rb - s.ints.get ra)
          status := if (s.ints.get rb).toNat < (s.ints.get ra).toNat then .error .arithmeticUnderflow else s.status }) ∧
    (∀ ra rb, s.cfg.intReg? a = some ra → s.cfg.intReg? b = some rb → ¬ IsGeneral rb →
      exec (.subi a b) s = .next { s with status := .error .registerNotAllowed }) ∧
    (s.cfg.intReg? a = none ∨ s.cfg.intReg? b = none →
      exec (.subi a b) s = .next { s with status := .error .registerUnrecognized })

/-- R138: INCI adds 1 mod 2^16 and never flags. -/
def Obligations.InciAddsOneSilently : Prop :=
  ∀ (s : State) (id : IntId),
    (∀ x2 x3 x4 x5, decode Config.ex ⟨0x06, id, x2, x3, x4, x5⟩ = .ok (.inci id)) ∧
    (∀ r, s.cfg.intReg? id = some r → IsGeneral r →
      exec (.inci id) s = .next { s with ints := s.ints.set r (BitVec.ofNat 16 (((s.ints.get r).toNat + 1) % 2 ^ 16)) }) ∧
    (∀ r, s.cfg.intReg? id = some r → ¬ IsGeneral r →
      exec (.inci id) s = .next { s with status := .error .registerNotAllowed }) ∧
    (s.cfg.intReg? id = none → exec (.inci id) s = .next { s with status := .error .registerUnrecognized })

/-- R140: DECI subtracts 1, refuses to pass zero, and refuses a register that is not allowed whatever its value. -/
def Obligations.DeciSubtractsOneAndRefusesZero : Prop :=
  ∀ (s : State) (id : IntId),
    (∀ x2 x3 x4 x5, decode Config.ex ⟨0x07, id, x2, x3, x4, x5⟩ = .ok (.deci id)) ∧
    (∀ r, s.cfg.intReg? id = some r → IsGeneral r → s.ints.get r ≠ 0 →
      exec (.deci id) s = .next { s with ints := s.ints.set r (BitVec.ofNat 16 ((s.ints.get r).toNat - 1)) }) ∧
    (∀ r, s.cfg.intReg? id = some r → IsGeneral r → s.ints.get r = 0 →
      exec (.deci id) s = .next { s with status := .error .decrementZero }) ∧
    (∀ r, s.cfg.intReg? id = some r → ¬ IsGeneral r →
      exec (.deci id) s = .next { s with status := .error .registerNotAllowed }) ∧
    (s.cfg.intReg? id = none → exec (.deci id) s = .next { s with status := .error .registerUnrecognized })

/-- R142: CMPI sets cmp by the unsigned comparison of a with b, whatever cmp held, and changes nothing else. -/
def Obligations.CmpiComparesUnsigned : Prop :=
  ∀ (s : State) (a b : IntId),
    (∀ x3 x4 x5, decode Config.ex ⟨0x08, a, b, x3, x4, x5⟩ = .ok (.cmpi a b)) ∧
    (∀ ra rb, s.cfg.intReg? a = some ra → s.cfg.intReg? b = some rb →
      exec (.cmpi a b) s = .next
        { s with cmp := if s.ints.get ra = s.ints.get rb then .equal
          else if (s.ints.get rb).toNat < (s.ints.get ra).toNat then .greater else .less }) ∧
    (s.cfg.intReg? a = none ∨ s.cfg.intReg? b = none →
      exec (.cmpi a b) s = .next { s with status := .error .registerUnrecognized })

/-! ### Conditional moves (42_conditional_move.md) -/

/-- R150 to R157: the six conditional moves. -/
def Obligations.ConditionalMovesFollowTheirPredicate : Prop :=
  ∀ (p : Condition) (s : State) (src dst : IntId),
    (∀ x3 x4 x5, decode Config.ex
      ⟨match p with
        | .equal => 0x09 | .notEqual => 0x0A | .greater => 0x0B | .greaterOrEqual => 0x0C | .less => 0x0D
        | .lessOrEqual => 0x0E, src, dst, x3, x4, x5⟩ = .ok (moveOf p src dst)) ∧
    (s.cmp = .uninitialized → exec (moveOf p src dst) s = .next { s with status := .error .comparisonNotInitialized }) ∧
    (s.cmp ≠ .uninitialized → ¬ PredicateHolds p s.cmp → exec (moveOf p src dst) s = .next { s with cmp := .uninitialized }) ∧
    (PredicateHolds p s.cmp →
      (∀ rs rd, s.cfg.intReg? src = some rs → s.cfg.intReg? dst = some rd → rd ≠ .sp →
        exec (moveOf p src dst) s = .next { s with ints := s.ints.set rd (s.ints.get rs), cmp := .uninitialized }) ∧
      (∀ rs, s.cfg.intReg? src = some rs → s.cfg.intReg? dst = some .sp →
        exec (moveOf p src dst) s = .next { s with status := .error .registerNotAllowed }) ∧
      (s.cfg.intReg? src = none ∨ s.cfg.intReg? dst = none →
        exec (moveOf p src dst) s = .next { s with status := .error .registerUnrecognized }))

/-- R158: a conditional move into pc branches: when P holds the next fetch is at the value of src, else at pc_next. -/
def Obligations.ConditionalMoveIntoPcBranches : Prop :=
  ∀ (p : Condition) (s : State) (src dst : IntId) (rs : IntReg), s.cfg.Valid → s.status = .noError →
    s.ints.pc.toNat ≤ 0xFFFA → decode s.cfg s.fetched = .ok (moveOf p src dst) → s.cmp ≠ .uninitialized →
    s.cfg.intReg? src = some rs → s.cfg.intReg? dst = some .pc →
    ∃ t, step s = .next t ∧ t.status = .noError ∧ t.cmp = .uninitialized ∧
      t.ints = { s.ints with
        pc := if PredicateHolds p s.cmp ∧ rs ≠ .pc then s.ints.get rs else s.ints.pc + 6 }

/-- R159: a conditional move that completes leaves cmp Uninitialized, and a second one, in any state `u` with that cmp, raises
ComparisonNotInitialized. -/
def Obligations.ComparisonIsConsumedOnce : Prop :=
  ∀ (p q : Condition) (s t u : State) (src dst src' dst' : IntId), s.status = .noError →
    exec (moveOf p src dst) s = .next t → t.status = .noError →
    t.cmp = .uninitialized ∧
    (u.cmp = t.cmp → exec (moveOf q src' dst') u = .next { u with status := .error .comparisonNotInitialized })

/-! ### Load effective address (43_address.md) -/

/-- R170, R171: LEAI, its multiplier `m` the literal byte or the value of the register it names. -/
def Obligations.LeaiComputesTheAddress : Prop :=
  ∀ (s : State) (base off : IntId) (mult : Byte) (dest : IntId),
    (∀ x5, decode Config.ex ⟨0x0F, base, off, mult, dest, x5⟩ = .ok (.leai base off mult dest)) ∧
    (∀ rb ro m, s.cfg.intReg? base = some rb → s.cfg.intReg? off = some ro →
      (s.cfg.leaMultMode = .literal ∧ m = mult.toNat ∨
        s.cfg.leaMultMode = .register ∧ ∃ rm, s.cfg.intReg? mult = some rm ∧ m = (s.ints.get rm).toNat) →
      (2 < m → exec (.leai base off mult dest) s = .next { s with status := .error .invalidAddressMultiplier }) ∧
      (m ≤ 2 →
        (∀ rd, s.cfg.intReg? dest = some rd → rd ≠ .sp →
          exec (.leai base off mult dest) s = .next
            { s with ints := s.ints.set rd (BitVec.ofNat 16 ((s.ints.get rb).toNat + (s.ints.get ro).toNat * 2 ^ m)) }) ∧
        (s.cfg.intReg? dest = some .sp →
          exec (.leai base off mult dest) s = .next { s with status := .error .registerNotAllowed }) ∧
        (s.cfg.intReg? dest = none →
          exec (.leai base off mult dest) s = .next { s with status := .error .registerUnrecognized }))) ∧
    (s.cfg.intReg? base = none ∨ s.cfg.intReg? off = none ∨
        (s.cfg.leaMultMode = .register ∧ s.cfg.intReg? mult = none) →
      exec (.leai base off mult dest) s = .next { s with status := .error .registerUnrecognized })

/-! ### Stack (44_stack.md) -/

/-- R180: PUSHI stores the register at sp and raises sp by 2; every other byte and register is as before. -/
def Obligations.PushiStoresAtSp : Prop :=
  ∀ (s : State) (id : IntId),
    (∀ x2 x3 x4 x5, decode Config.ex ⟨0x10, id, x2, x3, x4, x5⟩ = .ok (.pushi id)) ∧
    (s.mem.wf → PushFits s 2 → ∀ r, s.cfg.intReg? id = some r →
      ∃ t, exec (.pushi id) s = .next t ∧
        { t with mem := s.mem } = { s with ints := { s.ints with sp := s.ints.sp + 2 } } ∧ t.mem.wf ∧
        StoredWord s t s.ints.sp.toNat (s.ints.get r)) ∧
    (¬ PushFits s 2 → exec (.pushi id) s = .next { s with status := .error .stackOverflow }) ∧
    (PushFits s 2 → s.cfg.intReg? id = none →
      exec (.pushi id) s = .next { s with status := .error .registerUnrecognized })

/-- R182: PUSHF stores the pattern at sp and raises sp by 4; every other byte and register is as before. -/
def Obligations.PushfStoresAtSp : Prop :=
  ∀ (s : State) (id : FltId),
    (∀ x2 x3 x4 x5, decode Config.ex ⟨0x12, id, x2, x3, x4, x5⟩ = .ok (.pushf id)) ∧
    (s.mem.wf → PushFits s 4 → ∀ r, s.cfg.fltReg? id = some r →
      ∃ t, exec (.pushf id) s = .next t ∧
        { t with mem := s.mem } = { s with ints := { s.ints with sp := s.ints.sp + 4 } } ∧ t.mem.wf ∧
        StoredPattern s t s.ints.sp.toNat (s.flts.get r)) ∧
    (¬ PushFits s 4 → exec (.pushf id) s = .next { s with status := .error .stackOverflow }) ∧
    (PushFits s 4 → s.cfg.fltReg? id = none →
      exec (.pushf id) s = .next { s with status := .error .registerUnrecognized })

/-- R181, in a configuration R8 admits: POPI lowers sp by 2 and writes the two bytes there to the register; memory is unchanged. -/
def Obligations.PopiLoadsFromTheStack : Prop :=
  ∀ (s : State) (id : IntId), s.cfg.boundsOk →
    (∀ x2 x3 x4 x5, decode Config.ex ⟨0x11, id, x2, x3, x4, x5⟩ = .ok (.popi id)) ∧
    (∀ r, s.cfg.rwMax.toNat < s.ints.sp.toNat → s.cfg.intReg? id = some r → r ≠ .sp →
      exec (.popi id) s = .next
        { s with ints := ({ s.ints with sp := s.ints.sp - 2 }).set r (wordAt s.cfg.endian s.mem (s.ints.sp.toNat - 2)) }) ∧
    (s.ints.sp.toNat ≤ s.cfg.rwMax.toNat → exec (.popi id) s = .next { s with status := .error .stackUnderflow }) ∧
    (s.cfg.rwMax.toNat < s.ints.sp.toNat → s.cfg.intReg? id = some .sp →
      exec (.popi id) s = .next { s with status := .error .registerNotAllowed }) ∧
    (s.cfg.rwMax.toNat < s.ints.sp.toNat → s.cfg.intReg? id = none →
      exec (.popi id) s = .next { s with status := .error .registerUnrecognized })

/-- R183, in a configuration R8 admits: POPF lowers sp by 4 and writes the four bytes there to the register; the test does not
look at the size. -/
def Obligations.PopfLoadsFromTheStack : Prop :=
  ∀ (s : State) (id : FltId), s.cfg.boundsOk →
    (∀ x2 x3 x4 x5, decode Config.ex ⟨0x13, id, x2, x3, x4, x5⟩ = .ok (.popf id)) ∧
    (∀ r, s.cfg.rwMax.toNat < s.ints.sp.toNat → s.cfg.fltReg? id = some r →
      exec (.popf id) s = .next
        { s with
          ints := { s.ints with sp := s.ints.sp - 4 }
          flts := s.flts.set r (patternAt s.cfg.endian s.mem (s.ints.sp.toNat - 4)) }) ∧
    (s.ints.sp.toNat ≤ s.cfg.rwMax.toNat → exec (.popf id) s = .next { s with status := .error .stackUnderflow }) ∧
    (s.cfg.rwMax.toNat < s.ints.sp.toNat → s.cfg.fltReg? id = none →
      exec (.popf id) s = .next { s with status := .error .registerUnrecognized })

/-- R186: a POPI of the register just pushed, at the same depth and over the same two bytes, restores it and sp. The premise
`RW_MAX < sp + 2` is the model's own: one pop short of RW_MAX, the POPI would underflow (log 7). -/
def Obligations.PushThenPopRestoresAnIntegerRegister : Prop :=
  ∀ (s t u : State) (id : IntId) (r : IntReg), s.mem.wf → s.cfg.intReg? id = some r → r ≠ .sp →
    PushFits s 2 → s.cfg.rwMax.toNat < s.ints.sp.toNat + 2 → exec (.pushi id) s = .next t →
    u.cfg = t.cfg → u.ints.sp = t.ints.sp → u.mem.read s.ints.sp.toNat = t.mem.read s.ints.sp.toNat →
    u.mem.read (s.ints.sp.toNat + 1) = t.mem.read (s.ints.sp.toNat + 1) →
    exec (.popi id) u = .next { u with ints := ({ u.ints with sp := s.ints.sp }).set r (s.ints.get r) }

/-- R186: the same for PUSHF and POPF. The premise `RW_MAX < sp + 4` follows from the invariant `stackOk` (R187). -/
def Obligations.PushThenPopRestoresAFloatRegister : Prop :=
  ∀ (s t u : State) (id : FltId) (r : FltReg), s.mem.wf → s.cfg.fltReg? id = some r →
    PushFits s 4 → s.cfg.rwMax.toNat < s.ints.sp.toNat + 4 → exec (.pushf id) s = .next t →
    u.cfg = t.cfg → u.ints.sp = t.ints.sp →
    (∀ k, k < 4 → u.mem.read (s.ints.sp.toNat + k) = t.mem.read (s.ints.sp.toNat + k)) →
    exec (.popf id) u = .next
      { u with ints := { u.ints with sp := s.ints.sp }, flts := u.flts.set r (s.flts.get r) }

/-! ### Loads and stores (45_load_store.md, 20_memory.md) -/

/-- R201: LODI inside the window writes ir0..ir3 with the two bytes at addr. -/
def Obligations.LodiLoadsInsideTheWindow : Prop :=
  ∀ (s : State) (addr : Word) (id : IntId),
    (∀ lo hi x4 x5, addr = hi ++ lo → decode Config.ex ⟨0x14, id, lo, hi, x4, x5⟩ = .ok (.lodi addr id)) ∧
    (∀ r, InWindow s.cfg addr 2 → s.cfg.intReg? id = some r → IsGeneral r →
      exec (.lodi addr id) s = .next { s with ints := s.ints.set r (wordAt s.cfg.endian s.mem addr.toNat) }) ∧
    (¬ InWindow s.cfg addr 2 → exec (.lodi addr id) s = .next { s with status := .error .memoryAccessOutOfBounds }) ∧
    (∀ r, InWindow s.cfg addr 2 → s.cfg.intReg? id = some r → ¬ IsGeneral r →
      exec (.lodi addr id) s = .next { s with status := .error .registerNotAllowed }) ∧
    (InWindow s.cfg addr 2 → s.cfg.intReg? id = none →
      exec (.lodi addr id) s = .next { s with status := .error .registerUnrecognized })

/-- R202: STOI inside the window stores any integer register at addr; every other byte and all else is as before. -/
def Obligations.StoiStoresInsideTheWindow : Prop :=
  ∀ (s : State) (addr : Word) (id : IntId),
    (∀ lo hi x4 x5, addr = hi ++ lo → decode Config.ex ⟨0x15, id, lo, hi, x4, x5⟩ = .ok (.stoi addr id)) ∧
    (s.mem.wf → InWindow s.cfg addr 2 → ∀ r, s.cfg.intReg? id = some r →
      ∃ t, exec (.stoi addr id) s = .next t ∧ { t with mem := s.mem } = s ∧ t.mem.wf ∧
        StoredWord s t addr.toNat (s.ints.get r)) ∧
    (¬ InWindow s.cfg addr 2 → exec (.stoi addr id) s = .next { s with status := .error .memoryAccessOutOfBounds }) ∧
    (InWindow s.cfg addr 2 → s.cfg.intReg? id = none →
      exec (.stoi addr id) s = .next { s with status := .error .registerUnrecognized })

/-- R203: LODF inside the window writes any float register with the four bytes at addr. -/
def Obligations.LodfLoadsInsideTheWindow : Prop :=
  ∀ (s : State) (addr : Word) (id : FltId),
    (∀ lo hi x4 x5, addr = hi ++ lo → decode Config.ex ⟨0x16, id, lo, hi, x4, x5⟩ = .ok (.lodf addr id)) ∧
    (∀ r, InWindow s.cfg addr 4 → s.cfg.fltReg? id = some r →
      exec (.lodf addr id) s = .next { s with flts := s.flts.set r (patternAt s.cfg.endian s.mem addr.toNat) }) ∧
    (¬ InWindow s.cfg addr 4 → exec (.lodf addr id) s = .next { s with status := .error .memoryAccessOutOfBounds }) ∧
    (InWindow s.cfg addr 4 → s.cfg.fltReg? id = none →
      exec (.lodf addr id) s = .next { s with status := .error .registerUnrecognized })

/-- R204: STOF inside the window stores any float register at addr; every other byte and all else is as before. -/
def Obligations.StofStoresInsideTheWindow : Prop :=
  ∀ (s : State) (addr : Word) (id : FltId),
    (∀ lo hi x4 x5, addr = hi ++ lo → decode Config.ex ⟨0x17, id, lo, hi, x4, x5⟩ = .ok (.stof addr id)) ∧
    (s.mem.wf → InWindow s.cfg addr 4 → ∀ r, s.cfg.fltReg? id = some r →
      ∃ t, exec (.stof addr id) s = .next t ∧ { t with mem := s.mem } = s ∧ t.mem.wf ∧
        StoredPattern s t addr.toNat (s.flts.get r)) ∧
    (¬ InWindow s.cfg addr 4 → exec (.stof addr id) s = .next { s with status := .error .memoryAccessOutOfBounds }) ∧
    (InWindow s.cfg addr 4 → s.cfg.fltReg? id = none →
      exec (.stof addr id) s = .next { s with status := .error .registerUnrecognized })

/-- R52: the byte order: where the bytes of a stored value lie, low byte first when little-endian and reversed when big-endian, and
that a read assembles the same order. -/
def Obligations.ByteOrderOfMultiByteValues : Prop :=
  (∀ (m : Memory) (a v : Word), m.wf → a.toNat + 1 < 65536 →
    (m.writeWord .little a v).read a.toNat = v.extractLsb' 0 8 ∧
    (m.writeWord .little a v).read (a.toNat + 1) = v.extractLsb' 8 8 ∧
    (m.writeWord .big a v).read a.toNat = v.extractLsb' 8 8 ∧
    (m.writeWord .big a v).read (a.toNat + 1) = v.extractLsb' 0 8 ∧
    ∀ e, (m.writeWord e a v).readWord e a = v) ∧
  (∀ (m : Memory) (a : Word) (w : Pattern), m.wf → a.toNat + 3 < 65536 →
    (∀ k, k < 4 → (m.writePattern .little a w).read (a.toNat + k) = w.extractLsb' (8 * k) 8 ∧
      (m.writePattern .big a w).read (a.toNat + k) = w.extractLsb' (8 * (3 - k)) 8) ∧
    ∀ e, (m.writePattern e a w).readPattern e a = w) ∧
  ∀ b0 b1 : Byte, assembleWord .little b0 b1 = b1 ++ b0 ∧ assembleWord .big b0 b1 = b0 ++ b1

/-! ### Call and return (46_call_return.md) -/

/-- R220, R184 (D30): CALL with room for its frame saves the ten registers in 28 bytes above sp and jumps to a target below
RW_MIN; for another target it keeps pc and raises ExecuteOutOfCodeBlock with the frame in place; without room it stops at the first
push that does not fit, with the `k` pushes before it done. -/
def Obligations.CallSavesTheFrameAndJumps : Prop :=
  ∀ (s : State) (addr : Word), s.mem.wf →
    (∀ lo hi x3 x4 x5, addr = hi ++ lo → decode Config.ex ⟨0x18, lo, hi, x3, x4, x5⟩ = .ok (.call addr)) ∧
    (PushFits s 28 →
      ∃ t, exec (.call addr) s = .next t ∧
        { t with mem := s.mem } =
          (if addr.toNat < s.cfg.rwMin.toNat then { s with ints := { s.ints with sp := s.ints.sp + 28, pc := addr } }
          else { s with ints := { s.ints with sp := s.ints.sp + 28 }, status := .error .executeOutOfCodeBlock }) ∧
        t.mem.wf ∧
        (∀ x ∈ frameLayout, SlotHolds s s.cfg.endian t.mem (s.ints.sp.toNat + x.1) x.2) ∧
        ∀ a, a < s.ints.sp.toNat ∨ s.ints.sp.toNat + 28 ≤ a → t.mem.read a = s.mem.read a) ∧
    (¬ PushFits s 28 →
      ∃ k t, k < 10 ∧ (k = 0 ∨ s.ints.sp.toNat + frameOffset k ≤ s.cfg.maxAddr.toNat) ∧
        s.cfg.maxAddr.toNat < s.ints.sp.toNat + frameOffset (k + 1) ∧ exec (.call addr) s = .next t ∧
        { t with mem := s.mem } =
          { s with ints := { s.ints with sp := s.ints.sp + BitVec.ofNat 16 (frameOffset k) }, status := .error .stackOverflow } ∧
        t.mem.wf ∧
        (∀ x ∈ frameLayout.take k, SlotHolds s s.cfg.endian t.mem (s.ints.sp.toNat + x.1) x.2) ∧
        ∀ a, a < s.ints.sp.toNat ∨ s.ints.sp.toNat + frameOffset k ≤ a → t.mem.read a = s.mem.read a)

/-- R221, R185 (D30): RETN whose last pop still finds sp above RW_MAX restores the ten registers from the 28 bytes below sp and
lowers sp by 28; otherwise it stops at the first pop at or below RW_MAX, with the `k` pops before it done and pc not restored.
Memory, irv, frv and cmp are unchanged. -/
def Obligations.RetnRestoresTheFrame : Prop :=
  ∀ s : State, s.cfg.boundsOk →
    (∀ x1 x2 x3 x4 x5, decode Config.ex ⟨0x19, x1, x2, x3, x4, x5⟩ = .ok .retn) ∧
    (s.cfg.rwMax.toNat + 26 < s.ints.sp.toNat →
      ∃ t, exec .retn s = .next t ∧
        (∀ x ∈ frameLayout, SlotHolds t s.cfg.endian s.mem (s.ints.sp.toNat + x.1 - 28) x.2) ∧
        t.ints.sp = s.ints.sp - 28 ∧ t.ints.irv = s.ints.irv ∧ t.flts.frv = s.flts.frv ∧
        { t with ints := s.ints, flts := s.flts } = s) ∧
    (s.ints.sp.toNat ≤ s.cfg.rwMax.toNat + 26 →
      ∃ k t, k < 10 ∧ (k = 0 ∨ s.cfg.rwMax.toNat + 28 < s.ints.sp.toNat + frameOffset (11 - k)) ∧
        s.ints.sp.toNat + frameOffset (10 - k) ≤ s.cfg.rwMax.toNat + 28 ∧ exec .retn s = .next t ∧
        (∀ x ∈ frameLayout.drop (10 - k), SlotHolds t s.cfg.endian s.mem (s.ints.sp.toNat + x.1 - 28) x.2) ∧
        (∀ x ∈ frameLayout.take (10 - k), SlotSame s t x.2) ∧
        t.ints.sp = s.ints.sp + BitVec.ofNat 16 (frameOffset (10 - k)) - 28 ∧ t.ints.irv = s.ints.irv ∧
        t.flts.frv = s.flts.frv ∧
        { t with ints := s.ints, flts := s.flts } = { s with status := .error .stackUnderflow })

/-- R222: a CALL that completes and a RETN at the same depth over the same frame restore pc, sp, bp, ir0..ir3 and fr0..fr3; irv,
frv, cmp and memory stay as the callee left them. The premise on sp is the model's own: one pop short of RW_MAX, RETN would
underflow (log 7). -/
def Obligations.CallThenReturnRestores : Prop :=
  ∀ (s t u : State) (addr : Word), s.cfg.Valid → s.mem.wf → s.cfg.rwMax.toNat < s.ints.sp.toNat + 2 → PushFits s 28 →
    addr.toNat < s.cfg.rwMin.toNat → exec (.call addr) s = .next t →
    u.cfg = t.cfg → u.ints.sp = t.ints.sp →
    (∀ k, k < 28 → u.mem.read (s.ints.sp.toNat + k) = t.mem.read (s.ints.sp.toNat + k)) →
    exec .retn u = .next
      { u with
        ints := { s.ints with irv := u.ints.irv }
        flts := { s.flts with frv := u.flts.frv } }

/-! ### The host's side (20_memory.md R70, 60_exceptions.md) -/

/-- R70: the load copies the `6 * count` record bytes, not the header, to base, base + 1, ... mod 2^16, in order (so where a load
goes around memory, the last byte for an address stays), and changes nothing else. A file shorter than its header says: log 8. -/
def Obligations.ProgramLoadCopiesTheRecords : Prop :=
  ∀ (s : State) (base : Word) (h0 h1 : Byte) (rest : List Byte) (n : Nat), s.mem.wf →
    n = 6 * (assembleWord s.cfg.endian h0 h1).toNat → n ≤ rest.length →
    ∃ t, s.loadProgram base (h0 :: h1 :: rest) = t ∧ { t with mem := s.mem } = s ∧ t.mem.wf ∧
      (∀ k, k < n → n ≤ k + 65536 → t.mem.read ((base.toNat + k) % 65536) = rest.getD k 0) ∧
      ∀ a, (∀ k, k < n → a ≠ (base.toNat + k) % 65536) → t.mem.read a = s.mem.read a

/-- R241: the status byte of each of the 14 values. -/
def Obligations.StatusCodesAreTheTable : Prop :=
  [Status.noError, .halt, .error .registerUnrecognized, .error .registerNotAllowed, .error .unrecognizedOpcode,
    .error .comparisonNotInitialized, .error .stackOverflow, .error .stackUnderflow, .error .memoryAccessOutOfBounds,
    .error .invalidAddressMultiplier, .error .executeOutOfCodeBlock, .error .decrementZero, .error .arithmeticOverflow,
    .error .arithmeticUnderflow].map statusCode =
  [0x00, 0x01, 0x02, 0x03, 0x04, 0x05, 0x06, 0x07, 0x08, 0x09, 0x0A, 0x0B, 0x0C, 0x0D]

/-- R256, C8: the stack contents the host sees are the bytes `[RW_MAX, sp)`, none when sp is below RW_MAX. -/
def Obligations.StackContentsAreTheBytesFromRwMax : Prop :=
  ∀ s : State, s.stackBytes.length = s.ints.sp.toNat - s.cfg.rwMax.toNat ∧
    ∀ k, k < s.ints.sp.toNat - s.cfg.rwMax.toNat → s.stackBytes[k]? = some (s.mem.read (s.cfg.rwMax.toNat + k))
end

