-- ==== Sys2Proof/Laws/Bytes.lean ====
section
/-! SUPPORT. Laws of the byte order (20_memory.md R52): taking a value apart and putting it together again. -/

namespace Sys2Proof

@[simp] theorem wordBytes_length (e : Endian) (v : Word) : (wordBytes e v).length = 2 := by simp [wordBytes]

@[simp] theorem patternBytes_length (e : Endian) (w : Pattern) : (patternBytes e w).length = 4 := by simp [patternBytes]

theorem word_append_extract (v : Word) : v.extractLsb' 8 8 ++ v.extractLsb' 0 8 = v := by
  ext i hi
  simp only [BitVec.getElem_append, BitVec.getElem_extractLsb']
  split
  · simp [BitVec.getLsbD_eq_getElem hi]
  · rw [show 8 + (i - 8) = i by omega, BitVec.getLsbD_eq_getElem hi]

theorem pattern_append_extract (w : Pattern) :
    w.extractLsb' 24 8 ++ w.extractLsb' 16 8 ++ w.extractLsb' 8 8 ++ w.extractLsb' 0 8 = w := by
  ext i hi
  simp only [BitVec.getElem_append, BitVec.getElem_extractLsb']
  split
  · rw [show 0 + i = i by omega, BitVec.getLsbD_eq_getElem hi]
  · split
    · rw [show 8 + (i - 8) = i by omega, BitVec.getLsbD_eq_getElem hi]
    · split
      · rw [show 16 + (i - 8 - 8) = i by omega, BitVec.getLsbD_eq_getElem hi]
      · rw [show 24 + (i - 8 - 8 - 8) = i by omega, BitVec.getLsbD_eq_getElem hi]

/-- No bit of a word is lost by its two bytes. -/
@[simp] theorem assembleWord_wordByte (e : Endian) (v : Word) :
    assembleWord e (wordByte e v 0) (wordByte e v 1) = v := by
  cases e <;> exact word_append_extract v

/-- No bit of a pattern is lost by its four bytes. -/
@[simp] theorem assemblePattern_patternByte (e : Endian) (w : Pattern) :
    assemblePattern e (patternByte e w 0) (patternByte e w 1) (patternByte e w 2) (patternByte e w 3) = w := by
  cases e <;> exact pattern_append_extract w

theorem extract_low_append (x y : Byte) : (x ++ y : BitVec (8 + 8)).extractLsb' 0 8 = y := by
  ext i hi
  simp only [BitVec.getElem_extractLsb', BitVec.getLsbD_append]
  simp [hi, BitVec.getLsbD_eq_getElem]

theorem extract_high_append (x y : Byte) : (x ++ y : BitVec (8 + 8)).extractLsb' 8 8 = x := by
  ext i hi
  simp only [BitVec.getElem_extractLsb', BitVec.getLsbD_append]
  simp [BitVec.getLsbD_eq_getElem, hi]

/-- The first byte of an assembled word is the byte at the lowest address. -/
@[simp] theorem wordByte_zero_assembleWord (e : Endian) (b0 b1 : Byte) : wordByte e (assembleWord e b0 b1) 0 = b0 := by
  cases e
  · exact extract_low_append b1 b0
  · exact extract_high_append b0 b1

/-- The second byte of an assembled word is the byte above it. -/
@[simp] theorem wordByte_one_assembleWord (e : Endian) (b0 b1 : Byte) : wordByte e (assembleWord e b0 b1) 1 = b1 := by
  cases e
  · exact extract_high_append b1 b0
  · exact extract_low_append b0 b1

theorem extract_four_append (x3 x2 x1 x0 : Byte) (p : Pattern) (hp : p = x3 ++ x2 ++ x1 ++ x0) :
    p.extractLsb' 0 8 = x0 ∧ p.extractLsb' 8 8 = x1 ∧ p.extractLsb' 16 8 = x2 ∧ p.extractLsb' 24 8 = x3 := by
  subst hp
  refine ⟨?_, ?_, ?_, ?_⟩ <;>
    (ext i hi
     simp only [BitVec.getElem_extractLsb', BitVec.getLsbD_append]
     split_ifs <;> first
      | omega
      | (rw [← BitVec.getLsbD_eq_getElem hi]; congr 1; omega))

/-- Byte `k` of an assembled pattern is the byte at offset `k`. -/
theorem patternByte_assemblePattern (e : Endian) (b0 b1 b2 b3 : Byte) :
    patternByte e (assemblePattern e b0 b1 b2 b3) 0 = b0 ∧ patternByte e (assemblePattern e b0 b1 b2 b3) 1 = b1 ∧
    patternByte e (assemblePattern e b0 b1 b2 b3) 2 = b2 ∧ patternByte e (assemblePattern e b0 b1 b2 b3) 3 = b3 := by
  cases e
  · exact extract_four_append b3 b2 b1 b0 _ rfl
  · have h := extract_four_append b0 b1 b2 b3 _ rfl
    exact ⟨h.2.2.2, h.2.2.1, h.2.1, h.1⟩

end Sys2Proof
end

