-- ==== Sys2Proof/Laws/Memory.lean ====
section
/-! SUPPORT. Laws of memory: a read after a write, and that every memory operation keeps the canonical form. -/

namespace Sys2Proof.Machine

@[simp] theorem Memory.read_nil (a : Nat) : Memory.read [] a = 0#8 := rfl

/-- An address below every listed one reads 0x00. -/
theorem Memory.read_of_lt {m : Memory} {a : Nat} (h : ∀ c ∈ m, a < c.1) : m.read a = 0#8 := by
  induction m with
  | nil => rfl
  | cons c m ih =>
    obtain ⟨k, b⟩ := c
    have hk : a < k := h (k, b) (by simp)
    simp only [Memory.read, if_neg (by omega : ¬ k = a)]
    exact ih fun c hc => h c (List.mem_cons_of_mem _ hc)

/-- A read after a write: the byte written at its address, and every other byte as before. -/
theorem Memory.read_write {m : Memory} (hm : m.wf) (a : Nat) (b : Byte) (x : Nat) :
    (m.write a b).read x = if x = a then b else m.read x := by
  induction m with
  | nil =>
    by_cases hb : b = 0#8
    · simp [Memory.write, hb]
    · by_cases hx : x = a
      · simp [Memory.write, Memory.read, hb, hx]
      · simp [Memory.write, Memory.read, hb, hx, Ne.symm hx]
  | cons c m ih =>
    obtain ⟨k, c⟩ := c
    obtain ⟨hp, hall⟩ := hm
    rw [List.pairwise_cons] at hp
    have hm' : Memory.wf m := ⟨hp.2, fun d hd => hall d (List.mem_cons_of_mem _ hd)⟩
    have hbelow : ∀ y, y ≤ k → Memory.read m y = 0#8 := fun y hy =>
      Memory.read_of_lt fun d hd => Nat.lt_of_le_of_lt hy (hp.1 d hd)
    unfold Memory.write
    split
    · rename_i hlt
      by_cases hx : x = a
      · subst hx
        by_cases hb : b = 0#8
        · simp [Memory.read, hb, show ¬ k = x by omega, hbelow x (by omega)]
        · simp [Memory.read, hb]
      · by_cases hb : b = 0#8
        · simp [Memory.read, hb, hx]
        · simp [Memory.read, hb, hx, Ne.symm hx]
    · split
      · rename_i _ heq
        subst heq
        by_cases hx : x = a
        · subst hx
          by_cases hb : b = 0#8
          · simp [hb, hbelow x (le_refl _)]
          · simp [Memory.read, hb]
        · by_cases hb : b = 0#8
          · simp [Memory.read, hb, hx, Ne.symm hx]
          · simp [Memory.read, hb, hx, Ne.symm hx]
      · rename_i hge hne
        simp only [Memory.read, ih hm']
        by_cases hx : x = a
        · simp [hx, show ¬ k = a by omega]
        · simp [hx]

/-- A write lists no address but its own and those listed before. -/
theorem Memory.mem_write {m : Memory} {a : Nat} {b : Byte} {c : Host.Cell} (h : c ∈ m.write a b) :
    c ∈ m ∨ (c = (a, b) ∧ b ≠ 0#8) := by
  induction m with
  | nil =>
    unfold Memory.write at h
    split at h <;> simp_all
  | cons d m ih =>
    obtain ⟨k, d⟩ := d
    unfold Memory.write at h
    split at h
    · split at h
      · exact .inl h
      · rcases List.mem_cons.mp h with h | h
        · exact .inr ⟨h, ‹_›⟩
        · exact .inl h
    · split at h
      · split at h
        · exact .inl (List.mem_cons_of_mem _ h)
        · rcases List.mem_cons.mp h with h | h
          · exact .inr ⟨h, ‹_›⟩
          · exact .inl (List.mem_cons_of_mem _ h)
      · rcases List.mem_cons.mp h with h | h
        · exact .inl (h ▸ List.mem_cons_self ..)
        · exact (ih h).imp (List.mem_cons_of_mem _) id

/-- A write inside the address space keeps the canonical form. -/
theorem Memory.wf_write {m : Memory} (hm : m.wf) {a : Nat} (ha : a < 65536) (b : Byte) : (m.write a b).wf := by
  refine ⟨?_, fun c hc => ?_⟩
  · induction m with
    | nil =>
      unfold Memory.write
      split <;> simp
    | cons d m ih =>
      obtain ⟨k, d⟩ := d
      obtain ⟨hp, hall⟩ := hm
      rw [List.pairwise_cons] at hp
      have hm' : Memory.wf m := ⟨hp.2, fun d hd => hall d (List.mem_cons_of_mem _ hd)⟩
      unfold Memory.write
      split
      · rename_i hlt
        split
        · exact List.pairwise_cons.mpr hp
        · refine List.pairwise_cons.mpr ⟨fun e he => ?_, List.pairwise_cons.mpr hp⟩
          rcases List.mem_cons.mp he with he | he
          · simpa [he] using hlt
          · exact Nat.lt_trans hlt (hp.1 e he)
      · split
        · rename_i _ heq
          subst heq
          split
          · exact hp.2
          · exact List.pairwise_cons.mpr ⟨hp.1, hp.2⟩
        · refine List.pairwise_cons.mpr ⟨fun e he => ?_, ih hm'⟩
          rcases Memory.mem_write he with he | ⟨he, _⟩
          · exact hp.1 e he
          · simp only [he]
            omega
  · rcases Memory.mem_write hc with hc | ⟨hc, hb⟩
    · exact hm.2 c hc
    · simpa [hc] using ⟨ha, hb⟩

/-- Storing bytes keeps the canonical form. -/
theorem Memory.wf_writeBytes {m : Memory} (hm : m.wf) (a : Word) (bs : List Byte) : (m.writeBytes a bs).wf := by
  induction bs generalizing m a with
  | nil => exact hm
  | cons b bs ih => exact ih (Memory.wf_write hm a.isLt b) _

theorem Memory.wf_writeWord {m : Memory} (hm : m.wf) (e : Endian) (a v : Word) : (m.writeWord e a v).wf :=
  Memory.wf_writeBytes hm a _

theorem Memory.wf_writePattern {m : Memory} (hm : m.wf) (e : Endian) (a : Word) (w : Pattern) :
    (m.writePattern e a w).wf :=
  Memory.wf_writeBytes hm a _

theorem word_toNat_add_one (a : Word) (h : a.toNat + 1 < 65536) : (a + 1).toNat = a.toNat + 1 := by
  rw [BitVec.toNat_add]
  simp
  omega

theorem word_toNat_add_ofNat (a : Word) (k : Nat) (h : a.toNat + k < 65536) :
    (a + BitVec.ofNat 16 k).toNat = a.toNat + k := by
  rw [BitVec.toNat_add, BitVec.toNat_ofNat]
  omega

/-- Storing bytes below the top of memory: each byte at its own address, every other byte as before. -/
theorem Memory.read_writeBytes {m : Memory} (hm : m.wf) (a : Word) (bs : List Byte) (hfit : a.toNat + bs.length ≤ 65536)
    (x : Nat) : (m.writeBytes a bs).read x =
      if a.toNat ≤ x ∧ x < a.toNat + bs.length then bs.getD (x - a.toNat) 0 else m.read x := by
  induction bs generalizing m a with
  | nil =>
    simp only [Memory.writeBytes, List.length_nil]
    rw [if_neg (by omega)]
  | cons b bs ih =>
    simp only [Memory.writeBytes, List.length_cons] at hfit ⊢
    have hw := Memory.wf_write hm a.isLt b
    cases bs with
    | nil =>
      simp only [Memory.writeBytes, Memory.read_write hm, List.length_nil]
      by_cases hx : x = a.toNat
      · simp [hx]
      · rw [if_neg hx, if_neg (by omega)]
    | cons b' bs =>
      have ha : (a + 1).toNat = a.toNat + 1 := word_toNat_add_one a (by simp at hfit; omega)
      rw [ih hw (a + 1) (by rw [ha]; omega), ha, Memory.read_write hm]
      by_cases hx : x = a.toNat
      · subst hx
        rw [if_neg (by omega), if_pos rfl, if_pos (by omega)]
        simp
      · rw [if_neg hx]
        by_cases hin : a.toNat + 1 ≤ x ∧ x < a.toNat + 1 + (b' :: bs).length
        · rw [if_pos hin, if_pos (by omega), show x - a.toNat = (x - (a.toNat + 1)) + 1 by omega]
          simp
        · rw [if_neg hin, if_neg (by omega)]

/-- Storing bytes changes no byte outside the stored ones. -/
theorem Memory.read_writeBytes_of_outside {m : Memory} (hm : m.wf) {a : Word} {bs : List Byte}
    (hfit : a.toNat + bs.length ≤ 65536) {x : Nat} (hx : x < a.toNat ∨ a.toNat + bs.length ≤ x) :
    (m.writeBytes a bs).read x = m.read x := by
  rw [Memory.read_writeBytes hm a bs hfit, if_neg (by omega)]

/-- Storing bytes, wherever it wraps, leaves a byte alone whose address is none of those stored to. -/
theorem Memory.read_writeBytes_of_ne {m : Memory} (hm : m.wf) {a : Word} {bs : List Byte} {x : Nat}
    (hx : ∀ k, k < bs.length → x ≠ (a + BitVec.ofNat 16 k).toNat) : (m.writeBytes a bs).read x = m.read x := by
  induction bs generalizing m a with
  | nil => rfl
  | cons b bs ih =>
    have h0 := hx 0 (by simp)
    simp only [BitVec.add_zero] at h0
    rw [Memory.writeBytes, ih (Memory.wf_write hm a.isLt b), Memory.read_write hm, if_neg h0]
    intro k hk
    have := hx (k + 1) (by simp; omega)
    rw [BitVec.add_assoc]
    convert this using 3
    rw [BitVec.ofNat_add]
    exact BitVec.add_comm _ _

/-- Storing bytes, wherever it wraps, at most once around: each byte lies at its own address. -/
theorem Memory.read_writeBytes_wrapped {m : Memory} (hm : m.wf) (a : Word) (bs : List Byte) (h : bs.length ≤ 65536)
    (k : Nat) (hk : k < bs.length) : (m.writeBytes a bs).read ((a.toNat + k) % 65536) = bs.getD k 0 := by
  induction bs generalizing m a k with
  | nil => simp at hk
  | cons b bs ih =>
    simp only [List.length_cons] at h hk
    have hw := Memory.wf_write hm a.isLt b
    rw [Memory.writeBytes]
    cases k with
    | zero =>
      rw [Memory.read_writeBytes_of_ne hw]
      · rw [Memory.read_write hm]
        have := a.isLt
        simp [Nat.mod_eq_of_lt this]
      · intro k hk
        simp only [Nat.add_zero, BitVec.toNat_add]
        simp
        omega
    | succ k =>
      have := ih hw (a + 1) (by omega) k (by omega)
      rw [List.getD_cons_succ, ← this]
      congr 1
      simp [BitVec.toNat_add]
      omega

theorem Memory.readAt_eq (m : Memory) {a : Word} {k : Nat} (h : a.toNat + k < 65536) :
    m.readAt a k = m.read (a.toNat + k) := by
  rw [Memory.readAt, word_toNat_add_ofNat a k h]

/-- A 2-byte read below the top of memory, by its two bytes. -/
theorem Memory.readWord_eq (m : Memory) (e : Endian) {a : Word} (h : a.toNat + 1 < 65536) :
    m.readWord e a = assembleWord e (m.read a.toNat) (m.read (a.toNat + 1)) := by
  rw [Memory.readWord, Memory.readAt_eq m (by omega), Memory.readAt_eq m h, Nat.add_zero]

/-- A 4-byte read below the top of memory, by its four bytes. -/
theorem Memory.readPattern_eq (m : Memory) (e : Endian) {a : Word} (h : a.toNat + 3 < 65536) :
    m.readPattern e a = assemblePattern e (m.read a.toNat) (m.read (a.toNat + 1)) (m.read (a.toNat + 2))
      (m.read (a.toNat + 3)) := by
  rw [Memory.readPattern, Memory.readAt_eq m (by omega), Memory.readAt_eq m (by omega), Memory.readAt_eq m (by omega),
    Memory.readAt_eq m h, Nat.add_zero]

/-- The bytes a 2-byte store leaves. -/
theorem Memory.read_writeWord {m : Memory} (hm : m.wf) (e : Endian) (a v : Word) (h : a.toNat + 1 < 65536) (x : Nat) :
    (m.writeWord e a v).read x =
      if x = a.toNat then wordByte e v 0 else if x = a.toNat + 1 then wordByte e v 1 else m.read x := by
  rw [Memory.writeWord, Memory.read_writeBytes hm a _ (by simp; omega)]
  have hl := wordBytes_length e v
  by_cases h0 : x = a.toNat
  · simp [h0, wordBytes]
  · by_cases h1 : x = a.toNat + 1
    · simp [h1, wordBytes]
    · rw [if_neg h0, if_neg h1, if_neg (by omega)]

/-- The bytes a 4-byte store leaves. -/
theorem Memory.read_writePattern {m : Memory} (hm : m.wf) (e : Endian) (a : Word) (w : Pattern)
    (h : a.toNat + 3 < 65536) (x : Nat) :
    (m.writePattern e a w).read x =
      if x = a.toNat then patternByte e w 0 else if x = a.toNat + 1 then patternByte e w 1
      else if x = a.toNat + 2 then patternByte e w 2 else if x = a.toNat + 3 then patternByte e w 3 else m.read x := by
  rw [Memory.writePattern, Memory.read_writeBytes hm a _ (by simp; omega)]
  have hl := patternBytes_length e w
  by_cases h0 : x = a.toNat
  · simp [h0, patternBytes]
  · by_cases h1 : x = a.toNat + 1
    · simp [h1, patternBytes]
    · by_cases h2 : x = a.toNat + 2
      · simp [h2, patternBytes]
      · by_cases h3 : x = a.toNat + 3
        · simp [h3, patternBytes]
        · rw [if_neg h0, if_neg h1, if_neg h2, if_neg h3, if_neg (by omega)]

/-- A 2-byte read of what a 2-byte store wrote. -/
theorem Memory.readWord_writeWord {m : Memory} (hm : m.wf) (e : Endian) (a v : Word) (h : a.toNat + 1 < 65536) :
    (m.writeWord e a v).readWord e a = v := by
  rw [Memory.readWord_eq _ e h, Memory.read_writeWord hm e a v h, Memory.read_writeWord hm e a v h]
  simp

/-- A 4-byte read of what a 4-byte store wrote. -/
theorem Memory.readPattern_writePattern {m : Memory} (hm : m.wf) (e : Endian) (a : Word) (w : Pattern)
    (h : a.toNat + 3 < 65536) : (m.writePattern e a w).readPattern e a = w := by
  rw [Memory.readPattern_eq _ e h]
  simp [Memory.read_writePattern hm e a w h]

/-- Two canonical memories that read alike everywhere are equal data. -/
theorem Memory.ext_of_wf {m n : Memory} (hm : m.wf) (hn : n.wf) (h : ∀ a, m.read a = n.read a) : m = n := by
  induction m generalizing n with
  | nil =>
    cases n with
    | nil => rfl
    | cons c n =>
      obtain ⟨k, b⟩ := c
      have := h k
      simp only [Memory.read, if_true] at this
      exact absurd this.symm (hn.2 (k, b) (by simp)).2
  | cons c m ih =>
    obtain ⟨k, b⟩ := c
    have hkb := (hm.2 (k, b) (by simp)).2
    cases n with
    | nil =>
      have := h k
      simp only [Memory.read, if_true] at this
      exact absurd this hkb
    | cons d n =>
      obtain ⟨l, d⟩ := d
      have hld := (hn.2 (l, d) (by simp)).2
      have hmp := List.pairwise_cons.mp hm.1
      have hnp := List.pairwise_cons.mp hn.1
      have hm0 : ∀ y, y ≤ k → Memory.read m y = 0#8 := fun y hy =>
        Memory.read_of_lt fun e he => Nat.lt_of_le_of_lt hy (hmp.1 e he)
      have hn0 : ∀ y, y ≤ l → Memory.read n y = 0#8 := fun y hy =>
        Memory.read_of_lt fun e he => Nat.lt_of_le_of_lt hy (hnp.1 e he)
      have hkl : k = l := by
        rcases Nat.lt_trichotomy k l with hlt | heq | hgt
        · have := h k
          rw [Memory.read, if_pos rfl, Memory.read, if_neg (by omega), hn0 k (by omega)] at this
          exact absurd this hkb
        · exact heq
        · have := h l
          rw [Memory.read, if_neg (by omega), hm0 l (by omega), Memory.read, if_pos rfl] at this
          exact absurd this.symm hld
      subst hkl
      have hb : b = d := by simpa [Memory.read] using h k
      subst hb
      have : m = n := ih ⟨hmp.2, fun e he => hm.2 e (List.mem_cons_of_mem _ he)⟩
        ⟨hnp.2, fun e he => hn.2 e (List.mem_cons_of_mem _ he)⟩ fun a => by
          by_cases ha : a = k
          · rw [ha, hm0 k (le_refl _), hn0 k (le_refl _)]
          · have := h a
            rwa [Memory.read, if_neg (Ne.symm ha), Memory.read, if_neg (Ne.symm ha)] at this
      rw [this]

end Sys2Proof.Machine
end

