-- ==== Sys2Proof/Laws/State.lean ====
section
/-! SUPPORT. One lemma per field per update of the state, and the register files' read after write, so that no proof unfolds a
record update. -/

namespace Sys2Proof.Machine

@[simp] theorem State.putInt_cfg (s : State) (r : IntReg) (v : Word) : (s.putInt r v).cfg = s.cfg := rfl
@[simp] theorem State.putInt_ints (s : State) (r : IntReg) (v : Word) : (s.putInt r v).ints = s.ints.set r v := rfl
@[simp] theorem State.putInt_flts (s : State) (r : IntReg) (v : Word) : (s.putInt r v).flts = s.flts := rfl
@[simp] theorem State.putInt_cmp (s : State) (r : IntReg) (v : Word) : (s.putInt r v).cmp = s.cmp := rfl
@[simp] theorem State.putInt_status (s : State) (r : IntReg) (v : Word) : (s.putInt r v).status = s.status := rfl
@[simp] theorem State.putInt_mem (s : State) (r : IntReg) (v : Word) : (s.putInt r v).mem = s.mem := rfl
@[simp] theorem State.putInt_cycles (s : State) (r : IntReg) (v : Word) : (s.putInt r v).cycles = s.cycles := rfl
@[simp] theorem State.putInt_lastInstr (s : State) (r : IntReg) (v : Word) : (s.putInt r v).lastInstr = s.lastInstr := rfl

@[simp] theorem State.putFlt_cfg (s : State) (r : FltReg) (w : Pattern) : (s.putFlt r w).cfg = s.cfg := rfl
@[simp] theorem State.putFlt_ints (s : State) (r : FltReg) (w : Pattern) : (s.putFlt r w).ints = s.ints := rfl
@[simp] theorem State.putFlt_flts (s : State) (r : FltReg) (w : Pattern) : (s.putFlt r w).flts = s.flts.set r w := rfl
@[simp] theorem State.putFlt_cmp (s : State) (r : FltReg) (w : Pattern) : (s.putFlt r w).cmp = s.cmp := rfl
@[simp] theorem State.putFlt_status (s : State) (r : FltReg) (w : Pattern) : (s.putFlt r w).status = s.status := rfl
@[simp] theorem State.putFlt_mem (s : State) (r : FltReg) (w : Pattern) : (s.putFlt r w).mem = s.mem := rfl
@[simp] theorem State.putFlt_cycles (s : State) (r : FltReg) (w : Pattern) : (s.putFlt r w).cycles = s.cycles := rfl
@[simp] theorem State.putFlt_lastInstr (s : State) (r : FltReg) (w : Pattern) : (s.putFlt r w).lastInstr = s.lastInstr := rfl

@[simp] theorem State.putCmp_cfg (s : State) (c : CmpFlag) : (s.putCmp c).cfg = s.cfg := rfl
@[simp] theorem State.putCmp_ints (s : State) (c : CmpFlag) : (s.putCmp c).ints = s.ints := rfl
@[simp] theorem State.putCmp_flts (s : State) (c : CmpFlag) : (s.putCmp c).flts = s.flts := rfl
@[simp] theorem State.putCmp_cmp (s : State) (c : CmpFlag) : (s.putCmp c).cmp = c := rfl
@[simp] theorem State.putCmp_status (s : State) (c : CmpFlag) : (s.putCmp c).status = s.status := rfl
@[simp] theorem State.putCmp_mem (s : State) (c : CmpFlag) : (s.putCmp c).mem = s.mem := rfl
@[simp] theorem State.putCmp_cycles (s : State) (c : CmpFlag) : (s.putCmp c).cycles = s.cycles := rfl
@[simp] theorem State.putCmp_lastInstr (s : State) (c : CmpFlag) : (s.putCmp c).lastInstr = s.lastInstr := rfl

@[simp] theorem State.putStatus_cfg (s : State) (k : Status) : (s.putStatus k).cfg = s.cfg := rfl
@[simp] theorem State.putStatus_ints (s : State) (k : Status) : (s.putStatus k).ints = s.ints := rfl
@[simp] theorem State.putStatus_flts (s : State) (k : Status) : (s.putStatus k).flts = s.flts := rfl
@[simp] theorem State.putStatus_cmp (s : State) (k : Status) : (s.putStatus k).cmp = s.cmp := rfl
@[simp] theorem State.putStatus_status (s : State) (k : Status) : (s.putStatus k).status = k := rfl
@[simp] theorem State.putStatus_mem (s : State) (k : Status) : (s.putStatus k).mem = s.mem := rfl
@[simp] theorem State.putStatus_cycles (s : State) (k : Status) : (s.putStatus k).cycles = s.cycles := rfl
@[simp] theorem State.putStatus_lastInstr (s : State) (k : Status) : (s.putStatus k).lastInstr = s.lastInstr := rfl

@[simp] theorem State.putMem_cfg (s : State) (m : Memory) : (s.putMem m).cfg = s.cfg := rfl
@[simp] theorem State.putMem_ints (s : State) (m : Memory) : (s.putMem m).ints = s.ints := rfl
@[simp] theorem State.putMem_flts (s : State) (m : Memory) : (s.putMem m).flts = s.flts := rfl
@[simp] theorem State.putMem_cmp (s : State) (m : Memory) : (s.putMem m).cmp = s.cmp := rfl
@[simp] theorem State.putMem_status (s : State) (m : Memory) : (s.putMem m).status = s.status := rfl
@[simp] theorem State.putMem_mem (s : State) (m : Memory) : (s.putMem m).mem = m := rfl
@[simp] theorem State.putMem_cycles (s : State) (m : Memory) : (s.putMem m).cycles = s.cycles := rfl
@[simp] theorem State.putMem_lastInstr (s : State) (m : Memory) : (s.putMem m).lastInstr = s.lastInstr := rfl

@[simp] theorem State.countCycle_cfg (s : State) : (s.countCycle).cfg = s.cfg := rfl
@[simp] theorem State.countCycle_ints (s : State) : (s.countCycle).ints = s.ints := rfl
@[simp] theorem State.countCycle_flts (s : State) : (s.countCycle).flts = s.flts := rfl
@[simp] theorem State.countCycle_cmp (s : State) : (s.countCycle).cmp = s.cmp := rfl
@[simp] theorem State.countCycle_status (s : State) : (s.countCycle).status = s.status := rfl
@[simp] theorem State.countCycle_mem (s : State) : (s.countCycle).mem = s.mem := rfl
@[simp] theorem State.countCycle_cycles (s : State) : (s.countCycle).cycles = s.cycles + 1 := rfl
@[simp] theorem State.countCycle_lastInstr (s : State) : (s.countCycle).lastInstr = s.lastInstr := rfl

@[simp] theorem State.keepFetched_cfg (s : State) (ib : Record) : (s.keepFetched ib).cfg = s.cfg := rfl
@[simp] theorem State.keepFetched_ints (s : State) (ib : Record) : (s.keepFetched ib).ints = s.ints := rfl
@[simp] theorem State.keepFetched_flts (s : State) (ib : Record) : (s.keepFetched ib).flts = s.flts := rfl
@[simp] theorem State.keepFetched_cmp (s : State) (ib : Record) : (s.keepFetched ib).cmp = s.cmp := rfl
@[simp] theorem State.keepFetched_status (s : State) (ib : Record) : (s.keepFetched ib).status = s.status := rfl
@[simp] theorem State.keepFetched_mem (s : State) (ib : Record) : (s.keepFetched ib).mem = s.mem := rfl
@[simp] theorem State.keepFetched_cycles (s : State) (ib : Record) : (s.keepFetched ib).cycles = s.cycles := rfl
@[simp] theorem State.keepFetched_lastInstr (s : State) (ib : Record) : (s.keepFetched ib).lastInstr = ib := rfl

@[simp] theorem IntFile.get_set (f : IntFile) (r : IntReg) (v : Word) (q : IntReg) :
    (f.set r v).get q = if q = r then v else f.get q := by
  cases r <;> cases q <;> rfl

@[simp] theorem FltFile.get_set (f : FltFile) (r : FltReg) (w : Pattern) (q : FltReg) :
    (f.set r w).get q = if q = r then w else f.get q := by
  cases r <;> cases q <;> rfl

theorem IntFile.pc_eq_get (f : IntFile) : f.pc = f.get .pc := rfl
theorem IntFile.sp_eq_get (f : IntFile) : f.sp = f.get .sp := rfl
theorem IntFile.bp_eq_get (f : IntFile) : f.bp = f.get .bp := rfl
theorem IntFile.ir0_eq_get (f : IntFile) : f.ir0 = f.get .ir0 := rfl
theorem IntFile.ir1_eq_get (f : IntFile) : f.ir1 = f.get .ir1 := rfl
theorem IntFile.ir2_eq_get (f : IntFile) : f.ir2 = f.get .ir2 := rfl
theorem IntFile.ir3_eq_get (f : IntFile) : f.ir3 = f.get .ir3 := rfl
theorem IntFile.irv_eq_get (f : IntFile) : f.irv = f.get .irv := rfl
theorem FltFile.fr0_eq_get (f : FltFile) : f.fr0 = f.get .fr0 := rfl
theorem FltFile.fr1_eq_get (f : FltFile) : f.fr1 = f.get .fr1 := rfl
theorem FltFile.fr2_eq_get (f : FltFile) : f.fr2 = f.get .fr2 := rfl
theorem FltFile.fr3_eq_get (f : FltFile) : f.fr3 = f.get .fr3 := rfl
theorem FltFile.frv_eq_get (f : FltFile) : f.frv = f.get .frv := rfl

/-- A write of any register but sp leaves sp. -/
theorem IntFile.sp_set_of_ne {r : IntReg} (h : r ≠ .sp) (f : IntFile) (v : Word) : (f.set r v).sp = f.sp := by
  cases r <;> first | rfl | exact absurd rfl h

@[simp] theorem IntFile.sp_set_sp (f : IntFile) (v : Word) : (f.set .sp v).sp = v := rfl

@[simp] theorem IntFile.pc_set_pc (f : IntFile) (v : Word) : (f.set .pc v).pc = v := rfl

@[simp] theorem IntFile.pc_set_sp (f : IntFile) (v : Word) : (f.set .sp v).pc = f.pc := rfl

@[simp] theorem IntFile.sp_set_pc (f : IntFile) (v : Word) : (f.set .pc v).sp = f.sp := rfl

/-- A write of any register but pc leaves pc. -/
theorem IntFile.pc_set_of_ne {r : IntReg} (h : r ≠ .pc) (f : IntFile) (v : Word) : (f.set r v).pc = f.pc := by
  cases r <;> first | rfl | exact absurd rfl h

theorem ne_sp_of_generalAllowed {r : IntReg} (h : generalAllowed r = true) : r ≠ .sp := by
  rintro rfl
  exact Bool.noConfusion h

theorem ne_pc_of_generalAllowed {r : IntReg} (h : generalAllowed r = true) : r ≠ .pc := by
  rintro rfl
  exact Bool.noConfusion h

theorem ne_sp_of_anyAllowed {r : IntReg} (h : anyAllowed r = true) : r ≠ .sp := by
  rintro rfl
  exact Bool.noConfusion h

end Sys2Proof.Machine
end

