-- ==== Sys2Proof/Laws/Operations.lean ====
section
/-! SUPPORT. One lemma per shared operation and outcome: what it answers, under a condition on its arguments alone. A proof
about an instruction rewrites with these and does not unfold the operations. -/

namespace Sys2Proof.Machine

section Results

variable {α β : Type}

@[simp] theorem exec_ok_bind (a : α) (f : α → Exec β) : ((Except.ok a : Exec α) >>= f) = f a := rfl

@[simp] theorem exec_pure_bind (a : α) (f : α → Exec β) : ((pure a : Exec α) >>= f) = f a := rfl

@[simp] theorem exec_raise_bind (s : State) (k : ErrorKind) (f : α → Exec β) : (raise s k >>= f) = raise s k := rfl

@[simp] theorem exec_ok_map (a : α) (f : α → β) : (f <$> (Except.ok a : Exec α)) = .ok (f a) := rfl

@[simp] theorem exec_raise_map (s : State) (k : ErrorKind) (f : α → β) : (f <$> (raise s k : Exec α)) = raise s k := rfl

@[simp] theorem finish_ok (s : State) : finish (.ok s) = .next s := rfl

@[simp] theorem finish_pure (s : State) : finish (pure s) = .next s := rfl

@[simp] theorem finish_raise (s : State) (k : ErrorKind) : finish (raise s k) = .next (s.putStatus (.error k)) := rfl

/-- An instruction built by `finish` always answers a next state (60_exceptions.md R240: an error is a status). -/
theorem finish_eq_next (x : Exec State) : ∃ t, finish x = .next t := by
  cases x <;> exact ⟨_, rfl⟩

/-- What `finish` answers is the result or the state a raise left. -/
theorem finish_eq_next_iff {x : Exec State} {t : State} : finish x = .next t ↔ x = .ok t ∨ x = .error t := by
  cases x <;> simp [finish]

/-- A sequence ends in an error iff its first part does, or its second. -/
theorem exec_bind_eq_error {x : Exec α} {f : α → Exec β} {t : State} :
    (x >>= f) = .error t ↔ x = .error t ∨ ∃ a, x = .ok a ∧ f a = .error t := by
  cases x <;> simp [bind, Except.bind]

/-- A sequence has a result iff both its parts do. -/
theorem exec_bind_eq_ok {x : Exec α} {f : α → Exec β} {b : β} :
    (x >>= f) = .ok b ↔ ∃ a, x = .ok a ∧ f a = .ok b := by
  cases x <;> simp [bind, Except.bind]

@[simp] theorem raise_ne_ok (s : State) (k : ErrorKind) (a : α) : raise s k ≠ .ok a := by simp [raise]

@[simp] theorem raise_eq_error {s t : State} {k : ErrorKind} :
    (raise s k : Exec α) = .error t ↔ s.putStatus (.error k) = t := by
  simp [raise]

end Results

section Registers

variable {s : State} {id : Byte}

theorem getInt_of_some {r : IntReg} (h : s.cfg.intReg? id = some r) : getInt s id = .ok (s.ints.get r) := by
  simp [getInt, intOperand, h, pure, Except.pure]

theorem getInt_of_none (h : s.cfg.intReg? id = none) : getInt s id = raise s .registerUnrecognized := by
  simp [getInt, intOperand, h]

theorem getFlt_of_some {r : FltReg} (h : s.cfg.fltReg? id = some r) : getFlt s id = .ok (s.flts.get r) := by
  simp [getFlt, fltOperand, h, pure, Except.pure]

theorem getFlt_of_none (h : s.cfg.fltReg? id = none) : getFlt s id = raise s .registerUnrecognized := by
  simp [getFlt, fltOperand, h]

theorem generalDest_of_allowed {r : IntReg} (h : s.cfg.intReg? id = some r) (ha : generalAllowed r = true) :
    generalDest s id = .ok r := by
  simp [generalDest, intOperand, h, ha, pure, Except.pure]

theorem generalDest_of_refused {r : IntReg} (h : s.cfg.intReg? id = some r) (ha : generalAllowed r = false) :
    generalDest s id = raise s .registerNotAllowed := by
  simp [generalDest, intOperand, h, ha]

theorem generalDest_of_none (h : s.cfg.intReg? id = none) : generalDest s id = raise s .registerUnrecognized := by
  simp [generalDest, intOperand, h]

theorem anyDest_of_allowed {r : IntReg} (h : s.cfg.intReg? id = some r) (ha : anyAllowed r = true) :
    anyDest s id = .ok r := by
  simp [anyDest, intOperand, h, ha, pure, Except.pure]

theorem anyDest_of_refused {r : IntReg} (h : s.cfg.intReg? id = some r) (ha : anyAllowed r = false) :
    anyDest s id = raise s .registerNotAllowed := by
  simp [anyDest, intOperand, h, ha]

theorem anyDest_of_none (h : s.cfg.intReg? id = none) : anyDest s id = raise s .registerUnrecognized := by
  simp [anyDest, intOperand, h]

theorem setIntGeneral_of_allowed {r : IntReg} (h : s.cfg.intReg? id = some r) (ha : generalAllowed r = true) (v : Word) :
    setIntGeneral s id v = .ok (s.putInt r v) := by
  simp [setIntGeneral, generalDest_of_allowed h ha, pure, Except.pure]

theorem setIntGeneral_of_refused {r : IntReg} (h : s.cfg.intReg? id = some r) (ha : generalAllowed r = false) (v : Word) :
    setIntGeneral s id v = raise s .registerNotAllowed := by
  simp [setIntGeneral, generalDest_of_refused h ha]

theorem setIntGeneral_of_none (h : s.cfg.intReg? id = none) (v : Word) :
    setIntGeneral s id v = raise s .registerUnrecognized := by
  simp [setIntGeneral, generalDest_of_none h]

theorem setIntAny_of_allowed {r : IntReg} (h : s.cfg.intReg? id = some r) (ha : anyAllowed r = true) (v : Word) :
    setIntAny s id v = .ok (s.putInt r v) := by
  simp [setIntAny, anyDest_of_allowed h ha, pure, Except.pure]

theorem setIntAny_of_refused {r : IntReg} (h : s.cfg.intReg? id = some r) (ha : anyAllowed r = false) (v : Word) :
    setIntAny s id v = raise s .registerNotAllowed := by
  simp [setIntAny, anyDest_of_refused h ha]

theorem setIntAny_of_none (h : s.cfg.intReg? id = none) (v : Word) :
    setIntAny s id v = raise s .registerUnrecognized := by
  simp [setIntAny, anyDest_of_none h]

theorem setFlt_of_some {r : FltReg} (h : s.cfg.fltReg? id = some r) (w : Pattern) :
    setFlt s id w = .ok (s.putFlt r w) := by
  simp [setFlt, fltOperand, h, pure, Except.pure]

theorem setFlt_of_none (h : s.cfg.fltReg? id = none) (w : Pattern) :
    setFlt s id w = raise s .registerUnrecognized := by
  simp [setFlt, fltOperand, h]

theorem checkGeneral_of_allowed {r : IntReg} (h : s.cfg.intReg? id = some r) (ha : generalAllowed r = true) :
    checkGeneral s id = .ok () := by
  simp [checkGeneral, generalDest_of_allowed h ha, pure, Except.pure]

theorem checkGeneral_of_refused {r : IntReg} (h : s.cfg.intReg? id = some r) (ha : generalAllowed r = false) :
    checkGeneral s id = raise s .registerNotAllowed := by
  simp [checkGeneral, generalDest_of_refused h ha]

theorem checkGeneral_of_none (h : s.cfg.intReg? id = none) : checkGeneral s id = raise s .registerUnrecognized := by
  simp [checkGeneral, generalDest_of_none h]

theorem checkAny_of_allowed {r : IntReg} (h : s.cfg.intReg? id = some r) (ha : anyAllowed r = true) :
    checkAny s id = .ok () := by
  simp [checkAny, anyDest_of_allowed h ha, pure, Except.pure]

theorem checkAny_of_refused {r : IntReg} (h : s.cfg.intReg? id = some r) (ha : anyAllowed r = false) :
    checkAny s id = raise s .registerNotAllowed := by
  simp [checkAny, anyDest_of_refused h ha]

theorem checkAny_of_none (h : s.cfg.intReg? id = none) : checkAny s id = raise s .registerUnrecognized := by
  simp [checkAny, anyDest_of_none h]

theorem checkFlt_of_some {r : FltReg} (h : s.cfg.fltReg? id = some r) : checkFlt s id = .ok () := by
  simp [checkFlt, fltOperand, h, pure, Except.pure]

theorem checkFlt_of_none (h : s.cfg.fltReg? id = none) : checkFlt s id = raise s .registerUnrecognized := by
  simp [checkFlt, fltOperand, h]

/-- Everything reading an integer register can do. -/
theorem getInt_cases (s : State) (id : IntId) :
    (∃ r, s.cfg.intReg? id = some r ∧ getInt s id = .ok (s.ints.get r)) ∨ getInt s id = raise s .registerUnrecognized := by
  cases h : s.cfg.intReg? id with
  | some r => exact .inl ⟨r, rfl, getInt_of_some h⟩
  | none => exact .inr (getInt_of_none h)

/-- Everything reading a float register can do. -/
theorem getFlt_cases (s : State) (id : FltId) :
    (∃ r, s.cfg.fltReg? id = some r ∧ getFlt s id = .ok (s.flts.get r)) ∨ getFlt s id = raise s .registerUnrecognized := by
  cases h : s.cfg.fltReg? id with
  | some r => exact .inl ⟨r, rfl, getFlt_of_some h⟩
  | none => exact .inr (getFlt_of_none h)

/-- Everything `set_int_general` and its check can do. -/
theorem setIntGeneral_cases (s : State) (id : IntId) :
    (∃ r, generalAllowed r = true ∧ checkGeneral s id = .ok () ∧ ∀ v, setIntGeneral s id v = .ok (s.putInt r v)) ∨
    ∃ k, (k = .registerUnrecognized ∨ k = .registerNotAllowed) ∧ checkGeneral s id = raise s k ∧
      ∀ v, setIntGeneral s id v = raise s k := by
  cases h : s.cfg.intReg? id with
  | none => exact .inr ⟨_, .inl rfl, checkGeneral_of_none h, setIntGeneral_of_none h⟩
  | some r =>
    cases ha : generalAllowed r with
    | true => exact .inl ⟨r, ha, checkGeneral_of_allowed h ha, setIntGeneral_of_allowed h ha⟩
    | false => exact .inr ⟨_, .inr rfl, checkGeneral_of_refused h ha, setIntGeneral_of_refused h ha⟩

/-- Everything `set_int_any` and its check can do. -/
theorem setIntAny_cases (s : State) (id : IntId) :
    (∃ r, anyAllowed r = true ∧ s.cfg.intReg? id = some r ∧ checkAny s id = .ok () ∧
      ∀ v, setIntAny s id v = .ok (s.putInt r v)) ∨
    ∃ k, (k = .registerUnrecognized ∨ k = .registerNotAllowed) ∧ checkAny s id = raise s k ∧
      ∀ v, setIntAny s id v = raise s k := by
  cases h : s.cfg.intReg? id with
  | none => exact .inr ⟨_, .inl rfl, checkAny_of_none h, setIntAny_of_none h⟩
  | some r =>
    cases ha : anyAllowed r with
    | true => exact .inl ⟨r, ha, rfl, checkAny_of_allowed h ha, setIntAny_of_allowed h ha⟩
    | false => exact .inr ⟨_, .inr rfl, checkAny_of_refused h ha, setIntAny_of_refused h ha⟩

/-- Everything `set_float` and its check can do. -/
theorem setFlt_cases (s : State) (id : FltId) :
    (∃ r, s.cfg.fltReg? id = some r ∧ checkFlt s id = .ok () ∧ ∀ w, setFlt s id w = .ok (s.putFlt r w)) ∨
    (checkFlt s id = raise s .registerUnrecognized ∧ ∀ w, setFlt s id w = raise s .registerUnrecognized) := by
  cases h : s.cfg.fltReg? id with
  | none => exact .inr ⟨checkFlt_of_none h, setFlt_of_none h⟩
  | some r => exact .inl ⟨r, rfl, checkFlt_of_some h, setFlt_of_some h⟩

theorem multiplier_literal (h : s.cfg.leaMultMode = .literal) (m : Byte) : multiplier s m = .ok m.toNat := by
  simp [multiplier, h, pure, Except.pure]

theorem multiplier_register (h : s.cfg.leaMultMode = .register) {m : Byte} {r : IntReg}
    (hr : s.cfg.intReg? m = some r) : multiplier s m = .ok (s.ints.get r).toNat := by
  simp [multiplier, h, getInt_of_some hr, pure, Except.pure]

theorem multiplier_register_none (h : s.cfg.leaMultMode = .register) {m : Byte} (hr : s.cfg.intReg? m = none) :
    multiplier s m = raise s .registerUnrecognized := by
  simp [multiplier, h, getInt_of_none hr]

end Registers

section Windows

variable {s : State}

theorem checkWindow_of_inside {addr : Word} {n : Nat} (hlo : s.cfg.rwMin.toNat ≤ addr.toNat)
    (hhi : addr.toNat + n < s.cfg.rwMax.toNat + 1) : checkWindow s addr n = .ok () := by
  simp [checkWindow, State.inWindow, hlo, hhi]

theorem checkWindow_of_outside {addr : Word} {n : Nat}
    (h : addr.toNat < s.cfg.rwMin.toNat ∨ s.cfg.rwMax.toNat + 1 ≤ addr.toNat + n) :
    checkWindow s addr n = raise s .memoryAccessOutOfBounds := by
  simp only [checkWindow, State.inWindow, decide_eq_true_eq]
  rw [if_neg (by omega)]

/-- Everything the window test can do. -/
theorem checkWindow_cases (s : State) (addr : Word) (n : Nat) :
    (s.cfg.rwMin.toNat ≤ addr.toNat ∧ addr.toNat + n < s.cfg.rwMax.toNat + 1 ∧ checkWindow s addr n = .ok ()) ∨
    checkWindow s addr n = raise s .memoryAccessOutOfBounds := by
  by_cases h : s.cfg.rwMin.toNat ≤ addr.toNat ∧ addr.toNat + n < s.cfg.rwMax.toNat + 1
  · exact .inl ⟨h.1, h.2, checkWindow_of_inside h.1 h.2⟩
  · exact .inr (checkWindow_of_outside (by omega))

theorem checkPush_of_fits {n : Nat} (h : s.ints.sp.toNat + n ≤ s.cfg.maxAddr.toNat) : checkPush s n = .ok () := by
  simp [checkPush, State.pushFits, h]

theorem checkPush_of_full {n : Nat} (h : s.cfg.maxAddr.toNat < s.ints.sp.toNat + n) :
    checkPush s n = raise s .stackOverflow := by
  simp only [checkPush, State.pushFits, decide_eq_true_eq]
  rw [if_neg (by omega)]

theorem checkPop_of_ready (h : s.cfg.rwMax.toNat < s.ints.sp.toNat) : checkPop s = .ok () := by
  simp [checkPop, State.popReady, h]

theorem checkPop_of_empty (h : s.ints.sp.toNat ≤ s.cfg.rwMax.toNat) : checkPop s = raise s .stackUnderflow := by
  simp only [checkPop, State.popReady, decide_eq_true_eq]
  rw [if_neg (by omega)]

end Windows

section Fields

/-! What the memory and stack updates leave alone, field by field. -/

variable (s : State) (a v : Word) (w : Pattern) (n : Nat)

@[simp] theorem State.storeWord_mem : (s.storeWord a v).mem = s.mem.writeWord s.cfg.endian a v := rfl
@[simp] theorem State.storeWord_cfg : (s.storeWord a v).cfg = s.cfg := rfl
@[simp] theorem State.storeWord_ints : (s.storeWord a v).ints = s.ints := rfl
@[simp] theorem State.storeWord_flts : (s.storeWord a v).flts = s.flts := rfl
@[simp] theorem State.storeWord_cmp : (s.storeWord a v).cmp = s.cmp := rfl
@[simp] theorem State.storeWord_status : (s.storeWord a v).status = s.status := rfl
@[simp] theorem State.storeWord_cycles : (s.storeWord a v).cycles = s.cycles := rfl
@[simp] theorem State.storeWord_lastInstr : (s.storeWord a v).lastInstr = s.lastInstr := rfl

@[simp] theorem State.storePattern_mem : (s.storePattern a w).mem = s.mem.writePattern s.cfg.endian a w := rfl
@[simp] theorem State.storePattern_cfg : (s.storePattern a w).cfg = s.cfg := rfl
@[simp] theorem State.storePattern_ints : (s.storePattern a w).ints = s.ints := rfl
@[simp] theorem State.storePattern_flts : (s.storePattern a w).flts = s.flts := rfl
@[simp] theorem State.storePattern_cmp : (s.storePattern a w).cmp = s.cmp := rfl
@[simp] theorem State.storePattern_status : (s.storePattern a w).status = s.status := rfl
@[simp] theorem State.storePattern_cycles : (s.storePattern a w).cycles = s.cycles := rfl
@[simp] theorem State.storePattern_lastInstr : (s.storePattern a w).lastInstr = s.lastInstr := rfl

@[simp] theorem State.stackWord_mem : (s.stackWord v).mem = s.mem.writeWord s.cfg.endian s.ints.sp v := rfl
@[simp] theorem State.stackWord_cfg : (s.stackWord v).cfg = s.cfg := rfl
@[simp] theorem State.stackWord_ints : (s.stackWord v).ints = s.ints.set .sp (s.ints.sp + 2) := rfl
@[simp] theorem State.stackWord_flts : (s.stackWord v).flts = s.flts := rfl
@[simp] theorem State.stackWord_cmp : (s.stackWord v).cmp = s.cmp := rfl
@[simp] theorem State.stackWord_status : (s.stackWord v).status = s.status := rfl
@[simp] theorem State.stackWord_cycles : (s.stackWord v).cycles = s.cycles := rfl
@[simp] theorem State.stackWord_lastInstr : (s.stackWord v).lastInstr = s.lastInstr := rfl

@[simp] theorem State.stackPattern_mem : (s.stackPattern w).mem = s.mem.writePattern s.cfg.endian s.ints.sp w := rfl
@[simp] theorem State.stackPattern_cfg : (s.stackPattern w).cfg = s.cfg := rfl
@[simp] theorem State.stackPattern_ints : (s.stackPattern w).ints = s.ints.set .sp (s.ints.sp + 4) := rfl
@[simp] theorem State.stackPattern_flts : (s.stackPattern w).flts = s.flts := rfl
@[simp] theorem State.stackPattern_cmp : (s.stackPattern w).cmp = s.cmp := rfl
@[simp] theorem State.stackPattern_status : (s.stackPattern w).status = s.status := rfl
@[simp] theorem State.stackPattern_cycles : (s.stackPattern w).cycles = s.cycles := rfl
@[simp] theorem State.stackPattern_lastInstr : (s.stackPattern w).lastInstr = s.lastInstr := rfl

@[simp] theorem State.unstack_mem : (s.unstack n).mem = s.mem := rfl
@[simp] theorem State.unstack_cfg : (s.unstack n).cfg = s.cfg := rfl
@[simp] theorem State.unstack_ints : (s.unstack n).ints = s.ints.set .sp (s.ints.sp - BitVec.ofNat 16 n) := rfl
@[simp] theorem State.unstack_flts : (s.unstack n).flts = s.flts := rfl
@[simp] theorem State.unstack_cmp : (s.unstack n).cmp = s.cmp := rfl
@[simp] theorem State.unstack_status : (s.unstack n).status = s.status := rfl
@[simp] theorem State.unstack_cycles : (s.unstack n).cycles = s.cycles := rfl
@[simp] theorem State.unstack_lastInstr : (s.unstack n).lastInstr = s.lastInstr := rfl

end Fields

section Stack

variable {s : State}

theorem pushWord_of_fits (h : s.ints.sp.toNat + 2 ≤ s.cfg.maxAddr.toNat) (v : Word) :
    pushWord s v = .ok (s.stackWord v) := by
  simp [pushWord, checkPush_of_fits h, pure, Except.pure]

theorem pushWord_of_full (h : s.cfg.maxAddr.toNat < s.ints.sp.toNat + 2) (v : Word) :
    pushWord s v = raise s .stackOverflow := by
  simp [pushWord, checkPush_of_full h]

theorem pushPattern_of_fits (h : s.ints.sp.toNat + 4 ≤ s.cfg.maxAddr.toNat) (w : Pattern) :
    pushPattern s w = .ok (s.stackPattern w) := by
  simp [pushPattern, checkPush_of_fits h, pure, Except.pure]

theorem pushPattern_of_full (h : s.cfg.maxAddr.toNat < s.ints.sp.toNat + 4) (w : Pattern) :
    pushPattern s w = raise s .stackOverflow := by
  simp [pushPattern, checkPush_of_full h]

theorem popSlot_int_of_ready (h : s.cfg.rwMax.toNat < s.ints.sp.toNat) (r : IntReg) :
    popSlot s (.int r) = .ok ((s.unstack 2).putInt r (s.loadWord (s.ints.sp - 2))) := by
  simp only [popSlot, checkPop_of_ready h, exec_ok_bind]
  rfl

theorem popSlot_flt_of_ready (h : s.cfg.rwMax.toNat < s.ints.sp.toNat) (r : FltReg) :
    popSlot s (.flt r) = .ok ((s.unstack 4).putFlt r (s.loadPattern (s.ints.sp - 4))) := by
  simp only [popSlot, checkPop_of_ready h, exec_ok_bind]
  rfl

theorem popSlot_of_empty (h : s.ints.sp.toNat ≤ s.cfg.rwMax.toNat) (x : FrameSlot) :
    popSlot s x = raise s .stackUnderflow := by
  cases x <;> simp [popSlot, checkPop_of_empty h]

/-- Everything one push of the frame can do. -/
theorem pushSlot_cases (s : State) (x : FrameSlot) :
    (∃ r, x = .int r ∧ s.ints.sp.toNat + 2 ≤ s.cfg.maxAddr.toNat ∧ pushSlot s x = .ok (s.stackWord (s.ints.get r))) ∨
    (∃ r, x = .flt r ∧ s.ints.sp.toNat + 4 ≤ s.cfg.maxAddr.toNat ∧ pushSlot s x = .ok (s.stackPattern (s.flts.get r))) ∨
    pushSlot s x = raise s .stackOverflow := by
  cases x with
  | int r =>
    by_cases h : s.ints.sp.toNat + 2 ≤ s.cfg.maxAddr.toNat
    · exact .inl ⟨r, rfl, h, pushWord_of_fits h _⟩
    · exact .inr (.inr (pushWord_of_full (by omega) _))
  | flt r =>
    by_cases h : s.ints.sp.toNat + 4 ≤ s.cfg.maxAddr.toNat
    · exact .inr (.inl ⟨r, rfl, h, pushPattern_of_fits h _⟩)
    · exact .inr (.inr (pushPattern_of_full (by omega) _))

/-- Everything one pop of the frame can do. -/
theorem popSlot_cases (s : State) (x : FrameSlot) :
    (∃ r, x = .int r ∧ s.cfg.rwMax.toNat < s.ints.sp.toNat ∧
      popSlot s x = .ok ((s.unstack 2).putInt r (s.loadWord (s.ints.sp - 2)))) ∨
    (∃ r, x = .flt r ∧ s.cfg.rwMax.toNat < s.ints.sp.toNat ∧
      popSlot s x = .ok ((s.unstack 4).putFlt r (s.loadPattern (s.ints.sp - 4)))) ∨
    popSlot s x = raise s .stackUnderflow := by
  by_cases h : s.cfg.rwMax.toNat < s.ints.sp.toNat
  · cases x with
    | int r => exact .inl ⟨r, rfl, h, popSlot_int_of_ready h r⟩
    | flt r => exact .inr (.inl ⟨r, rfl, h, popSlot_flt_of_ready h r⟩)
  · exact .inr (.inr (popSlot_of_empty (by omega) x))

/-- A property every push keeps holds after a sequence of pushes that completes. -/
theorem pushSlots_ok_keeps {P : State → Prop} (hpush : ∀ s x t, P s → pushSlot s x = .ok t → P t) {xs : List FrameSlot}
    {s t : State} (hs : P s) (h : pushSlots xs s = .ok t) : P t := by
  induction xs generalizing s with
  | nil =>
    cases h
    exact hs
  | cons x xs ih =>
    obtain ⟨u, hu, h⟩ := exec_bind_eq_ok.mp h
    exact ih (hpush s x u hs hu) h

/-- A sequence of pushes that stops did its first pushes, and then raised StackOverflow. -/
theorem pushSlots_error {xs : List FrameSlot} {s t : State} (h : pushSlots xs s = .error t) :
    ∃ n u, n < xs.length ∧ pushSlots (xs.take n) s = .ok u ∧ t = u.putStatus (.error .stackOverflow) := by
  induction xs generalizing s with
  | nil => cases h
  | cons x xs ih =>
    rcases exec_bind_eq_error.mp h with h | ⟨u, hu, h⟩
    · refine ⟨0, s, by simp, rfl, ?_⟩
      rcases pushSlot_cases s x with ⟨r, _, _, hx⟩ | ⟨r, _, _, hx⟩ | hx <;> rw [hx] at h <;> cases h
      rfl
    · obtain ⟨n, v, hn, hv, ht⟩ := ih h
      refine ⟨n + 1, v, by simpa using hn, ?_, ht⟩
      rw [List.take_succ_cons, pushSlots, hu]
      exact hv

/-- A property every pop keeps holds after a sequence of pops that completes. -/
theorem popSlots_ok_keeps {P : State → Prop} {xs : List FrameSlot}
    (hpop : ∀ s x t, x ∈ xs → P s → popSlot s x = .ok t → P t) {s t : State} (hs : P s) (h : popSlots xs s = .ok t) :
    P t := by
  induction xs generalizing s with
  | nil =>
    cases h
    exact hs
  | cons x xs ih =>
    obtain ⟨u, hu, h⟩ := exec_bind_eq_ok.mp h
    exact ih (fun s y u hy => hpop s y u (List.mem_cons_of_mem _ hy)) (hpop s x u (List.mem_cons_self ..) hs hu) h

/-- A sequence of pops that stops did its first pops, and then raised StackUnderflow with sp at or below RW_MAX. -/
theorem popSlots_error {xs : List FrameSlot} {s t : State} (h : popSlots xs s = .error t) :
    ∃ n u, n < xs.length ∧ popSlots (xs.take n) s = .ok u ∧ t = u.putStatus (.error .stackUnderflow) := by
  induction xs generalizing s with
  | nil => cases h
  | cons x xs ih =>
    rcases exec_bind_eq_error.mp h with h | ⟨u, hu, h⟩
    · refine ⟨0, s, by simp, rfl, ?_⟩
      rcases popSlot_cases s x with ⟨r, _, _, hx⟩ | ⟨r, _, _, hx⟩ | hx <;> rw [hx] at h <;> cases h
      rfl
    · obtain ⟨n, v, hn, hv, ht⟩ := ih h
      refine ⟨n + 1, v, by simpa using hn, ?_, ht⟩
      rw [List.take_succ_cons, popSlots, hu]
      exact hv

/-- What a completed sequence of pushes leaves alone: all but memory and sp. -/
structure PushFrame (s t : State) : Prop where
  cfg : t.cfg = s.cfg
  ints : ∃ v, t.ints = s.ints.set .sp v
  flts : t.flts = s.flts
  cmp : t.cmp = s.cmp
  status : t.status = s.status
  cycles : t.cycles = s.cycles
  lastInstr : t.lastInstr = s.lastInstr

theorem pushSlots_frame {xs : List FrameSlot} {s t : State} (h : pushSlots xs s = .ok t) : PushFrame s t := by
  refine pushSlots_ok_keeps (P := PushFrame s) ?_ ⟨rfl, ⟨s.ints.sp, rfl⟩, rfl, rfl, rfl, rfl, rfl⟩ h
  rintro u x v ⟨h1, ⟨w, h2⟩, h3, h4, h5, h6, h7⟩ hx
  rcases pushSlot_cases u x with ⟨r, -, -, h⟩ | ⟨r, -, -, h⟩ | h <;> rw [h] at hx <;> cases hx
  · exact ⟨h1, ⟨u.ints.sp + 2, by simp only [State.stackWord_ints, h2]; rfl⟩, h3, h4, h5, h6, h7⟩
  · exact ⟨h1, ⟨u.ints.sp + 4, by simp only [State.stackPattern_ints, h2]; rfl⟩, h3, h4, h5, h6, h7⟩

/-- What a completed sequence of pops leaves alone: all but sp and the registers it names. -/
structure PopFrame (xs : List FrameSlot) (s t : State) : Prop where
  cfg : t.cfg = s.cfg
  ints : ∀ r, r ≠ .sp → .int r ∉ xs → t.ints.get r = s.ints.get r
  flts : ∀ r, .flt r ∉ xs → t.flts.get r = s.flts.get r
  cmp : t.cmp = s.cmp
  status : t.status = s.status
  mem : t.mem = s.mem
  cycles : t.cycles = s.cycles
  lastInstr : t.lastInstr = s.lastInstr

theorem popSlots_frame {xs : List FrameSlot} {s t : State} (h : popSlots xs s = .ok t) : PopFrame xs s t := by
  refine popSlots_ok_keeps (P := PopFrame xs s) ?_
    ⟨rfl, fun _ _ _ => rfl, fun _ _ => rfl, rfl, rfl, rfl, rfl, rfl⟩ h
  rintro u x v hmem ⟨h1, h2, h3, h4, h5, h6, h7, h8⟩ hx
  rcases popSlot_cases u x with ⟨r, rfl, -, h⟩ | ⟨r, rfl, -, h⟩ | h <;> rw [h] at hx <;> cases hx
  · refine ⟨h1, fun q hq hn => ?_, h3, h4, h5, h6, h7, h8⟩
    have hqr : q ≠ r := fun e => hn (e ▸ hmem)
    simpa [hqr, hq] using h2 q hq hn
  · refine ⟨h1, fun q hq hn => ?_, fun q hn => ?_, h4, h5, h6, h7, h8⟩
    · simpa [hq] using h2 q hq hn
    · have hqr : q ≠ r := fun e => hn (e ▸ hmem)
      simpa [hqr] using h3 q hn

end Stack

end Sys2Proof.Machine
end

