-- ==== Sys2Proof/Laws/CallFrame.lean ====
section
/-! SUPPORT. What a sequence of pushes leaves: one run of bytes from sp upward (46_call_return.md R220), and where each register
lies in it; and what a sequence of pops leaves (R221). -/

namespace Sys2Proof.Machine

/-- The bytes a push of one register stores, lowest address first. -/
def slotBytes (s : State) : FrameSlot → List Byte
  | .int r => wordBytes s.cfg.endian (s.ints.get r)
  | .flt r => patternBytes s.cfg.endian (s.flts.get r)

/-- The bytes a sequence of pushes stores, lowest address first. -/
def slotsBytes (s : State) (xs : List FrameSlot) : List Byte := xs.flatMap (slotBytes s)

/-- How many bytes a push of one register stores. -/
def slotSize : FrameSlot → Nat
  | .int _ => 2
  | .flt _ => 4

/-- How many bytes a sequence of pushes stores. -/
def slotsSize (xs : List FrameSlot) : Nat := (xs.map slotSize).sum

@[simp] theorem slotBytes_length (s : State) (x : FrameSlot) : (slotBytes s x).length = slotSize x := by
  cases x <;> simp [slotBytes, slotSize]

@[simp] theorem slotsSize_nil : slotsSize [] = 0 := by simp [slotsSize]

@[simp] theorem slotsSize_cons (x : FrameSlot) (xs : List FrameSlot) : slotsSize (x :: xs) = slotSize x + slotsSize xs := by
  simp [slotsSize]

@[simp] theorem slotsSize_append (xs ys : List FrameSlot) : slotsSize (xs ++ ys) = slotsSize xs + slotsSize ys := by
  simp [slotsSize]

@[simp] theorem slotsBytes_length (s : State) (xs : List FrameSlot) : (slotsBytes s xs).length = slotsSize xs := by
  simp only [slotsBytes, List.length_flatMap, slotsSize, slotBytes_length]

/-- Storing two runs of bytes one after the other is storing the joined run. -/
theorem Memory.writeBytes_append (m : Memory) (a : Word) (bs cs : List Byte) :
    m.writeBytes a (bs ++ cs) = (m.writeBytes a bs).writeBytes (a + BitVec.ofNat 16 bs.length) cs := by
  induction bs generalizing m a with
  | nil => simp [Memory.writeBytes]
  | cons b bs ih =>
    rw [List.cons_append, Memory.writeBytes, ih, Memory.writeBytes, List.length_cons, BitVec.ofNat_add,
      BitVec.add_assoc, BitVec.add_comm (BitVec.ofNat 16 bs.length)]
    rfl

/-- The state after pushing `xs`, all of which fit. -/
def State.withSlots (s : State) (xs : List FrameSlot) : State :=
  (s.putMem (s.mem.writeBytes s.ints.sp (slotsBytes s xs))).putInt .sp (s.ints.sp + BitVec.ofNat 16 (slotsSize xs))

theorem pushSlot_of_fits {s : State} {x : FrameSlot} (h : s.ints.sp.toNat + slotSize x ≤ s.cfg.maxAddr.toNat) :
    pushSlot s x = .ok (s.withSlots [x]) := by
  cases x with
  | int r =>
    rw [pushSlot, pushWord_of_fits h]
    simp [State.withSlots, slotsBytes, slotBytes, slotsSize, slotSize, State.stackWord, State.storeWord,
      Memory.writeWord]
  | flt r =>
    rw [pushSlot, pushPattern_of_fits h]
    simp [State.withSlots, slotsBytes, slotBytes, slotsSize, slotSize, State.stackPattern, State.storePattern,
      Memory.writePattern]

theorem pushSlot_of_full {s : State} {x : FrameSlot} (h : s.cfg.maxAddr.toNat < s.ints.sp.toNat + slotSize x) :
    pushSlot s x = raise s .stackOverflow := by
  cases x with
  | int r => exact pushWord_of_full h _
  | flt r => exact pushPattern_of_full h _

theorem IntFile.get_set_sp {r : IntReg} (h : r ≠ .sp) (f : IntFile) (v : Word) : (f.set .sp v).get r = f.get r := by
  simp [h]

theorem slotBytes_withSlots {s : State} {xs : List FrameSlot} {y : FrameSlot} (h : y ≠ .int .sp) :
    slotBytes (s.withSlots xs) y = slotBytes s y := by
  cases y with
  | int r =>
    have hr : r ≠ .sp := fun e => h (e ▸ rfl)
    simp [slotBytes, State.withSlots, hr]
  | flt r => simp [slotBytes, State.withSlots]

/-- Pushing `xs`, none of them sp, with room for all: one run of bytes from sp upward. -/
theorem pushSlots_of_fits {s : State} {xs : List FrameSlot} (hsp : .int .sp ∉ xs)
    (h : s.ints.sp.toNat + slotsSize xs ≤ s.cfg.maxAddr.toNat) : pushSlots xs s = .ok (s.withSlots xs) := by
  induction xs generalizing s with
  | nil =>
    simp [pushSlots, State.withSlots, slotsBytes, Memory.writeBytes, State.putMem, State.putInt, pure, Except.pure,
      IntFile.set]
  | cons x xs ih =>
    simp only [List.mem_cons, not_or] at hsp
    rw [slotsSize_cons] at h
    have hmax := s.cfg.maxAddr.isLt
    rw [pushSlots, pushSlot_of_fits (by omega), exec_ok_bind, ih hsp.2]
    · have hb : slotsBytes (s.withSlots [x]) xs = slotsBytes s xs := by
        unfold slotsBytes
        exact List.flatMap_congr fun y hy => slotBytes_withSlots fun e => hsp.2 (e ▸ hy)
      have hm : (s.withSlots [x]).mem = s.mem.writeBytes s.ints.sp (slotBytes s x) := by
        simp [State.withSlots, slotsBytes]
      have hq : (s.withSlots [x]).ints.sp = s.ints.sp + BitVec.ofNat 16 (slotSize x) := by
        simp [State.withSlots]
      rw [State.withSlots, hb, hm, hq]
      simp only [State.withSlots, slotsBytes, List.flatMap_cons, Memory.writeBytes_append, slotBytes_length,
        slotsSize_cons, BitVec.ofNat_add, BitVec.add_assoc]
      rfl
    · have : (s.withSlots [x]).ints.sp.toNat = s.ints.sp.toNat + slotSize x := by
        simp only [State.withSlots, slotsSize_cons, slotsSize_nil, Nat.add_zero, State.putInt_ints,
          IntFile.sp_set_sp, State.putMem_ints]
        exact word_toNat_add_ofNat _ _ (by omega)
      rw [this]
      simp only [State.withSlots, State.putInt_cfg, State.putMem_cfg]
      omega

theorem pushSlots_append (xs ys : List FrameSlot) (s : State) :
    pushSlots (xs ++ ys) s = (pushSlots xs s >>= pushSlots ys) := by
  induction xs generalizing s with
  | nil => rfl
  | cons x xs ih =>
    simp only [List.cons_append, pushSlots]
    cases pushSlot s x with
    | ok t => simpa using ih t
    | error t => rfl

/-- Pushing `xs`, then a register that does not fit: the pushes of `xs` stay done and StackOverflow is raised. -/
theorem pushSlots_of_full {s : State} {xs ys : List FrameSlot} {y : FrameSlot} (hsp : .int .sp ∉ xs)
    (h : xs = [] ∨ s.ints.sp.toNat + slotsSize xs ≤ s.cfg.maxAddr.toNat)
    (hy : s.cfg.maxAddr.toNat < s.ints.sp.toNat + slotsSize xs + slotSize y) :
    pushSlots (xs ++ y :: ys) s = raise (s.withSlots xs) .stackOverflow := by
  have hmax := s.cfg.maxAddr.isLt
  have hfit : pushSlots xs s = .ok (s.withSlots xs) := by
    rcases h with rfl | h
    · simp [pushSlots, State.withSlots, slotsBytes, Memory.writeBytes, State.putMem, State.putInt, pure, Except.pure,
        IntFile.set]
    · exact pushSlots_of_fits hsp h
  have hsp' : (s.withSlots xs).ints.sp.toNat = s.ints.sp.toNat + slotsSize xs := by
    simp only [State.withSlots, State.putInt_ints, IntFile.sp_set_sp, State.putMem_ints]
    refine word_toNat_add_ofNat _ _ ?_
    rcases h with rfl | h
    · simpa using s.ints.sp.isLt
    · omega
  rw [pushSlots_append, hfit, exec_ok_bind, pushSlots, pushSlot_of_full, exec_raise_bind]
  rw [hsp']
  simp only [State.withSlots, State.putInt_cfg, State.putMem_cfg]
  omega

/-- Where a pushed register lies: above the bytes of those pushed before it. -/
theorem slotHolds_withSlots {s : State} (hm : s.mem.wf) {pre post : List FrameSlot} {x : FrameSlot}
    (h : s.ints.sp.toNat + slotsSize (pre ++ x :: post) ≤ 65536) :
    SlotHolds s s.cfg.endian (s.withSlots (pre ++ x :: post)).mem (s.ints.sp.toNat + slotsSize pre) x := by
  have hread : ∀ k, k < slotSize x →
      (s.withSlots (pre ++ x :: post)).mem.read (s.ints.sp.toNat + slotsSize pre + k) = (slotBytes s x).getD k 0 := by
    intro k hk
    simp only [slotsSize_append, slotsSize_cons] at h
    simp only [State.withSlots, State.putInt_mem, State.putMem_mem]
    rw [Memory.read_writeBytes hm _ _ (by simp; omega), if_pos (by simp; omega)]
    have e : s.ints.sp.toNat + slotsSize pre + k - s.ints.sp.toNat = (slotsBytes s pre).length + k := by
      rw [slotsBytes_length]
      omega
    rw [e]
    have e2 : slotsBytes s (pre ++ x :: post) = slotsBytes s pre ++ (slotBytes s x ++ slotsBytes s post) := by
      simp [slotsBytes]
    rw [e2, List.getD_append_right _ _ _ _ (by omega), Nat.add_sub_cancel_left,
      List.getD_append _ _ _ _ (by rw [slotBytes_length]; exact hk)]
  cases x with
  | int r =>
    have h0 := hread 0 (by simp [slotSize])
    have h1 := hread 1 (by simp [slotSize])
    simp only [SlotHolds, wordAt]
    rw [Nat.add_zero] at h0
    rw [h0, h1]
    simp [slotBytes, wordBytes]
  | flt r =>
    have h0 := hread 0 (by simp [slotSize])
    have h1 := hread 1 (by simp [slotSize])
    have h2 := hread 2 (by simp [slotSize])
    have h3 := hread 3 (by simp [slotSize])
    simp only [SlotHolds, patternAt]
    rw [Nat.add_zero] at h0
    rw [h0, h1, h2, h3]
    simp [slotBytes, patternBytes]

/-- A push sequence changes no byte outside its run. -/
theorem read_withSlots_of_outside {s : State} (hm : s.mem.wf) {xs : List FrameSlot}
    (h : s.ints.sp.toNat + slotsSize xs ≤ 65536) {a : Nat}
    (ha : a < s.ints.sp.toNat ∨ s.ints.sp.toNat + slotsSize xs ≤ a) : (s.withSlots xs).mem.read a = s.mem.read a := by
  simp only [State.withSlots, State.putInt_mem, State.putMem_mem]
  exact Memory.read_writeBytes_of_outside hm (by simpa using h) (by simpa using ha)

/-! What a sequence of pops leaves (46_call_return.md R221): each register with the bytes it was popped from. -/

theorem word_toNat_sub_ofNat (a : Word) (n : Nat) (h : n ≤ a.toNat) : (a - BitVec.ofNat 16 n).toNat = a.toNat - n := by
  have := a.isLt
  rw [BitVec.toNat_sub, BitVec.toNat_ofNat]
  omega

/-- The 2 bytes below sp, as a load at the lowered sp reads them. -/
theorem loadWord_below {s : State} {n : Nat} (h : n ≤ s.ints.sp.toNat) (hn : 2 ≤ n) :
    s.loadWord (s.ints.sp - BitVec.ofNat 16 n) = wordAt s.cfg.endian s.mem (s.ints.sp.toNat - n) := by
  have := s.ints.sp.isLt
  rw [State.loadWord, Memory.readWord_eq _ _ (by rw [word_toNat_sub_ofNat _ _ h]; omega), word_toNat_sub_ofNat _ _ h]

/-- The 4 bytes below sp, as a load at the lowered sp reads them. -/
theorem loadPattern_below {s : State} {n : Nat} (h : n ≤ s.ints.sp.toNat) (hn : 4 ≤ n) :
    s.loadPattern (s.ints.sp - BitVec.ofNat 16 n) = patternAt s.cfg.endian s.mem (s.ints.sp.toNat - n) := by
  have := s.ints.sp.isLt
  rw [State.loadPattern, Memory.readPattern_eq _ _ (by rw [word_toNat_sub_ofNat _ _ h]; omega),
    word_toNat_sub_ofNat _ _ h]

/-- One pop that is ready: the register holds the bytes below the old sp, and sp lies below them. -/
theorem popSlot_of_ready {s : State} {x : FrameSlot} (hx : x ≠ .int .sp) (hr : 4 ≤ s.cfg.rwMax.toNat)
    (h : s.cfg.rwMax.toNat < s.ints.sp.toNat) :
    ∃ t, popSlot s x = .ok t ∧ t.ints.sp = s.ints.sp - BitVec.ofNat 16 (slotSize x) ∧
      SlotHolds t s.cfg.endian s.mem (s.ints.sp.toNat - slotSize x) x := by
  cases x with
  | int r =>
    have hrs : r ≠ .sp := fun e => hx (e ▸ rfl)
    refine ⟨_, popSlot_int_of_ready h r, ?_, ?_⟩
    · simp [slotSize, IntFile.sp_set_of_ne hrs]
    · simpa [SlotHolds, slotSize] using loadWord_below (s := s) (n := 2) (by omega) (by omega)
  | flt r =>
    refine ⟨_, popSlot_flt_of_ready h r, ?_, ?_⟩
    · simp [slotSize]
    · simpa [SlotHolds, slotSize] using loadPattern_below (s := s) (n := 4) (by omega) (by omega)

/-- Pops that are all ready, of distinct registers other than sp: each register holds the bytes it was popped from. -/
theorem popSlots_of_ready {s : State} {xs : List FrameSlot} (hsp : .int .sp ∉ xs) (hd : xs.Nodup)
    (hr : 4 ≤ s.cfg.rwMax.toNat)
    (h : ∀ pre x post, xs = pre ++ x :: post → s.cfg.rwMax.toNat + slotsSize pre < s.ints.sp.toNat) :
    ∃ t, popSlots xs s = .ok t ∧ PopFrame xs s t ∧ t.ints.sp = s.ints.sp - BitVec.ofNat 16 (slotsSize xs) ∧
      ∀ pre x post, xs = pre ++ x :: post →
        SlotHolds t s.cfg.endian s.mem (s.ints.sp.toNat - slotsSize pre - slotSize x) x := by
  induction xs generalizing s with
  | nil => exact ⟨s, rfl, popSlots_frame rfl, by simp, fun pre x post e => by simp at e⟩
  | cons x xs ih =>
    simp only [List.mem_cons, not_or] at hsp
    rw [List.nodup_cons] at hd
    have h0 := h [] x xs rfl
    rw [slotsSize_nil, Nat.add_zero] at h0
    obtain ⟨u, hu, hus, hux⟩ := popSlot_of_ready (fun e => hsp.1 e.symm) hr h0
    have huf : PopFrame [x] s u := popSlots_frame (by rw [popSlots, hu]; rfl)
    have hsize : slotSize x ≤ 4 := by cases x <;> simp [slotSize]
    have hus' : u.ints.sp.toNat = s.ints.sp.toNat - slotSize x := by
      rw [hus]
      exact word_toNat_sub_ofNat _ _ (by omega)
    obtain ⟨t, ht, htf, hts, hth⟩ := ih (s := u) hsp.2 hd.2 (by rw [huf.cfg]; exact hr) fun pre y post e => by
      have := h (x :: pre) y post (by rw [e]; rfl)
      rw [slotsSize_cons] at this
      rw [huf.cfg, hus']
      omega
    have hrun : popSlots (x :: xs) s = .ok t := by rw [popSlots, hu, exec_ok_bind, ht]
    refine ⟨t, hrun, popSlots_frame hrun, ?_, fun pre y post e => ?_⟩
    · rw [hts, hus, slotsSize_cons, BitVec.ofNat_add, BitVec.sub_sub]
    · cases pre with
      | nil =>
        simp only [List.nil_append, List.cons.injEq] at e
        obtain ⟨rfl, rfl⟩ := e
        rw [slotsSize_nil, Nat.sub_zero]
        cases x with
        | int r =>
          have hrs : r ≠ .sp := fun e => hsp.1 (e ▸ rfl)
          simpa only [SlotHolds, htf.ints r hrs hd.1] using hux
        | flt r => simpa only [SlotHolds, htf.flts r hd.1] using hux
      | cons z pre =>
        simp only [List.cons_append, List.cons.injEq] at e
        obtain ⟨rfl, rfl⟩ := e
        have := hth pre y post rfl
        rw [huf.cfg, huf.mem, hus', Nat.sub_sub _ (slotSize x), ← slotsSize_cons] at this
        exact this

theorem popSlots_append (xs ys : List FrameSlot) (s : State) :
    popSlots (xs ++ ys) s = (popSlots xs s >>= popSlots ys) := by
  induction xs generalizing s with
  | nil => rfl
  | cons x xs ih =>
    simp only [List.cons_append, popSlots]
    cases popSlot s x with
    | ok t => simpa using ih t
    | error t => rfl

/-- Pops that complete, then one that finds sp at or below RW_MAX: those before it stay done and StackUnderflow is raised. -/
theorem popSlots_of_empty {s t : State} {xs ys : List FrameSlot} {y : FrameSlot} (h : popSlots xs s = .ok t)
    (he : t.ints.sp.toNat ≤ t.cfg.rwMax.toNat) : popSlots (xs ++ y :: ys) s = raise t .stackUnderflow := by
  rw [popSlots_append, h, exec_ok_bind, popSlots, popSlot_of_empty he, exec_raise_bind]

end Sys2Proof.Machine
end

