-- ==== Sys2Proof/Laws/Instructions.lean ====
section
/-! SUPPORT. Everything each instruction can do, one lemma an instruction: the states it may leave. A whole-machine statement
is proved by cases over these, not by unfolding the meanings. -/

namespace Sys2Proof.Machine

/-- SETI writes one allowed register, or raises a register kind. -/
theorem execSeti_cases (r : IntId) (v : Word) (s : State) :
    (∃ d, generalAllowed d = true ∧ execSeti r v s = .next (s.putInt d v)) ∨
    ∃ k, (k = .registerUnrecognized ∨ k = .registerNotAllowed) ∧ execSeti r v s = .next (s.putStatus (.error k)) := by
  rcases setIntGeneral_cases s r with ⟨d, hd, -, h⟩ | ⟨k, hk, -, h⟩
  · exact .inl ⟨d, hd, by simp [execSeti, h]⟩
  · exact .inr ⟨k, hk, by simp [execSeti, h]⟩

/-- SETF writes one float register, or raises RegisterUnrecognized. -/
theorem execSetf_cases (f : FltId) (w : Pattern) (s : State) :
    (∃ d, execSetf f w s = .next (s.putFlt d w)) ∨
    execSetf f w s = .next (s.putStatus (.error .registerUnrecognized)) := by
  rcases setFlt_cases s f with ⟨d, -, -, h⟩ | ⟨-, h⟩
  · exact .inl ⟨d, by simp [execSetf, h]⟩
  · exact .inr (by simp [execSetf, h])

/-- ADDI writes one allowed register, raising ArithmeticOverflow or not, or raises a register kind. -/
theorem execAddi_cases (a b : IntId) (s : State) :
    (∃ d v, generalAllowed d = true ∧ (execAddi a b s = .next (s.putInt d v) ∨
      execAddi a b s = .next ((s.putInt d v).putStatus (.error .arithmeticOverflow)))) ∨
    ∃ k, (k = .registerUnrecognized ∨ k = .registerNotAllowed) ∧ execAddi a b s = .next (s.putStatus (.error k)) := by
  rcases getInt_cases s a with ⟨ra, -, ha⟩ | ha
  · rcases getInt_cases s b with ⟨rb, -, hb⟩ | hb
    · rcases setIntGeneral_cases s b with ⟨d, hd, -, h⟩ | ⟨k, hk, -, h⟩
      · refine .inl ⟨d, sumOf (s.ints.get ra) (s.ints.get rb), hd, ?_⟩
        cases hw : sumWrapped (s.ints.get ra) (s.ints.get rb)
        · exact .inl (by simp [execAddi, ha, hb, h, hw])
        · exact .inr (by simp [execAddi, ha, hb, h, hw])
      · exact .inr ⟨k, hk, by simp [execAddi, ha, hb, h]⟩
    · exact .inr ⟨_, .inl rfl, by simp [execAddi, ha, hb]⟩
  · exact .inr ⟨_, .inl rfl, by simp [execAddi, ha]⟩

/-- SUBI writes one allowed register, raising ArithmeticUnderflow or not, or raises a register kind. -/
theorem execSubi_cases (a b : IntId) (s : State) :
    (∃ d v, generalAllowed d = true ∧ (execSubi a b s = .next (s.putInt d v) ∨
      execSubi a b s = .next ((s.putInt d v).putStatus (.error .arithmeticUnderflow)))) ∨
    ∃ k, (k = .registerUnrecognized ∨ k = .registerNotAllowed) ∧ execSubi a b s = .next (s.putStatus (.error k)) := by
  rcases getInt_cases s a with ⟨ra, -, ha⟩ | ha
  · rcases getInt_cases s b with ⟨rb, -, hb⟩ | hb
    · rcases setIntGeneral_cases s b with ⟨d, hd, -, h⟩ | ⟨k, hk, -, h⟩
      · refine .inl ⟨d, differenceOf (s.ints.get ra) (s.ints.get rb), hd, ?_⟩
        cases hw : differenceWrapped (s.ints.get ra) (s.ints.get rb)
        · exact .inl (by simp [execSubi, ha, hb, h, hw])
        · exact .inr (by simp [execSubi, ha, hb, h, hw])
      · exact .inr ⟨k, hk, by simp [execSubi, ha, hb, h]⟩
    · exact .inr ⟨_, .inl rfl, by simp [execSubi, ha, hb]⟩
  · exact .inr ⟨_, .inl rfl, by simp [execSubi, ha]⟩

/-- INCI writes one allowed register, or raises a register kind. -/
theorem execInci_cases (r : IntId) (s : State) :
    (∃ d v, generalAllowed d = true ∧ execInci r s = .next (s.putInt d v)) ∨
    ∃ k, (k = .registerUnrecognized ∨ k = .registerNotAllowed) ∧ execInci r s = .next (s.putStatus (.error k)) := by
  rcases getInt_cases s r with ⟨q, -, hq⟩ | hq
  · rcases setIntGeneral_cases s r with ⟨d, hd, -, h⟩ | ⟨k, hk, -, h⟩
    · exact .inl ⟨d, _, hd, by simp only [execInci, hq, h, exec_ok_bind, finish_ok]; rfl⟩
    · exact .inr ⟨k, hk, by simp [execInci, hq, h]⟩
  · exact .inr ⟨_, .inl rfl, by simp [execInci, hq]⟩

/-- DECI writes one allowed register, or raises DecrementZero or a register kind. -/
theorem execDeci_cases (r : IntId) (s : State) :
    (∃ d v, generalAllowed d = true ∧ execDeci r s = .next (s.putInt d v)) ∨
    ∃ k, (k = .registerUnrecognized ∨ k = .registerNotAllowed ∨ k = .decrementZero) ∧
      execDeci r s = .next (s.putStatus (.error k)) := by
  rcases getInt_cases s r with ⟨q, -, hq⟩ | hq
  · rcases setIntGeneral_cases s r with ⟨d, hd, hchk, h⟩ | ⟨k, hk, hchk, -⟩
    · by_cases hz : s.ints.get q = 0
      · exact .inr ⟨_, .inr (.inr rfl), by simp [execDeci, hq, hchk, hz]⟩
      · refine .inl ⟨d, s.ints.get q - 1, hd, ?_⟩
        simp only [execDeci, hq, hchk, exec_ok_bind, if_neg hz, h, finish_ok]
    · exact .inr ⟨k, hk.imp id .inl, by simp [execDeci, hq, hchk]⟩
  · exact .inr ⟨_, .inl rfl, by simp [execDeci, hq]⟩

/-- CMPI writes cmp, or raises RegisterUnrecognized. -/
theorem execCmpi_cases (a b : IntId) (s : State) :
    (∃ c, execCmpi a b s = .next (s.putCmp c)) ∨
    execCmpi a b s = .next (s.putStatus (.error .registerUnrecognized)) := by
  rcases getInt_cases s a with ⟨ra, -, ha⟩ | ha
  · rcases getInt_cases s b with ⟨rb, -, hb⟩ | hb
    · exact .inl ⟨_, by simp only [execCmpi, ha, hb, exec_ok_bind, finish_pure]; rfl⟩
    · exact .inr (by simp [execCmpi, ha, hb])
  · exact .inr (by simp [execCmpi, ha])

/-- A conditional move consumes cmp, writing one register but sp or none, or raises and keeps cmp. -/
theorem condMove_cases (p : Condition) (src dst : IntId) (s : State) :
    (s.cmp ≠ .uninitialized ∧ conditionHolds p s.cmp = true ∧
      ∃ d q, anyAllowed d = true ∧ finish (condMove p src dst s) =
        .next ((s.putInt d (s.ints.get q)).putCmp .uninitialized)) ∨
    (s.cmp ≠ .uninitialized ∧ conditionHolds p s.cmp = false ∧
      finish (condMove p src dst s) = .next (s.putCmp .uninitialized)) ∨
    ∃ k, (k = .comparisonNotInitialized ∨ k = .registerUnrecognized ∨ k = .registerNotAllowed) ∧
      finish (condMove p src dst s) = .next (s.putStatus (.error k)) := by
  by_cases hc : s.cmp = .uninitialized
  · exact .inr (.inr ⟨_, .inl rfl, by simp [condMove, hc]⟩)
  · cases hp : conditionHolds p s.cmp
    · exact .inr (.inl ⟨hc, rfl, by simp [condMove, hc, hp]⟩)
    · rcases getInt_cases s src with ⟨q, -, hq⟩ | hq
      · rcases setIntAny_cases s dst with ⟨d, hd, -, -, h⟩ | ⟨k, hk, -, h⟩
        · exact .inl ⟨hc, rfl, d, q, hd, by simp [condMove, hc, hp, hq, h]⟩
        · exact .inr (.inr ⟨k, .inr hk, by simp [condMove, hc, hp, hq, h]⟩)
      · exact .inr (.inr ⟨_, .inr (.inl rfl), by simp [condMove, hc, hp, hq]⟩)

/-- LEAI writes one register but sp, or raises InvalidAddressMultiplier or a register kind. -/
theorem execLeai_cases (base off : IntId) (mult : Byte) (dest : IntId) (s : State) :
    (∃ d v, anyAllowed d = true ∧ execLeai base off mult dest s = .next (s.putInt d v)) ∨
    ∃ k, (k = .registerUnrecognized ∨ k = .registerNotAllowed ∨ k = .invalidAddressMultiplier) ∧
      execLeai base off mult dest s = .next (s.putStatus (.error k)) := by
  rcases getInt_cases s base with ⟨qb, -, hb⟩ | hb
  · rcases getInt_cases s off with ⟨qo, -, ho⟩ | ho
    · have hm : (∃ m, multiplier s mult = .ok m) ∨ multiplier s mult = raise s .registerUnrecognized := by
        cases h : s.cfg.leaMultMode
        · exact .inl ⟨_, multiplier_literal h mult⟩
        · cases hr : s.cfg.intReg? mult with
          | some r => exact .inl ⟨_, multiplier_register h hr⟩
          | none => exact .inr (multiplier_register_none h hr)
      rcases hm with ⟨m, hm⟩ | hm
      · by_cases h2 : 2 < m
        · exact .inr ⟨_, .inr (.inr rfl), by simp [execLeai, hb, ho, hm, h2]⟩
        · rcases setIntAny_cases s dest with ⟨d, hd, -, -, h⟩ | ⟨k, hk, -, h⟩
          · exact .inl ⟨d, _, hd, by simp only [execLeai, hb, ho, hm, exec_ok_bind, if_neg h2, h, finish_ok]; rfl⟩
          · exact .inr ⟨k, hk.imp id .inl, by simp [execLeai, hb, ho, hm, h2, h]⟩
      · exact .inr ⟨_, .inl rfl, by simp [execLeai, hb, ho, hm]⟩
    · exact .inr ⟨_, .inl rfl, by simp [execLeai, hb, ho]⟩
  · exact .inr ⟨_, .inl rfl, by simp [execLeai, hb]⟩

/-- PUSHI stores 2 bytes at sp and raises sp, or raises StackOverflow or RegisterUnrecognized. -/
theorem execPushi_cases (r : IntId) (s : State) :
    (∃ v, s.ints.sp.toNat + 2 ≤ s.cfg.maxAddr.toNat ∧ execPushi r s = .next (s.stackWord v)) ∨
    ∃ k, (k = .stackOverflow ∨ k = .registerUnrecognized) ∧ execPushi r s = .next (s.putStatus (.error k)) := by
  by_cases hf : s.ints.sp.toNat + 2 ≤ s.cfg.maxAddr.toNat
  · rcases getInt_cases s r with ⟨q, -, hq⟩ | hq
    · exact .inl ⟨_, hf, by simp only [execPushi, checkPush_of_fits hf, hq, exec_ok_bind, finish_pure]; rfl⟩
    · exact .inr ⟨_, .inr rfl, by simp [execPushi, checkPush_of_fits hf, hq]⟩
  · exact .inr ⟨_, .inl rfl, by simp [execPushi, checkPush_of_full (n := 2) (by omega : s.cfg.maxAddr.toNat < _)]⟩

/-- POPI lowers sp by 2 and writes one register but sp, or raises StackUnderflow or a register kind. -/
theorem execPopi_cases (r : IntId) (s : State) :
    (∃ d, anyAllowed d = true ∧ s.cfg.rwMax.toNat < s.ints.sp.toNat ∧
      execPopi r s = .next ((s.unstack 2).putInt d (s.loadWord (s.ints.sp - 2)))) ∨
    ∃ k, (k = .stackUnderflow ∨ k = .registerUnrecognized ∨ k = .registerNotAllowed) ∧
      execPopi r s = .next (s.putStatus (.error k)) := by
  by_cases hf : s.cfg.rwMax.toNat < s.ints.sp.toNat
  · rcases setIntAny_cases s r with ⟨d, hd, hr, hchk, -⟩ | ⟨k, hk, hchk, -⟩
    · refine .inl ⟨d, hd, hf, ?_⟩
      simp only [execPopi, checkPop_of_ready hf, hchk, exec_ok_bind]
      rw [setIntAny_of_allowed (s := s.unstack 2) hr hd]
      rfl
    · exact .inr ⟨k, .inr hk, by simp [execPopi, checkPop_of_ready hf, hchk]⟩
  · exact .inr ⟨_, .inl rfl, by simp [execPopi, checkPop_of_empty (by omega : s.ints.sp.toNat ≤ _)]⟩

/-- PUSHF stores 4 bytes at sp and raises sp, or raises StackOverflow or RegisterUnrecognized. -/
theorem execPushf_cases (f : FltId) (s : State) :
    (∃ w, s.ints.sp.toNat + 4 ≤ s.cfg.maxAddr.toNat ∧ execPushf f s = .next (s.stackPattern w)) ∨
    ∃ k, (k = .stackOverflow ∨ k = .registerUnrecognized) ∧ execPushf f s = .next (s.putStatus (.error k)) := by
  by_cases hf : s.ints.sp.toNat + 4 ≤ s.cfg.maxAddr.toNat
  · rcases getFlt_cases s f with ⟨q, -, hq⟩ | hq
    · exact .inl ⟨_, hf, by simp only [execPushf, checkPush_of_fits hf, hq, exec_ok_bind, finish_pure]; rfl⟩
    · exact .inr ⟨_, .inr rfl, by simp [execPushf, checkPush_of_fits hf, hq]⟩
  · exact .inr ⟨_, .inl rfl, by simp [execPushf, checkPush_of_full (n := 4) (by omega : s.cfg.maxAddr.toNat < _)]⟩

/-- POPF lowers sp by 4 and writes one float register, or raises StackUnderflow or RegisterUnrecognized. -/
theorem execPopf_cases (f : FltId) (s : State) :
    (∃ d, s.cfg.rwMax.toNat < s.ints.sp.toNat ∧
      execPopf f s = .next ((s.unstack 4).putFlt d (s.loadPattern (s.ints.sp - 4)))) ∨
    ∃ k, (k = .stackUnderflow ∨ k = .registerUnrecognized) ∧ execPopf f s = .next (s.putStatus (.error k)) := by
  by_cases hf : s.cfg.rwMax.toNat < s.ints.sp.toNat
  · rcases setFlt_cases s f with ⟨d, hr, hchk, -⟩ | ⟨hchk, -⟩
    · refine .inl ⟨d, hf, ?_⟩
      simp only [execPopf, checkPop_of_ready hf, hchk, exec_ok_bind]
      rw [setFlt_of_some (s := s.unstack 4) hr]
      rfl
    · exact .inr ⟨_, .inr rfl, by simp [execPopf, checkPop_of_ready hf, hchk]⟩
  · exact .inr ⟨_, .inl rfl, by simp [execPopf, checkPop_of_empty (by omega : s.ints.sp.toNat ≤ _)]⟩

/-- LODI writes one allowed register, or raises MemoryAccessOutOfBounds or a register kind. -/
theorem execLodi_cases (addr : Word) (r : IntId) (s : State) :
    (∃ d, generalAllowed d = true ∧ execLodi addr r s = .next (s.putInt d (s.loadWord addr))) ∨
    ∃ k, (k = .memoryAccessOutOfBounds ∨ k = .registerUnrecognized ∨ k = .registerNotAllowed) ∧
      execLodi addr r s = .next (s.putStatus (.error k)) := by
  rcases checkWindow_cases s addr 2 with ⟨-, -, hw⟩ | hw
  · rcases setIntGeneral_cases s r with ⟨d, hd, hchk, h⟩ | ⟨k, hk, hchk, -⟩
    · exact .inl ⟨d, hd, by simp [execLodi, hw, hchk, h]⟩
    · exact .inr ⟨k, .inr hk, by simp [execLodi, hw, hchk]⟩
  · exact .inr ⟨_, .inl rfl, by simp [execLodi, hw]⟩

/-- STOI stores 2 bytes inside the window, or raises MemoryAccessOutOfBounds or RegisterUnrecognized. -/
theorem execStoi_cases (addr : Word) (r : IntId) (s : State) :
    (∃ v, s.cfg.rwMin.toNat ≤ addr.toNat ∧ addr.toNat + 2 < s.cfg.rwMax.toNat + 1 ∧
      execStoi addr r s = .next (s.storeWord addr v)) ∨
    ∃ k, (k = .memoryAccessOutOfBounds ∨ k = .registerUnrecognized) ∧ execStoi addr r s = .next (s.putStatus (.error k)) := by
  rcases checkWindow_cases s addr 2 with ⟨hlo, hhi, hw⟩ | hw
  · rcases getInt_cases s r with ⟨q, -, hq⟩ | hq
    · exact .inl ⟨_, hlo, hhi, by simp only [execStoi, hw, hq, exec_ok_bind, finish_pure]; rfl⟩
    · exact .inr ⟨_, .inr rfl, by simp [execStoi, hw, hq]⟩
  · exact .inr ⟨_, .inl rfl, by simp [execStoi, hw]⟩

/-- LODF writes one float register, or raises MemoryAccessOutOfBounds or RegisterUnrecognized. -/
theorem execLodf_cases (addr : Word) (f : FltId) (s : State) :
    (∃ d, execLodf addr f s = .next (s.putFlt d (s.loadPattern addr))) ∨
    ∃ k, (k = .memoryAccessOutOfBounds ∨ k = .registerUnrecognized) ∧ execLodf addr f s = .next (s.putStatus (.error k)) := by
  rcases checkWindow_cases s addr 4 with ⟨-, -, hw⟩ | hw
  · rcases setFlt_cases s f with ⟨d, -, hchk, h⟩ | ⟨hchk, -⟩
    · exact .inl ⟨d, by simp [execLodf, hw, hchk, h]⟩
    · exact .inr ⟨_, .inr rfl, by simp [execLodf, hw, hchk]⟩
  · exact .inr ⟨_, .inl rfl, by simp [execLodf, hw]⟩

/-- STOF stores 4 bytes inside the window, or raises MemoryAccessOutOfBounds or RegisterUnrecognized. -/
theorem execStof_cases (addr : Word) (f : FltId) (s : State) :
    (∃ w, s.cfg.rwMin.toNat ≤ addr.toNat ∧ addr.toNat + 4 < s.cfg.rwMax.toNat + 1 ∧
      execStof addr f s = .next (s.storePattern addr w)) ∨
    ∃ k, (k = .memoryAccessOutOfBounds ∨ k = .registerUnrecognized) ∧ execStof addr f s = .next (s.putStatus (.error k)) := by
  rcases checkWindow_cases s addr 4 with ⟨hlo, hhi, hw⟩ | hw
  · rcases getFlt_cases s f with ⟨q, -, hq⟩ | hq
    · exact .inl ⟨_, hlo, hhi, by simp only [execStof, hw, hq, exec_ok_bind, finish_pure]; rfl⟩
    · exact .inr ⟨_, .inr rfl, by simp [execStof, hw, hq]⟩
  · exact .inr ⟨_, .inl rfl, by simp [execStof, hw]⟩

/-- CALL pushes its frame and jumps, or pushes it and raises ExecuteOutOfCodeBlock, or stops in its pushes. -/
theorem execCall_cases (addr : Word) (s : State) :
    (∃ t, pushSlots frameSlots s = .ok t ∧ addr.toNat < s.cfg.rwMin.toNat ∧ t.cfg = s.cfg ∧
      execCall addr s = .next (t.putInt .pc addr)) ∨
    (∃ t, pushSlots frameSlots s = .ok t ∧ s.cfg.rwMin.toNat ≤ addr.toNat ∧ t.cfg = s.cfg ∧
      execCall addr s = .next (t.putStatus (.error .executeOutOfCodeBlock))) ∨
    ∃ t, pushSlots frameSlots s = .error t ∧ execCall addr s = .next t := by
  cases hp : pushSlots frameSlots s with
  | error t => exact .inr (.inr ⟨t, rfl, by rw [execCall, hp]; rfl⟩)
  | ok t =>
    have hcfg : t.cfg = s.cfg := (pushSlots_frame hp).cfg
    by_cases ha : addr.toNat < s.cfg.rwMin.toNat
    · refine .inl ⟨t, rfl, ha, hcfg, ?_⟩
      simp [execCall, hp, State.inCodeBlock, hcfg, ha]
    · refine .inr (.inl ⟨t, rfl, by omega, hcfg, ?_⟩)
      simp [execCall, hp, State.inCodeBlock, hcfg, ha]

/-- RETN leaves whatever its pops leave. -/
theorem execRetn_cases (s : State) :
    (∃ t, popSlots frameSlots.reverse s = .ok t ∧ execRetn s = .next t) ∨
    ∃ t, popSlots frameSlots.reverse s = .error t ∧ execRetn s = .next t := by
  cases hp : popSlots frameSlots.reverse s with
  | error t => exact .inr ⟨t, rfl, by rw [execRetn, hp]; rfl⟩
  | ok t => exact .inl ⟨t, rfl, by rw [execRetn, hp]; rfl⟩

/-- Every state an instruction can leave, with the fields it changed: the one list that whole-machine statements are proved
over (40_sequencer.md R114; 60_exceptions.md R242, R244). -/
inductive Effect (i : Instr) (s : State) : State → Prop
  | halt : i = .halt → Effect i s (s.putStatus .halt)
  | raised (k : ErrorKind) : i.opcode ∈ raisedBy k → Effect i s (s.putStatus (.error k))
  | general (d : IntReg) (v : Word) : generalAllowed d = true →
      i.opcode ∈ [Opcode.seti, .addi, .subi, .inci, .deci, .lodi] → Effect i s (s.putInt d v)
  | wrapped (d : IntReg) (v : Word) (k : ErrorKind) : generalAllowed d = true → i.opcode ∈ [Opcode.addi, .subi] →
      i.opcode ∈ raisedBy k → Effect i s ((s.putInt d v).putStatus (.error k))
  | float (d : FltReg) (w : Pattern) : i.opcode ∈ [Opcode.setf, .lodf] → Effect i s (s.putFlt d w)
  | compared (c : CmpFlag) : i.opcode = .cmpi → Effect i s (s.putCmp c)
  | moved (d : IntReg) (v : Word) : anyAllowed d = true → i.opcode ∈ moveOpcodes →
      Effect i s ((s.putInt d v).putCmp .uninitialized)
  | notMoved : i.opcode ∈ moveOpcodes → Effect i s (s.putCmp .uninitialized)
  | address (d : IntReg) (v : Word) : anyAllowed d = true → i.opcode = .leai → Effect i s (s.putInt d v)
  | pushedWord (v : Word) : s.ints.sp.toNat + 2 ≤ s.cfg.maxAddr.toNat → i.opcode = .pushi → Effect i s (s.stackWord v)
  | pushedPattern (w : Pattern) : s.ints.sp.toNat + 4 ≤ s.cfg.maxAddr.toNat → i.opcode = .pushf →
      Effect i s (s.stackPattern w)
  | poppedWord (d : IntReg) (v : Word) : anyAllowed d = true → s.cfg.rwMax.toNat < s.ints.sp.toNat →
      i.opcode = .popi → Effect i s ((s.unstack 2).putInt d v)
  | poppedPattern (d : FltReg) (w : Pattern) : s.cfg.rwMax.toNat < s.ints.sp.toNat → i.opcode = .popf →
      Effect i s ((s.unstack 4).putFlt d w)
  | storedWord (a v : Word) : s.cfg.rwMin.toNat ≤ a.toNat → a.toNat + 2 < s.cfg.rwMax.toNat + 1 → i.opcode = .stoi →
      Effect i s (s.storeWord a v)
  | storedPattern (a : Word) (w : Pattern) : s.cfg.rwMin.toNat ≤ a.toNat → a.toNat + 4 < s.cfg.rwMax.toNat + 1 →
      i.opcode = .stof → Effect i s (s.storePattern a w)
  | called (t : State) (addr : Word) : i.opcode = .call → pushSlots frameSlots s = .ok t →
      addr.toNat < s.cfg.rwMin.toNat → Effect i s (t.putInt .pc addr)
  | calledOutside (t : State) : i.opcode = .call → pushSlots frameSlots s = .ok t →
      Effect i s (t.putStatus (.error .executeOutOfCodeBlock))
  | callStopped (n : Nat) (t : State) : i.opcode = .call → n < 10 → pushSlots (frameSlots.take n) s = .ok t →
      Effect i s (t.putStatus (.error .stackOverflow))
  | returned (t : State) : i.opcode = .retn → popSlots frameSlots.reverse s = .ok t → Effect i s t
  | returnStopped (n : Nat) (t : State) : i.opcode = .retn → n < 10 → popSlots (frameSlots.reverse.take n) s = .ok t →
      Effect i s (t.putStatus (.error .stackUnderflow))

/-- Whatever an instruction leaves is one of the listed effects. -/
theorem exec_effect {i : Instr} {s t : State} (h : exec i s = .next t) : Effect i s t := by
  cases i <;> simp only [exec] at h
  case halt => cases h; exact .halt rfl
  case seti r v =>
    rcases execSeti_cases r v s with ⟨d, hd, h'⟩ | ⟨k, hk, h'⟩ <;> rw [h'] at h <;>
      cases h
    · exact .general d v hd (by simp [Instr.opcode])
    · exact .raised k (by rcases hk with rfl | rfl <;> simp [Instr.opcode, raisedBy])
  case setf r v =>
    rcases execSetf_cases r v s with ⟨d, h'⟩ | h' <;> rw [h'] at h <;>
      cases h
    · exact .float d v (by simp [Instr.opcode])
    · exact .raised _ (by simp [Instr.opcode, raisedBy])
  case addi a b =>
    rcases execAddi_cases a b s with ⟨d, v, hd, h' | h'⟩ | ⟨k, hk, h'⟩ <;> rw [h'] at h <;>
      cases h
    · exact .general d v hd (by simp [Instr.opcode])
    · exact .wrapped d v _ hd (by simp [Instr.opcode]) (by simp [Instr.opcode, raisedBy])
    · exact .raised k (by rcases hk with rfl | rfl <;> simp [Instr.opcode, raisedBy])
  case subi a b =>
    rcases execSubi_cases a b s with ⟨d, v, hd, h' | h'⟩ | ⟨k, hk, h'⟩ <;> rw [h'] at h <;>
      cases h
    · exact .general d v hd (by simp [Instr.opcode])
    · exact .wrapped d v _ hd (by simp [Instr.opcode]) (by simp [Instr.opcode, raisedBy])
    · exact .raised k (by rcases hk with rfl | rfl <;> simp [Instr.opcode, raisedBy])
  case inci a =>
    rcases execInci_cases a s with ⟨d, v, hd, h'⟩ | ⟨k, hk, h'⟩ <;> rw [h'] at h <;>
      cases h
    · exact .general d v hd (by simp [Instr.opcode])
    · exact .raised k (by rcases hk with rfl | rfl <;> simp [Instr.opcode, raisedBy])
  case deci a =>
    rcases execDeci_cases a s with ⟨d, v, hd, h'⟩ | ⟨k, hk, h'⟩ <;> rw [h'] at h <;>
      cases h
    · exact .general d v hd (by simp [Instr.opcode])
    · exact .raised k (by rcases hk with rfl | rfl | rfl <;> simp [Instr.opcode, raisedBy])
  case cmpi a b =>
    rcases execCmpi_cases a b s with ⟨d, h'⟩ | h' <;> rw [h'] at h <;>
      cases h
    · exact .compared d rfl
    · exact .raised _ (by simp [Instr.opcode, raisedBy])
  case leai a b c d =>
    rcases execLeai_cases a b c d s with ⟨d, v, hd, h'⟩ | ⟨k, hk, h'⟩ <;> rw [h'] at h <;>
      cases h
    · exact .address d v hd rfl
    · exact .raised k (by rcases hk with rfl | rfl | rfl <;> simp [Instr.opcode, raisedBy])
  case pushi r =>
    rcases execPushi_cases r s with ⟨v, hf, h'⟩ | ⟨k, hk, h'⟩ <;> rw [h'] at h <;>
      cases h
    · exact .pushedWord v hf rfl
    · exact .raised k (by rcases hk with rfl | rfl <;> simp [Instr.opcode, raisedBy])
  case pushf r =>
    rcases execPushf_cases r s with ⟨v, hf, h'⟩ | ⟨k, hk, h'⟩ <;> rw [h'] at h <;>
      cases h
    · exact .pushedPattern v hf rfl
    · exact .raised k (by rcases hk with rfl | rfl <;> simp [Instr.opcode, raisedBy])
  case popi r =>
    rcases execPopi_cases r s with ⟨v, hf, hg, h'⟩ | ⟨k, hk, h'⟩ <;> rw [h'] at h <;>
      cases h
    · exact .poppedWord v _ hf hg rfl
    · exact .raised k (by rcases hk with rfl | rfl | rfl <;> simp [Instr.opcode, raisedBy, moveOpcodes])
  case popf r =>
    rcases execPopf_cases r s with ⟨v, hf, h'⟩ | ⟨k, hk, h'⟩ <;> rw [h'] at h <;>
      cases h
    · exact .poppedPattern v _ hf rfl
    · exact .raised k (by rcases hk with rfl | rfl <;> simp [Instr.opcode, raisedBy])
  case lodi a r =>
    rcases execLodi_cases a r s with ⟨v, hf, h'⟩ | ⟨k, hk, h'⟩ <;> rw [h'] at h <;>
      cases h
    · exact .general v _ hf (by simp [Instr.opcode])
    · exact .raised k (by rcases hk with rfl | rfl | rfl <;> simp [Instr.opcode, raisedBy, moveOpcodes])
  case stoi a r =>
    rcases execStoi_cases a r s with ⟨v, hf, hg, h'⟩ | ⟨k, hk, h'⟩ <;> rw [h'] at h <;>
      cases h
    · exact .storedWord a v hf hg rfl
    · exact .raised k (by rcases hk with rfl | rfl | rfl <;> simp [Instr.opcode, raisedBy, moveOpcodes])
  case lodf a r =>
    rcases execLodf_cases a r s with ⟨v, h'⟩ | ⟨k, hk, h'⟩ <;> rw [h'] at h <;>
      cases h
    · exact .float v _ (by simp [Instr.opcode])
    · exact .raised k (by rcases hk with rfl | rfl <;> simp [Instr.opcode, raisedBy, moveOpcodes])
  case stof a r =>
    rcases execStof_cases a r s with ⟨v, hf, hg, h'⟩ | ⟨k, hk, h'⟩ <;> rw [h'] at h <;>
      cases h
    · exact .storedPattern a v hf hg rfl
    · exact .raised k (by rcases hk with rfl | rfl | rfl <;> simp [Instr.opcode, raisedBy, moveOpcodes])
  case call addr =>
    rcases execCall_cases addr s with ⟨u, h1, h2, h3, h'⟩ | ⟨u, h1, h2, h3, h'⟩ | ⟨u, h1, h'⟩ <;> rw [h'] at h <;>
      cases h
    · exact .called u addr rfl h1 h2
    · exact .calledOutside u rfl h1
    · obtain ⟨n, u, hn, hu, rfl⟩ := pushSlots_error h1
      exact .callStopped n u rfl hn hu
  case retn =>
    rcases execRetn_cases s with ⟨u, h1, h'⟩ | ⟨u, h1, h'⟩ <;> rw [h'] at h <;>
      cases h
    · exact .returned _ rfl h1
    · obtain ⟨n, u, hn, hu, rfl⟩ := popSlots_error h1
      exact .returnStopped n u rfl hn hu
  all_goals
    rename_i src dst
    simp only [execMeqi, execMnei, execMgti, execMgei, execMlti, execMlei] at h
    rcases condMove_cases _ src dst s with ⟨-, -, d, q, hd, h'⟩ | ⟨-, -, h'⟩ | ⟨k, hk, h'⟩ <;> rw [h'] at h <;>
      cases h
    · exact .moved d _ hd (by simp [Instr.opcode, moveOpcodes])
    · exact .notMoved (by simp [Instr.opcode, moveOpcodes])
    · exact .raised k (by rcases hk with rfl | rfl | rfl <;> simp [Instr.opcode, raisedBy, moveOpcodes])

end Sys2Proof.Machine
end

