-- ==== Sys2Proof/Laws/PerInstr.lean ====
section
/-! SUPPORT. Per-instruction facts about the encoding: the operand fields of an instruction's record are its operands. -/

namespace Sys2Proof.Laws.OperandFields

/-- Reading the operand fields of the encoder's record gives the instruction back, under every configuration: no operand bit is
dropped and no two fields are swapped between encoder and decoder (30_encoding.md R81, R91). -/
def Statement (i : Instr) : Prop := ∀ c : Config, operandsOf c i.opcode (encode c i) = i

theorem halt : Statement (.halt) := fun _ => rfl

theorem seti (r : IntId) (v : Word) : Statement (.seti r v) := fun c => congrArg (Instr.seti r) (assembleWord_wordByte c.endian v)

theorem setf (f : FltId) (w : Pattern) : Statement (.setf f w) := fun c => congrArg (Instr.setf f) (assemblePattern_patternByte c.endian w)

theorem addi (a : IntId) (b : IntId) : Statement (.addi a b) := fun _ => rfl

theorem subi (a : IntId) (b : IntId) : Statement (.subi a b) := fun _ => rfl

theorem inci (r : IntId) : Statement (.inci r) := fun _ => rfl

theorem deci (r : IntId) : Statement (.deci r) := fun _ => rfl

theorem cmpi (a : IntId) (b : IntId) : Statement (.cmpi a b) := fun _ => rfl

theorem meqi (src : IntId) (dst : IntId) : Statement (.meqi src dst) := fun _ => rfl

theorem mnei (src : IntId) (dst : IntId) : Statement (.mnei src dst) := fun _ => rfl

theorem mgti (src : IntId) (dst : IntId) : Statement (.mgti src dst) := fun _ => rfl

theorem mgei (src : IntId) (dst : IntId) : Statement (.mgei src dst) := fun _ => rfl

theorem mlti (src : IntId) (dst : IntId) : Statement (.mlti src dst) := fun _ => rfl

theorem mlei (src : IntId) (dst : IntId) : Statement (.mlei src dst) := fun _ => rfl

theorem leai (base : IntId) (off : IntId) (mult : Byte) (dest : IntId) : Statement (.leai base off mult dest) := fun _ => rfl

theorem pushi (r : IntId) : Statement (.pushi r) := fun _ => rfl

theorem popi (r : IntId) : Statement (.popi r) := fun _ => rfl

theorem pushf (f : FltId) : Statement (.pushf f) := fun _ => rfl

theorem popf (f : FltId) : Statement (.popf f) := fun _ => rfl

theorem lodi (addr : Word) (r : IntId) : Statement (.lodi addr r) := fun c => congrArg (Instr.lodi · r) (assembleWord_wordByte c.endian addr)

theorem stoi (addr : Word) (r : IntId) : Statement (.stoi addr r) := fun c => congrArg (Instr.stoi · r) (assembleWord_wordByte c.endian addr)

theorem lodf (addr : Word) (f : FltId) : Statement (.lodf addr f) := fun c => congrArg (Instr.lodf · f) (assembleWord_wordByte c.endian addr)

theorem stof (addr : Word) (f : FltId) : Statement (.stof addr f) := fun c => congrArg (Instr.stof · f) (assembleWord_wordByte c.endian addr)

theorem call (addr : Word) : Statement (.call addr) := fun c => congrArg Instr.call (assembleWord_wordByte c.endian addr)

theorem retn : Statement (.retn) := fun _ => rfl

end Sys2Proof.Laws.OperandFields
end

