-- ==== Sys2Proof/Laws/Run.lean ====
section
/-! SUPPORT. Runs of several steps, one step at a time (40_sequencer.md R110). -/

namespace Sys2Proof.Machine

theorem core_run_succ {M : Host.Core} {n : Nat} {s t : M.State} (h : M.run (n + 1) s = .next t) :
    ∃ u, M.step s = .next u ∧ M.run n u = .next t := by
  simp only [Host.Core.run] at h
  cases hs : M.step s with
  | next u =>
    rw [hs] at h
    exact ⟨u, rfl, h⟩
  | fault r =>
    rw [hs] at h
    cases h
  | refused r =>
    rw [hs] at h
    cases h

/-- A run of `n + 1` steps is a step and a run of `n`. -/
theorem run_succ {n : Nat} {s t : State} (h : Sys2Proof.core.run (n + 1) s = .next t) :
    ∃ u : State, step s = .next u ∧ Sys2Proof.core.run n u = .next t :=
  core_run_succ (M := Sys2Proof.core) h

theorem core_run_fault {M : Host.Core} {n : Nat} {s : M.State} {r : M.Fault} (h : M.run (n + 1) s = .fault r) :
    M.step s = .fault r ∨ ∃ u, M.step s = .next u ∧ M.run n u = .fault r := by
  simp only [Host.Core.run] at h
  cases hs : M.step s with
  | next u =>
    rw [hs] at h
    exact .inr ⟨u, rfl, h⟩
  | fault q =>
    rw [hs] at h
    cases h
    exact .inl rfl
  | refused q =>
    rw [hs] at h
    cases h

/-- A run of `n + 1` steps that faults faults at its first step, or after it. -/
theorem run_fault {n : Nat} {s : State} {r : Fault} (h : Sys2Proof.core.run (n + 1) s = .fault r) :
    step s = .fault r ∨ ∃ u : State, step s = .next u ∧ Sys2Proof.core.run n u = .fault r :=
  core_run_fault (M := Sys2Proof.core) h

/-- What every step keeps, every run keeps. -/
theorem run_keeps {P : State → State → Prop} (hrefl : ∀ s, P s s) (hstep : ∀ s u t, step s = .next u → P u t → P s t)
    {n : Nat} {s t : State} (h : Sys2Proof.core.run n s = .next t) : P s t := by
  induction n generalizing s with
  | zero =>
    cases h
    exact hrefl _
  | succ n ih =>
    obtain ⟨u, hs, h⟩ := run_succ h
    exact hstep s u t hs (ih h)

end Sys2Proof.Machine
end

