-- ==== Sys2Proof/Laws/Tables.lean ====
section
/-! SUPPORT. Laws of the configuration's tables: looking up the byte of a name gives the name back, and the other way. -/

namespace Sys2Proof

variable {α : Type}

theorem mem_of_nameOf? {rows : List (Byte × α)} {b : Byte} {x : α} (h : nameOf? rows b = some x) : (b, x) ∈ rows := by
  induction rows with
  | nil => simp [nameOf?] at h
  | cons row rows ih =>
    obtain ⟨k, y⟩ := row
    by_cases hk : k = b
    · simp only [nameOf?, hk, if_true, Option.some.injEq] at h
      simp [hk, h]
    · simp only [nameOf?, hk, if_false] at h
      exact List.mem_cons_of_mem _ (ih h)

theorem nameOf?_of_mem {rows : List (Byte × α)} (hk : (rows.map Prod.fst).Nodup) {b : Byte} {x : α}
    (h : (b, x) ∈ rows) : nameOf? rows b = some x := by
  induction rows with
  | nil => simp at h
  | cons row rows ih =>
    obtain ⟨k, y⟩ := row
    simp only [List.map_cons, List.nodup_cons] at hk
    rcases List.mem_cons.mp h with h | h
    · obtain ⟨rfl, rfl⟩ := Prod.mk.injEq _ _ _ _ ▸ h
      simp [nameOf?]
    · have : k ≠ b := fun e => hk.1 (e ▸ List.mem_map_of_mem (f := Prod.fst) h)
      simpa [nameOf?, this] using ih hk.2 h

variable [DecidableEq α]

theorem mem_of_byteOf? {rows : List (Byte × α)} {b : Byte} {x : α} (h : byteOf? rows x = some b) : (b, x) ∈ rows := by
  induction rows with
  | nil => simp [byteOf?] at h
  | cons row rows ih =>
    obtain ⟨k, y⟩ := row
    by_cases hk : y = x
    · simp only [byteOf?, hk, if_true, Option.some.injEq] at h
      simp [hk, h]
    · simp only [byteOf?, hk, if_false] at h
      exact List.mem_cons_of_mem _ (ih h)

theorem byteOf?_of_mem {rows : List (Byte × α)} (hk : (rows.map Prod.snd).Nodup) {b : Byte} {x : α}
    (h : (b, x) ∈ rows) : byteOf? rows x = some b := by
  induction rows with
  | nil => simp at h
  | cons row rows ih =>
    obtain ⟨k, y⟩ := row
    simp only [List.map_cons, List.nodup_cons] at hk
    rcases List.mem_cons.mp h with h | h
    · obtain ⟨rfl, rfl⟩ := Prod.mk.injEq _ _ _ _ ▸ h
      simp [byteOf?]
    · have : y ≠ x := fun e => hk.1 (e ▸ List.mem_map_of_mem (f := Prod.snd) h)
      simpa [byteOf?, this] using ih hk.2 h

/-- In a table with one row per byte, the byte found for a name stands for that name. -/
theorem nameOf?_byteOf? {rows : List (Byte × α)} (hk : tableInjective rows) {x : α} {b : Byte}
    (h : byteOf? rows x = some b) : nameOf? rows b = some x :=
  nameOf?_of_mem hk.1 (mem_of_byteOf? h)

/-- In a table with one row per name, the name found for a byte is selected by that byte. -/
theorem byteOf?_nameOf? {rows : List (Byte × α)} (hk : tableInjective rows) {x : α} {b : Byte}
    (h : nameOf? rows b = some x) : byteOf? rows x = some b :=
  byteOf?_of_mem hk.2 (mem_of_nameOf? h)

theorem mem_allOpcodes (o : Opcode) : o ∈ allOpcodes := by cases o <;> decide

theorem mem_allIntRegs (r : IntReg) : r ∈ allIntRegs := by cases r <;> decide

theorem mem_allFltRegs (r : FltReg) : r ∈ allFltRegs := by cases r <;> decide

/-- In an admitted configuration the opcode byte of a mnemonic selects it. -/
theorem opcodeAt?_opcodeByte {c : Config} (hc : c.Valid) (o : Opcode) : c.opcodeAt? (c.opcodeByte o) = some o := by
  obtain ⟨hinj, hall⟩ := hc.2.1
  obtain ⟨b, hb⟩ := Option.isSome_iff_exists.mp (hall o (mem_allOpcodes o))
  simpa [Config.opcodeAt?, Config.opcodeByte, hb] using nameOf?_byteOf? hinj hb

/-- In an admitted configuration the mnemonic of an opcode byte has that byte. -/
theorem opcodeByte_of_opcodeAt? {c : Config} (hc : c.Valid) {b : Byte} {o : Opcode} (h : c.opcodeAt? b = some o) :
    c.opcodeByte o = b := by
  simp [Config.opcodeByte, byteOf?_nameOf? hc.2.1.1 h]

/-- In an admitted configuration the id of an integer register names it. -/
theorem intReg?_intId {c : Config} (hc : c.Valid) (r : IntReg) : c.intReg? (c.intId r) = some r := by
  obtain ⟨hinj, hall⟩ := hc.2.2.1
  obtain ⟨b, hb⟩ := Option.isSome_iff_exists.mp (hall r (mem_allIntRegs r))
  simpa [Config.intReg?, Config.intId, hb] using nameOf?_byteOf? hinj hb

/-- In an admitted configuration the id of a float register names it. -/
theorem fltReg?_fltId {c : Config} (hc : c.Valid) (r : FltReg) : c.fltReg? (c.fltId r) = some r := by
  obtain ⟨hinj, hall⟩ := hc.2.2.2
  obtain ⟨b, hb⟩ := Option.isSome_iff_exists.mp (hall r (mem_allFltRegs r))
  simpa [Config.fltReg?, Config.fltId, hb] using nameOf?_byteOf? hinj hb

/-- Decoding reads the opcode byte first; it fails only on a byte outside the map. -/
theorem decode_eq_ok_iff {c : Config} {r : Record} {i : Instr} :
    decode c r = .ok i ↔ ∃ o, c.opcodeAt? r.b0 = some o ∧ operandsOf c o r = i := by
  unfold decode
  cases c.opcodeAt? r.b0 <;> simp

theorem decode_eq_error_iff {c : Config} {r : Record} {e : DecodeError} :
    decode c r = .error e ↔ c.opcodeAt? r.b0 = none ∧ e = .unrecognizedOpcode r.b0 := by
  unfold decode
  cases c.opcodeAt? r.b0 <;> simp [eq_comm]

@[simp] theorem operandsOf_opcode (c : Config) (o : Opcode) (r : Record) : (operandsOf c o r).opcode = o := by
  cases o <;> rfl

@[simp] theorem encode_b0 (c : Config) (i : Instr) : (encode c i).b0 = c.opcodeByte i.opcode := by
  cases i <;> rfl

end Sys2Proof
end

