-- ==== Sys2Proof/Laws/Step.lean ====
section
/-! SUPPORT. What a step can do, said once. -/

namespace Sys2Proof.Machine

/-- What the sequencer hands on when the configuration is admitted, the core Running and the fetch in range. -/
theorem prepare_of_running {s : State} (hc : s.cfg.Valid) (hs : s.status = .noError) (hp : s.ints.pc.toNat ≤ 0xFFFA) :
    prepare s = match decode s.cfg s.fetched with
      | .ok i => .execute i s.executing
      | .error _ => .answer (.next s.undecoded) := by
  rw [prepare, if_neg (not_not.mpr hc), if_neg (not_not.mpr hs), if_pos (by simpa [State.fetchInRange] using hp)]
  all_goals cases decode s.cfg s.fetched <;> rfl

/-- Everything a step that has a next state can be. -/
theorem step_eq_next {s t : State} (h : step s = .next t) :
    s.cfg.Valid ∧ s.status = .noError ∧ s.ints.pc.toNat ≤ 0xFFFA ∧
      ((∃ i, decode s.cfg s.fetched = .ok i ∧ exec i s.executing = .next t) ∨
        (s.cfg.opcodeAt? s.fetched.b0 = none ∧ t = s.undecoded)) := by
  by_cases hc : s.cfg.Valid
  · by_cases hs : s.status = .noError
    · by_cases hp : s.ints.pc.toNat ≤ 0xFFFA
      · refine ⟨hc, hs, hp, ?_⟩
        rw [step, prepare_of_running hc hs hp] at h
        cases hd : decode s.cfg s.fetched with
        | ok i =>
          rw [hd] at h
          exact .inl ⟨i, rfl, h⟩
        | error e =>
          rw [hd] at h
          cases h
          exact .inr ⟨(decode_eq_error_iff.mp hd).1, rfl⟩
      · rw [step, prepare, if_neg (not_not.mpr hc), if_neg (not_not.mpr hs),
          if_neg (by simpa [State.fetchInRange] using hp)] at h
        cases h
    · rw [step, prepare, if_neg (not_not.mpr hc), if_pos hs] at h
      cases h
  · rw [step, prepare, if_pos hc] at h
    cases h

/-- The fetched record, byte by byte, when the fetch is in range (40_sequencer.md R111). -/
theorem State.fetched_eq {s : State} (hp : s.ints.pc.toNat ≤ 0xFFFA) :
    s.fetched = ⟨s.mem.read s.ints.pc.toNat, s.mem.read (s.ints.pc.toNat + 1), s.mem.read (s.ints.pc.toNat + 2),
      s.mem.read (s.ints.pc.toNat + 3), s.mem.read (s.ints.pc.toNat + 4), s.mem.read (s.ints.pc.toNat + 5)⟩ := by
  simp only [State.fetched, Memory.readRecord]
  rw [Memory.readAt_eq _ (by omega), Memory.readAt_eq _ (by omega), Memory.readAt_eq _ (by omega),
    Memory.readAt_eq _ (by omega), Memory.readAt_eq _ (by omega), Memory.readAt_eq _ (by omega), Nat.add_zero]

section Executing

variable (s : State)

@[simp] theorem State.executing_cfg : s.executing.cfg = s.cfg := rfl
@[simp] theorem State.executing_ints : s.executing.ints = s.ints.set .pc (s.ints.pc + 6) := rfl
@[simp] theorem State.executing_flts : s.executing.flts = s.flts := rfl
@[simp] theorem State.executing_cmp : s.executing.cmp = s.cmp := rfl
@[simp] theorem State.executing_status : s.executing.status = s.status := rfl
@[simp] theorem State.executing_mem : s.executing.mem = s.mem := rfl
@[simp] theorem State.executing_cycles : s.executing.cycles = s.cycles + 1 := rfl
@[simp] theorem State.executing_lastInstr : s.executing.lastInstr = s.fetched := rfl

@[simp] theorem State.undecoded_cfg : s.undecoded.cfg = s.cfg := rfl
@[simp] theorem State.undecoded_ints : s.undecoded.ints = s.ints := rfl
@[simp] theorem State.undecoded_flts : s.undecoded.flts = s.flts := rfl
@[simp] theorem State.undecoded_cmp : s.undecoded.cmp = s.cmp := rfl
@[simp] theorem State.undecoded_status : s.undecoded.status = .error .unrecognizedOpcode := rfl
@[simp] theorem State.undecoded_mem : s.undecoded.mem = s.mem := rfl
@[simp] theorem State.undecoded_cycles : s.undecoded.cycles = s.cycles + 1 := rfl
@[simp] theorem State.undecoded_lastInstr : s.undecoded.lastInstr = s.fetched := rfl

end Executing

end Sys2Proof.Machine
end

