-- ==== Sys2Proof/Laws/Terms.lean ====
section
/-! SUPPORT. The terms of Safety.lean in the terms of the meanings: the same conditions, written the two ways. -/

namespace Sys2Proof.Machine

theorem isGeneral_iff {r : IntReg} : IsGeneral r ↔ generalAllowed r = true := by
  cases r <;> simp [IsGeneral, generalAllowed]

theorem not_isGeneral_iff {r : IntReg} : ¬ IsGeneral r ↔ generalAllowed r = false := by
  rw [isGeneral_iff, Bool.not_eq_true]

theorem ne_sp_iff {r : IntReg} : r ≠ .sp ↔ anyAllowed r = true := by cases r <;> simp [anyAllowed]

/-- The overflow test over the integers and over the naturals (log 6). -/
theorem pushFits_iff {s : State} {n : Nat} : PushFits s n ↔ s.ints.sp.toNat + n ≤ s.cfg.maxAddr.toNat := by
  simp only [PushFits]
  omega

/-- The window test over the integers and over the naturals (log 6). -/
theorem inWindow_iff {c : Config} {addr : Word} {n : Nat} :
    InWindow c addr n ↔ c.rwMin.toNat ≤ addr.toNat ∧ addr.toNat + n < c.rwMax.toNat + 1 := by
  simp only [InWindow]
  omega

/-- ADDI's wrap test is the carry out of bit 15 (41_arithmetic.md R134, R135). -/
theorem sumWrapped_eq (a b : Word) : sumWrapped a b = decide (2 ^ 16 ≤ a.toNat + b.toNat) := by
  have := a.isLt
  have := b.isLt
  simp only [sumWrapped, sumOf, BitVec.toNat_ofNat]
  congr 1
  apply propext
  omega

theorem differenceOf_eq_sub (a b : Word) : differenceOf a b = b - a := by
  have := a.isLt
  have := b.isLt
  apply BitVec.eq_of_toNat_eq
  rw [differenceOf, BitVec.toNat_ofInt, BitVec.toNat_sub]
  omega

/-- SUBI's wrap test is the borrow (41_arithmetic.md R136, R137). -/
theorem differenceWrapped_eq (a b : Word) : differenceWrapped a b = decide (b.toNat < a.toNat) := by
  have := a.isLt
  have := b.isLt
  simp only [differenceWrapped, differenceOf_eq_sub, BitVec.toNat_sub]
  congr 1
  apply propext
  omega

theorem predicateHolds_iff (p : Condition) (c : CmpFlag) : PredicateHolds p c ↔ conditionHolds p c = true := by
  cases p <;> cases c <;> simp [PredicateHolds, conditionHolds]

theorem exec_moveOf (p : Condition) (src dst : IntId) (s : State) :
    exec (moveOf p src dst) s = finish (condMove p src dst s) := by
  cases p <;> rfl

/-- A 2-byte store below the top of memory leaves its two bytes and no other change. -/
theorem storedWord_of_write {s t : State} {a v : Word} (hm : s.mem.wf) (h : a.toNat + 1 < 65536)
    (ht : t.mem = s.mem.writeWord s.cfg.endian a v) : StoredWord s t a.toNat v := by
  have hw := Memory.read_writeWord hm s.cfg.endian a v h
  refine ⟨by rw [ht, hw]; simp, by rw [ht, hw]; simp, fun x hx => ?_⟩
  rw [ht, hw, if_neg (by omega), if_neg (by omega)]

/-- A 4-byte store below the top of memory leaves its four bytes and no other change. -/
theorem storedPattern_of_write {s t : State} {a : Word} {w : Pattern} (hm : s.mem.wf) (h : a.toNat + 3 < 65536)
    (ht : t.mem = s.mem.writePattern s.cfg.endian a w) : StoredPattern s t a.toNat w := by
  have hw := Memory.read_writePattern hm s.cfg.endian a w h
  refine ⟨fun k hk => ?_, fun x hx => ?_⟩ <;> rw [ht, hw]
  · rcases (by omega : k = 0 ∨ k = 1 ∨ k = 2 ∨ k = 3) with rfl | rfl | rfl | rfl <;> simp
  · rw [if_neg (by omega), if_neg (by omega), if_neg (by omega), if_neg (by omega)]

end Sys2Proof.Machine
end

