-- ==== Sys2Proof/Tests/Slice0.lean ====
section
/-! SUPPORT. The model's own tests: the checks of WellFormed on ill-formed terms, decoding of words written out from the spec's
encodings, one-step tests on the vectors of 95_test_vectors.md, and a witness for the hypotheses of every statement. -/

namespace Sys2Proof.Tests

open Sys2Proof Sys2Proof.Machine

/-! ### Helpers -/

/-- The reset state under `EX`, with its integer registers changed (95_test_vectors.md, section 1). -/
def withInts (f : IntFile → IntFile) : State := { State.reset with ints := f State.reset.ints }

/-- A state with some bytes of memory stored from an address upward. -/
def withBytes (a : Word) (bs : List Byte) (s : State) : State := s.putMem (s.mem.writeBytes a bs)

/-- A state with a comparison flag. -/
def withCmp (c : CmpFlag) (s : State) : State := { s with cmp := c }

/-- A state with a float register set. -/
def withFlt (r : FltReg) (w : Pattern) (s : State) : State := { s with flts := s.flts.set r w }

/-- The next state of an answer, if it has one. -/
def nextOf : Answer → Option State
  | .next t => some t
  | _ => none

/-- One step from `s` with the record at pc, and what it leaves. -/
def after (s : State) (ib : Record) : Option State := nextOf (step (s.placeRecord ib))

/-- Some bytes of a state's memory. -/
def bytesAt (t : State) (a : Nat) (n : Nat) : List Byte := (List.range n).map fun k => t.mem.read (a + k)

theorem exists_of_nextOf {a : Answer} {P : State → Bool} (h : (nextOf a).any P = true) : ∃ t, a = .next t ∧ P t = true := by
  cases a with
  | next t => exact ⟨t, rfl, h⟩
  | fault r => cases h
  | refused r => cases h

/-! ### WellFormed: each check refuses a term (30_encoding.md R84, R90; 10_state.md R22) -/

theorem test_wellFormed_refuses_an_integer_id :
    ∀ i ∈ ([.seti 0x08 0, .addi 0x08 3, .addi 3 0x08, .subi 0x08 3, .subi 3 0x08, .inci 0x08, .deci 0xFF, .cmpi 0x08 3,
      .cmpi 3 0x08, .meqi 0x08 3, .meqi 3 0x08, .mnei 0x08 3, .mnei 3 0x08, .mgti 0x08 3, .mgti 3 0x08, .mgei 0x08 3,
      .mgei 3 0x08, .mlti 0x08 3, .mlti 3 0x08, .mlei 0x08 3, .mlei 3 0x08, .leai 0x08 3 0 3, .leai 3 0x08 0 3,
      .leai 3 3 0 0x08, .pushi 0x08, .popi 0x08, .lodi 0x4000 0x08, .stoi 0x4000 0x08] : List Instr),
      i.wellFormed Config.ex = false := by decide

theorem test_wellFormed_refuses_a_float_id :
    ∀ i ∈ ([.setf 0x05 0, .pushf 0x05, .popf 0xFF, .lodf 0x4000 0x05, .stof 0x4000 0x05] : List Instr),
      i.wellFormed Config.ex = false := by decide

/-- The multiplier is checked only where it names a register (43_address.md R171). -/
theorem test_wellFormed_multiplier :
    (Instr.leai 3 4 0x08 5).wellFormed { Config.ex with leaMultMode := .register } = false ∧
    (Instr.leai 3 4 0x07 5).wellFormed { Config.ex with leaMultMode := .register } = true ∧
    (Instr.leai 3 4 0x08 5).wellFormed Config.ex = true := by decide

theorem test_wellFormed_accepts :
    ∀ i ∈ ([.halt, .seti 0x07 0xFFFF, .setf 0x04 0, .addi 0 7, .subi 7 0, .inci 7, .deci 7, .cmpi 1 2, .meqi 6 0, .mnei 0 1,
      .mgti 6 0, .mgei 3 7, .mlti 4 1, .mlei 4 1, .leai 0 7 0xFF 1, .pushi 7, .popi 1, .pushf 4, .popf 4, .lodi 0 7,
      .stoi 0xFFFF 7, .lodf 0 4, .stof 0 4, .call 0xFFFF, .retn] : List Instr), i.wellFormed Config.ex = true := by
  decide

/-! ### Configurations (00_scope.md R8) -/

theorem test_ex_is_valid : Config.ex.Valid := by decide

/-- The least bounds R8 admits, and the two sides of each. -/
theorem test_bounds_edges :
    ({ Config.ex with rwMin := 0x0006, rwMax := 0x000A, maxAddr := 0x0026 } : Config).boundsOk ∧
    ¬ ({ Config.ex with rwMin := 0x0005 } : Config).boundsOk ∧
    ¬ ({ Config.ex with rwMin := 0x4000, rwMax := 0x4003 } : Config).boundsOk ∧
    ¬ ({ Config.ex with rwMax := 0xFFE4 } : Config).boundsOk ∧ ({ Config.ex with rwMax := 0xFFE3 } : Config).boundsOk := by
  decide

theorem test_ambiguous_table_is_refused :
    ¬ ({ Config.ex with opcodeMap := (0x02, .halt) :: Config.ex.opcodeMap } : Config).Valid := by decide

/-! ### Decoding: words written out from 30_encoding.md R86, R91 and R93, and 95_test_vectors.md -/

/-- R93: `ADDI ir0 ir1` is 04 03 04 00 00 00: bits 0000_0100, 0000_0011, 0000_0100, then zeros. -/
theorem test_decode_addi_bit_by_bit :
    decode Config.ex ⟨0b00000100, 0b00000011, 0b00000100, 0b00000000, 0b00000000, 0b00000000⟩ = .ok (.addi 0b011 0b100) := by
  decide

/-- Vectors A1, F1, B1, I1, E1, Q1. -/
theorem test_decode_arithmetic :
    decode Config.ex ⟨0x02, 0x03, 0xFF, 0x7F, 0x00, 0x00⟩ = .ok (.seti 3 0x7FFF) ∧
    decode Config.ex ⟨0x03, 0x00, 0x00, 0x00, 0xC0, 0x3F⟩ = .ok (.setf 0 0x3FC00000) ∧
    decode Config.ex ⟨0x05, 0x03, 0x04, 0x00, 0x00, 0x00⟩ = .ok (.subi 3 4) ∧
    decode Config.ex ⟨0x06, 0x05, 0x00, 0x00, 0x00, 0x00⟩ = .ok (.inci 5) ∧
    decode Config.ex ⟨0x07, 0x03, 0x00, 0x00, 0x00, 0x00⟩ = .ok (.deci 3) ∧
    decode Config.ex ⟨0x08, 0x03, 0x04, 0x00, 0x00, 0x00⟩ = .ok (.cmpi 3 4) := by decide

/-- The examples of 42_conditional_move.md R152 to R157. -/
theorem test_decode_moves :
    decode Config.ex ⟨0x09, 0x05, 0x06, 0x00, 0x00, 0x00⟩ = .ok (.meqi 5 6) ∧
    decode Config.ex ⟨0x0A, 0x05, 0x06, 0x00, 0x00, 0x00⟩ = .ok (.mnei 5 6) ∧
    decode Config.ex ⟨0x0B, 0x06, 0x00, 0x00, 0x00, 0x00⟩ = .ok (.mgti 6 0) ∧
    decode Config.ex ⟨0x0C, 0x03, 0x07, 0x00, 0x00, 0x00⟩ = .ok (.mgei 3 7) ∧
    decode Config.ex ⟨0x0D, 0x04, 0x01, 0x00, 0x00, 0x00⟩ = .ok (.mlti 4 1) ∧
    decode Config.ex ⟨0x0E, 0x04, 0x01, 0x00, 0x00, 0x00⟩ = .ok (.mlei 4 1) := by decide

/-- Vectors L1, K1, K2, K11, K14. -/
theorem test_decode_address_and_stack :
    decode Config.ex ⟨0x0F, 0x03, 0x04, 0x02, 0x00, 0x00⟩ = .ok (.leai 3 4 2 0) ∧
    decode Config.ex ⟨0x10, 0x03, 0x00, 0x00, 0x00, 0x00⟩ = .ok (.pushi 3) ∧
    decode Config.ex ⟨0x11, 0x04, 0x00, 0x00, 0x00, 0x00⟩ = .ok (.popi 4) ∧
    decode Config.ex ⟨0x12, 0x00, 0x00, 0x00, 0x00, 0x00⟩ = .ok (.pushf 0) ∧
    decode Config.ex ⟨0x13, 0x02, 0x00, 0x00, 0x00, 0x00⟩ = .ok (.popf 2) := by decide

/-- Vectors M6, M7, M12, M15, R1, R7, S1: the address comes after the register in the bytes and before it in the text. -/
theorem test_decode_memory_and_control :
    decode Config.ex ⟨0x14, 0x04, 0xFD, 0xBF, 0x00, 0x00⟩ = .ok (.lodi 0xBFFD 4) ∧
    decode Config.ex ⟨0x15, 0x03, 0xFD, 0xBF, 0x00, 0x00⟩ = .ok (.stoi 0xBFFD 3) ∧
    decode Config.ex ⟨0x16, 0x01, 0xFB, 0xBF, 0x00, 0x00⟩ = .ok (.lodf 0xBFFB 1) ∧
    decode Config.ex ⟨0x17, 0x00, 0xFC, 0xBF, 0x00, 0x00⟩ = .ok (.stof 0xBFFC 0) ∧
    decode Config.ex ⟨0x18, 0xFF, 0x3F, 0x00, 0x00, 0x00⟩ = .ok (.call 0x3FFF) ∧
    decode Config.ex ⟨0x19, 0x00, 0x00, 0x00, 0x00, 0x00⟩ = .ok .retn ∧
    decode Config.ex ⟨0x01, 0x00, 0x00, 0x00, 0x00, 0x00⟩ = .ok .halt := by decide

/-- Vectors S2, S3, S4: 0x00, 0x1A and 0xFF are in no row of the opcode map. -/
theorem test_decode_refuses_by_name :
    decode Config.ex ⟨0x00, 0, 0, 0, 0, 0⟩ = .error (.unrecognizedOpcode 0x00) ∧
    decode Config.ex ⟨0x1A, 0, 0, 0, 0, 0⟩ = .error (.unrecognizedOpcode 0x1A) ∧
    decode Config.ex ⟨0xFF, 0, 0, 0, 0, 0⟩ = .error (.unrecognizedOpcode 0xFF) := by decide

/-- Vector C6: ids that name no register decode (30_encoding.md R88). -/
theorem test_decode_keeps_an_unknown_id :
    decode Config.ex ⟨0x09, 0xAA, 0xBB, 0x00, 0x00, 0x00⟩ = .ok (.meqi 0xAA 0xBB) := by decide

/-- 20_memory.md R52: under `ENDIAN = big` the immediate's bytes are read the other way round. -/
theorem test_decode_big_endian :
    decode { Config.ex with endian := .big } ⟨0x02, 0x03, 0x12, 0x34, 0x00, 0x00⟩ = .ok (.seti 3 0x1234) ∧
    decode { Config.ex with endian := .big } ⟨0x03, 0x00, 0x3F, 0xC0, 0x00, 0x00⟩ = .ok (.setf 0 0x3FC00000) := by
  decide

/-- The encoder writes 0x00 in the unused bytes (30_encoding.md R85) and the address low byte first. -/
theorem test_encode :
    encode Config.ex (.call 0x001E) = ⟨0x18, 0x1E, 0x00, 0x00, 0x00, 0x00⟩ ∧
    encode Config.ex (.setf 4 0x7FC00001) = ⟨0x03, 0x04, 0x01, 0x00, 0xC0, 0x7F⟩ ∧
    encode Config.ex (.leai 3 4 2 7) = ⟨0x0F, 0x03, 0x04, 0x02, 0x07, 0x00⟩ := by decide

/-- The opcode table's numbering: bits 7..0 are the first byte; bits above `nbits` are 0. -/
theorem test_decodeTableWord :
    decodeTableWord 24 0x040304 = some (.addi 3 4) ∧ decodeTableWord 48 0x3FC000000003 = some (.setf 0 0x3FC00000) ∧
    decodeTableWord 8 0x01 = some .halt ∧ decodeTableWord 8 0x00 = none := by decide

theorem test_withFetchWord_runs :
    (nextOf (step (State.reset.withFetchWord 8 0x01))).map (fun t => (t.status, t.ints.pc)) = some (.halt, 0x0006) := by
  decide

/-! ### Memory -/

/-- A write keeps the canonical form, and writing 0x00 removes the entry (10_state.md R40). -/
theorem test_memory_canonical :
    Memory.write (Memory.write (Memory.write [] 5 0x11) 3 0x22) 5 0x00 = [(3, 0x22)] ∧
    Memory.wf (Memory.write (Memory.write [] 5 0x11) 3 0x22) ∧ ¬ Memory.wf [(5, 0x11), (3, 0x22)] ∧
    ¬ Memory.wf [(3, 0x00)] ∧ ¬ Memory.wf [(65536, 0x01)] := by decide

/-- The example of 20_memory.md R53: a pattern stored as 4 bytes, read back as 2. -/
theorem test_mixed_widths :
    let m := Memory.writePattern [] .little 0x4000 0x3FC00000
    m.readWord .little 0x4000 = 0x0000 ∧ m.readWord .little 0x4002 = 0x3FC0 := by decide

/-! ### Reset, load and observation (vectors Z1, Z2, S2; 20_memory.md R70; 60_exceptions.md R256) -/

theorem test_reset :
    State.reset.ints = ⟨0x0000, 0xBFFF, 0xBFFF, 0x0000, 0x0000, 0x0000, 0x0000, 0x0000⟩ ∧ State.reset.status = .noError ∧
    State.reset.cmp = .uninitialized ∧ State.reset.mem = [] ∧ State.reset.cycles = 0 := by decide

theorem test_first_step_with_nothing_loaded :
    (nextOf (step State.reset)).map (fun t => (t.status, t.ints.pc, t.cycles)) =
      some (.error .unrecognizedOpcode, 0x0000, 1) := by decide

/-- A file of one record: the count header 01 00 is not copied; at base 0xFFFE the addresses wrap. -/
theorem test_load :
    bytesAt (State.reset.loadProgram 0x0000 [0x01, 0x00, 0x02, 0x03, 0x05, 0x00, 0x00, 0x00]) 0 4 = [0x02, 0x03, 0x05, 0x00] ∧
    bytesAt (State.reset.loadProgram 0xFFFE [0x01, 0x00, 1, 2, 3, 4, 5, 6]) 0 4 = [3, 4, 5, 6] ∧
    bytesAt (State.reset.loadProgram 0xFFFE [0x01, 0x00, 1, 2, 3, 4, 5, 6]) 0xFFFE 2 = [1, 2] := by decide

theorem test_stackBytes :
    (withBytes 0xBFFF [0x34, 0x12] (withInts fun f => { f with sp := 0xC001 })).stackBytes = [0x34, 0x12] ∧
    State.reset.stackBytes = [] ∧ (withInts fun f => { f with sp := 0xBFFD }).stackBytes = [] := by decide

/-! ### The sequencer (vectors S1, S5, S7, S8) -/

theorem test_halt_at_the_top_wraps_pc :
    (after (withInts fun f => { f with pc := 0xFFFA }) ⟨0x01, 0, 0, 0, 0, 0⟩).map (fun t => (t.ints.pc, t.status, t.cycles)) =
      some (0x0000, .halt, 1) := by decide

theorem test_halt_keeps_cmp :
    (after (withCmp .greater State.reset) ⟨0x01, 0xFF, 0xFF, 0xFF, 0xFF, 0xFF⟩).map (fun t => (t.cmp, t.engine)) =
      some (.greater, .halted) := by decide

theorem test_fetch_past_the_top_faults :
    step (withInts fun f => { f with pc := 0xFFFB }) =
      .fault (.fetchOutOfRange { (withInts fun f => { f with pc := 0xFFFB }) with cycles := 1 }) := rfl

theorem test_stopped_core_has_no_step :
    step { State.reset with status := .halt } = .fault (.stopped .halt) := rfl

/-! ### Arithmetic (vectors A1, A5, F2, F3, D2, D7, B2, B5, I1, I3, E2, E4, Q5, Q8) -/

theorem test_seti :
    (after State.reset ⟨0x02, 0x03, 0xFF, 0xFF, 0x00, 0x00⟩).map (fun t => (t.ints.ir0, t.status)) = some (0xFFFF, .noError) := by
  decide

theorem test_seti_refuses_sp :
    (after State.reset ⟨0x02, 0x01, 0x01, 0x00, 0x00, 0x00⟩).map (fun t => (t.ints.sp, t.status)) =
      some (0xBFFF, .error .registerNotAllowed) := by decide

theorem test_setf_keeps_the_bits :
    (after State.reset ⟨0x03, 0x04, 0x01, 0x00, 0xC0, 0x7F⟩).map (fun t => (t.flts.frv, t.status)) =
      some (0x7FC00001, .noError) := by decide

theorem test_setf_unknown_id :
    (after State.reset ⟨0x03, 0x05, 0x01, 0x02, 0x03, 0x04⟩).map (fun t => (t.flts, t.status)) =
      some (State.reset.flts, .error .registerUnrecognized) := by decide

theorem test_addi_wraps_and_stores :
    (after (withInts fun f => { f with ir0 := 0xFFFF, ir1 := 1 }) ⟨0x04, 0x03, 0x04, 0x00, 0x00, 0x00⟩).map
      (fun t => (t.ints.ir1, t.status)) = some (0x0000, .error .arithmeticOverflow) := by decide

theorem test_addi_reads_pc_next :
    (after (withInts fun f => { f with ir0 := 1 }) ⟨0x04, 0x00, 0x03, 0x00, 0x00, 0x00⟩).map
      (fun t => (t.ints.ir0, t.status)) = some (0x0007, .noError) := by decide

theorem test_subi_borrows_and_stores :
    (after (withInts fun f => { f with ir0 := 1, ir1 := 0 }) ⟨0x05, 0x03, 0x04, 0x00, 0x00, 0x00⟩).map
      (fun t => (t.ints.ir1, t.status)) = some (0xFFFF, .error .arithmeticUnderflow) := by decide

theorem test_subi_takes_a_from_b :
    (after (withInts fun f => { f with ir0 := 3, ir1 := 5 }) ⟨0x05, 0x03, 0x04, 0x00, 0x00, 0x00⟩).map
      (fun t => (t.ints.ir0, t.ints.ir1, t.status)) = some (3, 2, .noError) := by decide

theorem test_inci_wraps_silently :
    (after (withInts fun f => { f with ir2 := 0xFFFF }) ⟨0x06, 0x05, 0x00, 0x00, 0x00, 0x00⟩).map
      (fun t => (t.ints.ir2, t.status)) = some (0x0000, .noError) := by decide

theorem test_inci_refuses_pc :
    (after State.reset ⟨0x06, 0x00, 0x00, 0x00, 0x00, 0x00⟩).map (fun t => (t.ints.pc, t.status)) =
      some (0x0006, .error .registerNotAllowed) := by decide

theorem test_deci_at_zero :
    (after State.reset ⟨0x07, 0x03, 0x00, 0x00, 0x00, 0x00⟩).map (fun t => (t.ints.ir0, t.status)) =
      some (0x0000, .error .decrementZero) := by decide

theorem test_deci_not_allowed_wins :
    (after State.reset ⟨0x07, 0x07, 0x00, 0x00, 0x00, 0x00⟩).map (fun t => (t.ints.irv, t.status)) =
      some (0x0000, .error .registerNotAllowed) := by decide

theorem test_cmpi_is_unsigned :
    (after (withInts fun f => { f with ir0 := 0x8000, ir1 := 0x7FFF }) ⟨0x08, 0x03, 0x04, 0x00, 0x00, 0x00⟩).map
      (fun t => (t.cmp, t.status)) = some (.greater, .noError) := by decide

theorem test_cmpi_unknown_id_keeps_cmp :
    (after (withCmp .greater State.reset) ⟨0x08, 0x03, 0x08, 0x00, 0x00, 0x00⟩).map (fun t => (t.cmp, t.status)) =
      some (.greater, .error .registerUnrecognized) := by decide

/-! ### Conditional moves (the predicate table of 95_test_vectors.md section 3.3, and C2, C3, C4) -/

/-- One row of the predicate table: ir1 after `Mxxx ir0 ir1` from ir0 = 7, ir1 = 0, for cmp = E, G, L; cmp is consumed. -/
def moveRow (op : Byte) : List (Option (Word × CmpFlag × Status)) :=
  [CmpFlag.equal, .greater, .less].map fun c =>
    (after (withCmp c (withInts fun f => { f with ir0 := 7 })) ⟨op, 0x03, 0x04, 0x00, 0x00, 0x00⟩).map
      fun t => (t.ints.ir1, t.cmp, t.status)

/-- What a row of the table expects. -/
def expectRow (l : List Word) : List (Option (Word × CmpFlag × Status)) :=
  l.map fun v => some (v, .uninitialized, .noError)

theorem test_meqi : moveRow 0x09 = expectRow [7, 0, 0] := by decide
theorem test_mnei : moveRow 0x0A = expectRow [0, 7, 7] := by decide
theorem test_mgti : moveRow 0x0B = expectRow [0, 7, 0] := by decide
theorem test_mgei : moveRow 0x0C = expectRow [7, 7, 0] := by decide
theorem test_mlti : moveRow 0x0D = expectRow [0, 0, 7] := by decide
theorem test_mlei : moveRow 0x0E = expectRow [7, 0, 7] := by decide

theorem test_mgti_branches :
    (after (withCmp .greater (withInts fun f => { f with ir3 := 0x0018 })) ⟨0x0B, 0x06, 0x00, 0x00, 0x00, 0x00⟩).map
      (fun t => (t.ints.pc, t.cmp)) = some (0x0018, .uninitialized) := by decide

theorem test_mlti_refuses_sp_and_keeps_cmp :
    (after (withCmp .less (withInts fun f => { f with ir1 := 2 })) ⟨0x0D, 0x04, 0x01, 0x00, 0x00, 0x00⟩).map
      (fun t => (t.ints.sp, t.cmp, t.status)) = some (0xBFFF, .less, .error .registerNotAllowed) := by decide

theorem test_mlei_does_not_look_at_sp :
    (after (withCmp .greater (withInts fun f => { f with ir1 := 2 })) ⟨0x0E, 0x04, 0x01, 0x00, 0x00, 0x00⟩).map
      (fun t => (t.ints.sp, t.cmp, t.status)) = some (0xBFFF, .uninitialized, .noError) := by decide

theorem test_meqi_needs_a_comparison :
    (after (withInts fun f => { f with ir0 := 7 }) ⟨0x09, 0x03, 0x04, 0x00, 0x00, 0x00⟩).map
      (fun t => (t.ints.ir1, t.status)) = some (0x0000, .error .comparisonNotInitialized) := by decide

/-! ### LEAI (vectors L16, L13; 43_address.md R171) -/

theorem test_leai_wraps :
    (after (withInts fun f => { f with ir0 := 0xFFFF, ir1 := 0xFFFF }) ⟨0x0F, 0x03, 0x04, 0x01, 0x05, 0x00⟩).map
      (fun t => (t.ints.ir2, t.status)) = some (0xFFFD, .noError) := by decide

theorem test_leai_multiplier_before_destination :
    (after State.reset ⟨0x0F, 0x03, 0x04, 0x03, 0x01, 0x00⟩).map (fun t => (t.ints.sp, t.status)) =
      some (0xBFFF, .error .invalidAddressMultiplier) := by decide

/-! ### Stack (vectors K3, K4, K2, K7, K12, K13, K15, K18) -/

theorem test_pushi_at_the_top :
    (after (withInts fun f => { f with sp := 0xFFFD, ir0 := 0xABCD }) ⟨0x10, 0x03, 0x00, 0x00, 0x00, 0x00⟩).map
      (fun t => (bytesAt t 0xFFFD 3, t.ints.sp, t.status)) = some ([0xCD, 0xAB, 0x00], 0xFFFF, .noError) := by decide

theorem test_pushi_overflows :
    (after (withInts fun f => { f with sp := 0xFFFE }) ⟨0x10, 0x03, 0x00, 0x00, 0x00, 0x00⟩).map
      (fun t => (t.ints.sp, t.status)) = some (0xFFFE, .error .stackOverflow) := by decide

theorem test_popi :
    (after (withBytes 0xBFFF [0x34, 0x12] (withInts fun f => { f with sp := 0xC001 })) ⟨0x11, 0x04, 0, 0, 0, 0⟩).map
      (fun t => (t.ints.ir1, t.ints.sp, bytesAt t 0xBFFF 2)) = some (0x1234, 0xBFFF, [0x34, 0x12]) := by decide

theorem test_popi_underflow_wins :
    (after State.reset ⟨0x11, 0x01, 0x00, 0x00, 0x00, 0x00⟩).map (fun t => (t.ints.sp, t.status)) =
      some (0xBFFF, .error .stackUnderflow) := by decide

theorem test_pushf_at_the_top :
    (after (withFlt .fr1 0x11223344 (withInts fun f => { f with sp := 0xFFFB })) ⟨0x12, 0x01, 0, 0, 0, 0⟩).map
      (fun t => (bytesAt t 0xFFFB 4, t.ints.sp)) = some ([0x44, 0x33, 0x22, 0x11], 0xFFFF) := by decide

theorem test_pushf_overflows :
    (after (withInts fun f => { f with sp := 0xFFFD }) ⟨0x12, 0x01, 0x00, 0x00, 0x00, 0x00⟩).map
      (fun t => (t.ints.sp, t.status)) = some (0xFFFD, .error .stackOverflow) := by decide

theorem test_popf_mixed_size :
    (after (withBytes 0xBFFF [0x34, 0x12] (withInts fun f => { f with sp := 0xC001 })) ⟨0x13, 0x00, 0, 0, 0, 0⟩).map
      (fun t => (t.flts.fr0, t.ints.sp, t.status)) = some (0x12340000, 0xBFFD, .noError) := by decide

theorem test_popf_unknown_id :
    (after (withInts fun f => { f with sp := 0xC003 }) ⟨0x13, 0x05, 0x00, 0x00, 0x00, 0x00⟩).map
      (fun t => (t.ints.sp, t.status)) = some (0xC003, .error .registerUnrecognized) := by decide

/-! ### Loads and stores (vectors M6, M9, M11, M20, M12, M13, M22, M15) -/

theorem test_lodi_last_address :
    (after (withBytes 0xBFFD [0xEF, 0xBE] State.reset) ⟨0x14, 0x04, 0xFD, 0xBF, 0x00, 0x00⟩).map
      (fun t => (t.ints.ir1, t.status)) = some (0xBEEF, .noError) := by decide

theorem test_lodi_window_first :
    (after State.reset ⟨0x14, 0x0C, 0x00, 0x00, 0x00, 0x00⟩).map (fun t => t.status) =
      some (.error .memoryAccessOutOfBounds) := by decide

theorem test_stoi_stores_pc_next :
    (after State.reset ⟨0x15, 0x00, 0x00, 0x40, 0x00, 0x00⟩).map (fun t => (bytesAt t 0x4000 2, t.status)) =
      some ([0x06, 0x00], .noError) := by decide

theorem test_stoi_past_the_window :
    (after (withInts fun f => { f with ir0 := 1 }) ⟨0x15, 0x03, 0xFE, 0xBF, 0x00, 0x00⟩).map
      (fun t => (bytesAt t 0xBFFE 2, t.status)) = some ([0x00, 0x00], .error .memoryAccessOutOfBounds) := by decide

theorem test_lodf_last_address :
    (after (withBytes 0xBFFB [1, 2, 3, 4] State.reset) ⟨0x16, 0x01, 0xFB, 0xBF, 0x00, 0x00⟩).map
      (fun t => (t.flts.fr1, t.status)) = some (0x04030201, .noError) := by decide

theorem test_lodf_past_the_window :
    (after State.reset ⟨0x16, 0x01, 0xFC, 0xBF, 0x00, 0x00⟩).map (fun t => t.status) =
      some (.error .memoryAccessOutOfBounds) := by decide

theorem test_stof_last_address :
    (after (withFlt .fr3 0xA1B2C3D4 State.reset) ⟨0x17, 0x03, 0xFB, 0xBF, 0x00, 0x00⟩).map
      (fun t => (bytesAt t 0xBFFB 5, t.status)) = some ([0xD4, 0xC3, 0xB2, 0xA1, 0x00], .noError) := by decide

theorem test_stof_past_the_window :
    (after (withFlt .fr0 1 State.reset) ⟨0x17, 0x00, 0xFC, 0xBF, 0x00, 0x00⟩).map (fun t => (bytesAt t 0xBFFC 4, t.status)) =
      some ([0, 0, 0, 0], .error .memoryAccessOutOfBounds) := by decide

/-! ### Call and return (vectors R1, R6, R2, R8) -/

/-- The start of vectors R1 and R3. -/
def beforeCall : State := withInts fun f => { f with pc := 0x000C, ir0 := 7 }

theorem test_call :
    (after beforeCall ⟨0x18, 0x1E, 0x00, 0x00, 0x00, 0x00⟩).map
      (fun t => (t.ints.pc, t.ints.sp, bytesAt t 0xBFFF 28, t.status)) =
      some (0x001E, 0xC01B, [0x12, 0x00, 0xFF, 0xBF, 0x07, 0x00] ++ List.replicate 22 0x00, .noError) := by decide

theorem test_call_without_room :
    (after (withInts fun f => { f with sp := 0xFFE5 }) ⟨0x18, 0x30, 0x00, 0x00, 0x00, 0x00⟩).map
      (fun t => (t.ints.pc, t.ints.sp, bytesAt t 0xFFE5 4, t.status)) =
      some (0x0006, 0xFFFD, [0x06, 0x00, 0xFF, 0xBF], .error .stackOverflow) := by decide

/-- Vector R2: the frame of R1, the registers changed by the callee, and RETN. -/
theorem test_retn :
    (after (withBytes 0xBFFF [0x12, 0x00, 0xFF, 0xBF, 0x07] (withFlt .fr2 0x0000DEAD
        (withInts fun f => { f with pc := 0x001E, sp := 0xC01B, bp := 0x1234, ir0 := 99 }))) ⟨0x19, 0, 0, 0, 0, 0⟩).map
      (fun t => (t.ints, t.flts.fr2, t.status)) =
      some (⟨0x0012, 0xBFFF, 0xBFFF, 7, 0, 0, 0, 0⟩, 0x00000000, .noError) := by decide

theorem test_retn_without_a_frame :
    (after (withBytes 0xBFFF [1, 0, 0, 0, 2, 0, 0, 0, 3, 0, 0, 0, 4]
        (withInts fun f => { f with sp := 0xC00F, ir0 := 0x55 })) ⟨0x19, 0, 0, 0, 0, 0⟩).map
      (fun t => (t.flts.fr3, t.flts.fr0, t.ints.sp, t.ints.ir0, t.ints.pc, t.status)) =
      some (4, 1, 0xBFFF, 0x55, 0x0006, .error .stackUnderflow) := by decide

/-! ### Witnesses: for every statement with hypotheses, a state and operands that meet them, each clause at a boundary -/

/-- A big-endian, register-mode configuration at the least bounds, admitted beside `EX`. -/
def smallConfig : Config :=
  { Config.ex with rwMin := 0x0006, rwMax := 0x000A, maxAddr := 0x0026, endian := .big, leaMultMode := .register }

/-- The reset state under it. -/
def smallReset : State := State.resetWith smallConfig

theorem witness_valid_configurations : Config.ex.Valid ∧ smallConfig.Valid := by decide

/-- IllegalOpcodeBytesAreRejected: 0x00 at reset, 0x1A in the highest record. -/
theorem witness_IllegalOpcodeBytesAreRejected :
    let s := withBytes 0xFFFA [0x1A] (withInts fun f => { f with pc := 0xFFFA })
    (State.reset.cfg = Config.ex ∧ State.reset.status = .noError ∧ State.reset.ints.pc.toNat ≤ 0xFFFA ∧
      State.reset.mem.read State.reset.ints.pc.toNat = 0x00) ∧
    s.cfg = Config.ex ∧ s.status = .noError ∧ s.ints.pc.toNat ≤ 0xFFFA ∧ 0x1A ≤ (s.mem.read s.ints.pc.toNat).toNat := by
  decide

theorem witness_RegisterIdsNameTheRegisters :
    State.reset.cfg = Config.ex ∧ 0x08 ≤ (0x08 : IntId).toNat ∧ 0x08 ≤ (0xFF : IntId).toNat ∧ 0x05 ≤ (0x05 : FltId).toNat := by
  decide

theorem witness_EncodeRestoresTheUsedBytes :
    decode smallConfig ⟨0x14, 0xFF, 0x40, 0x00, 0x55, 0xAA⟩ = .ok (.lodi 0x4000 0xFF) := by decide

/-- UnusedBytesAreIgnored: two records of ADDI that differ in their unused bytes, and two of no instruction. -/
theorem witness_UnusedBytesAreIgnored :
    Config.ex.opcodeAt? 0x04 = some .addi ∧
    (⟨0x04, 3, 4, 0, 0, 0⟩ : Record).bytes.take Opcode.addi.schema.usedBytes =
      (⟨0x04, 3, 4, 9, 9, 9⟩ : Record).bytes.take Opcode.addi.schema.usedBytes ∧ Config.ex.opcodeAt? 0x1A = none ∧
    (0x00 : Byte) ∈ (encode Config.ex (.addi 3 4)).bytes.drop (Instr.addi 3 4).opcode.schema.usedBytes := by decide

/-- StepRunsTheDecodedInstruction, in the highest record. -/
theorem witness_StepRunsTheDecodedInstruction :
    let s := (withInts fun f => { f with pc := 0xFFFA }).placeRecord ⟨0x04, 3, 4, 0, 0, 0⟩
    s.cfg.Valid ∧ s.status = .noError ∧ s.ints.pc.toNat ≤ 0xFFFA ∧
      (⟨0x04, 3, 4, 0, 0, 0⟩ : Record) = ⟨s.mem.read s.ints.pc.toNat, s.mem.read (s.ints.pc.toNat + 1),
        s.mem.read (s.ints.pc.toNat + 2), s.mem.read (s.ints.pc.toNat + 3), s.mem.read (s.ints.pc.toNat + 4),
        s.mem.read (s.ints.pc.toNat + 5)⟩ ∧ decode s.cfg ⟨0x04, 3, 4, 0, 0, 0⟩ = .ok (.addi 3 4) := by decide

theorem witness_UnrecognizedOpcodeStops :
    let s := State.reset
    s.cfg.Valid ∧ s.status = .noError ∧ s.ints.pc.toNat ≤ 0xFFFA ∧
      (⟨0, 0, 0, 0, 0, 0⟩ : Record) = ⟨s.mem.read s.ints.pc.toNat, s.mem.read (s.ints.pc.toNat + 1),
        s.mem.read (s.ints.pc.toNat + 2), s.mem.read (s.ints.pc.toNat + 3), s.mem.read (s.ints.pc.toNat + 4),
        s.mem.read (s.ints.pc.toNat + 5)⟩ ∧ s.cfg.opcodeAt? 0x00 = none := by decide

theorem witness_FetchPastTheTopFaults :
    let s := withInts fun f => { f with pc := 0xFFFB }
    s.cfg.Valid ∧ s.status = .noError ∧ 0xFFFA < s.ints.pc.toNat := by decide

theorem witness_EngineStateFollowsStatus :
    ({ State.reset with status := .halt } : State).engine ≠ .running ∧
    ({ State.reset with status := .error .decrementZero } : State).engine ≠ .running := by decide

/-- OtherConfigurationsAreRefused: each bound broken by one, and a byte that would select two instructions. -/
theorem witness_OtherConfigurationsAreRefused :
    ¬ (State.resetWith { Config.ex with rwMin := 0x0005 }).cfg.Valid ∧
    ¬ (State.resetWith { Config.ex with rwMax := 0x4003 }).cfg.Valid ∧
    ¬ (State.resetWith { Config.ex with rwMax := 0xFFE4 }).cfg.Valid ∧
    ¬ (State.resetWith { Config.ex with opcodeMap := (0x02, .halt) :: Config.ex.opcodeMap }).cfg.Valid := ⟨by decide, by decide, by decide, by decide⟩

/-- EveryStepCountsOneCycle, LastInstrIsTheFetchedRecord: a step that has a next state. -/
theorem witness_step : ∃ t, step State.reset = .next t := ⟨_, rfl⟩

theorem witness_run : ∃ t : State, Sys2Proof.core.run 1 (State.resetWith Config.ex) = .next t := ⟨_, rfl⟩

/-- HiddenStateIsNeitherReadNorWritten, IntegerInstructionsIgnoreTheFloatFile. -/
theorem witness_HiddenState :
    (∃ t, exec (.inci 3) State.reset = .next t) ∧
    (Instr.inci 3).opcode ∉ [.setf, .pushf, .popf, .lodf, .stof, .call, .retn] := ⟨⟨_, rfl⟩, by decide⟩

/-- RunsEndOneWay: a HALT at pc, and a record of opcode 0x00, which no instruction has. -/
theorem witness_RunsEndOneWay :
    EndsHalted (State.reset.placeRecord ⟨0x01, 0, 0, 0, 0, 0⟩) ∧ EndsErrored State.reset .unrecognizedOpcode :=
  ⟨⟨1, _, rfl, rfl⟩, 1, _, rfl, rfl⟩

/-- RunsEndOneWay: a run that ends out of Running, for its clauses over two runs. -/
theorem witness_RunsEndOneWay_run : ∃ t : State, Sys2Proof.core.run 1 State.reset = .next t ∧ t.engine ≠ .running :=
  ⟨_, rfl, by decide⟩

theorem witness_HaltStopsCleanly :
    let s := (withInts fun f => { f with pc := 0xFFFA }).placeRecord ⟨0x01, 0xFF, 0, 0, 0, 0⟩
    s.cfg.Valid ∧ s.status = .noError ∧ s.ints.pc.toNat ≤ 0xFFFA ∧
      s.cfg.opcodeAt? (s.mem.read s.ints.pc.toNat) = some .halt := by decide

/-- The invariant at its boundaries: sp one pop short of RW_MAX, at RW_MAX, and at MAX_ADDR; and under the least bounds. -/
theorem witness_Inv :
    (withInts fun f => { f with sp := 0xBFFD }).Inv ∧ State.reset.Inv ∧ (withInts fun f => { f with sp := 0xFFFF }).Inv ∧
    smallReset.Inv ∧ ¬ (withInts fun f => { f with sp := 0xBFFB }).Inv ∧ ¬ (withInts fun f => { f with sp := 0xC000 }).Inv :=
  ⟨by decide, by decide, by decide, by decide, by decide, by decide⟩

/-- EveryStepKeepsTheInvariant, NoRunWritesTheCodeBlock: a step from a state with the invariant. -/
theorem witness_EveryStepKeepsTheInvariant :
    let s := (withInts fun f => { f with sp := 0xBFFD }).placeRecord ⟨0x10, 3, 0, 0, 0, 0⟩
    s.Inv ∧ ∃ t, step s = .next t := ⟨by decide, _, rfl⟩

theorem witness_NoRunWritesTheCodeBlock :
    let s := State.reset.placeRecord ⟨0x10, 3, 0, 0, 0, 0⟩
    s.Inv ∧ ∃ t : State, Sys2Proof.core.run 1 s = .next t := ⟨by decide, _, rfl⟩

/-- MemoryWritesStayInTheirRegions: a store that changes its first legal byte, a push that changes RW_MAX - 2, and one that
changes MAX_ADDR - 1. -/
theorem witness_MemoryWritesStayInTheirRegions :
    (withInts fun f => { f with ir0 := 7 }).Inv ∧
    (∃ t, exec (.stoi 0x4000 3) (withInts fun f => { f with ir0 := 7 }) = .next t ∧
      (t.mem.read 0x4000 != State.reset.mem.read 0x4000) = true) ∧
    (∃ t, exec (.pushi 3) (withInts fun f => { f with ir0 := 7, sp := 0xBFFD }) = .next t ∧
      (t.mem.read 0xBFFD != State.reset.mem.read 0xBFFD) = true) ∧
    ∃ t, exec (.pushi 3) (withInts fun f => { f with ir0 := 0x0700, sp := 0xFFFD }) = .next t ∧
      (t.mem.read 0xFFFE != State.reset.mem.read 0xFFFE) = true :=
  ⟨by decide, exists_of_nextOf (by decide), exists_of_nextOf (by decide), exists_of_nextOf (by decide)⟩

/-- StatusChangesOnlyAsTheTableSays: no change, HALT, and a kind. -/
theorem witness_StatusChanges :
    (∃ t, exec (.inci 3) State.reset = .next t ∧ (t.status == .noError) = true) ∧
    (∃ t, exec .halt State.reset = .next t ∧ (t.status == .halt) = true) ∧
    ∃ t, exec (.deci 3) State.reset = .next t ∧ (t.status == .error .decrementZero) = true :=
  ⟨exists_of_nextOf (by decide), exists_of_nextOf (by decide), exists_of_nextOf (by decide)⟩

theorem witness_FailingInstructionsChangeOnlyStatus :
    (Instr.leai 3 3 3 3).opcode ≠ .addi ∧ (Instr.leai 3 3 3 3).opcode ≠ .subi ∧ (Instr.leai 3 3 3 3).opcode ≠ .call ∧
    (Instr.leai 3 3 3 3).opcode ≠ .retn ∧ State.reset.status = .noError ∧
    ∃ t, exec (.leai 3 3 3 3) State.reset = .next t ∧ (t.status == .error .invalidAddressMultiplier) = true :=
  ⟨by decide, by decide, by decide, by decide, rfl, exists_of_nextOf (by decide)⟩

/-- PcAtTheStop: a decode error, a raise and a HALT. -/
theorem witness_PcAtTheStop :
    (∃ t, step State.reset = .next t ∧ (t.status == .error .unrecognizedOpcode) = true) ∧
    (∃ t, step (State.reset.placeRecord ⟨0x07, 3, 0, 0, 0, 0⟩) = .next t ∧ (t.status == .error .decrementZero) = true) ∧
    ∃ t, step (State.reset.placeRecord ⟨0x01, 0, 0, 0, 0, 0⟩) = .next t ∧ (t.status == .halt) = true :=
  ⟨exists_of_nextOf (by decide), exists_of_nextOf (by decide), exists_of_nextOf (by decide)⟩

/-- RegistersChangeOnlyByTheirInstructions: an instruction that changes each of sp, bp, irv, pc, the float file and frv. -/
theorem witness_RegistersChange :
    (∃ t, exec (.pushi 3) State.reset = .next t ∧ (t.ints.sp != State.reset.ints.sp) = true) ∧
    (∃ t, exec (.leai 3 3 0 2) State.reset = .next t ∧ (t.ints.bp != State.reset.ints.bp) = true) ∧
    (∃ t, exec (.leai 1 3 0 7) State.reset = .next t ∧ (t.ints.irv != State.reset.ints.irv) = true) ∧
    (∃ t, exec (.call 0x001E) State.reset = .next t ∧ (t.ints.pc != State.reset.ints.pc) = true) ∧
    ∃ t, exec (.setf 4 1) State.reset = .next t ∧
      (t.flts != State.reset.flts && t.flts.frv != State.reset.flts.frv) = true :=
  ⟨exists_of_nextOf (by decide), exists_of_nextOf (by decide), exists_of_nextOf (by decide), exists_of_nextOf (by decide),
    exists_of_nextOf (by decide)⟩

theorem witness_CmpChanges :
    (∃ t, exec (.cmpi 3 3) State.reset = .next t ∧ (t.cmp != State.reset.cmp) = true) ∧
    ∃ t, exec (.meqi 3 3) (withCmp .less State.reset) = .next t ∧ (t.cmp != .less) = true :=
  ⟨exists_of_nextOf (by decide), exists_of_nextOf (by decide)⟩

theorem witness_WellFormedNeverRaises :
    (Instr.leai 0 7 0xFF 1).wellFormed State.reset.cfg = true ∧ State.reset.status = .noError ∧
    ∃ t, exec (.leai 0 7 0xFF 1) State.reset = .next t := ⟨by decide, rfl, _, rfl⟩

/-- The integer ids of the instruction statements: a general register at each end of its range, each other register, and the
first id that names none; in `EX`, which is admitted. -/
theorem witness_integer_operands :
    State.reset.cfg.Valid ∧ State.reset.mem.wf ∧
    (State.reset.cfg.intReg? 0x03 = some .ir0 ∧ IsGeneral .ir0) ∧ (State.reset.cfg.intReg? 0x06 = some .ir3 ∧ IsGeneral .ir3) ∧
    (State.reset.cfg.intReg? 0x02 = some .bp ∧ ¬ IsGeneral .bp) ∧ (State.reset.cfg.intReg? 0x07 = some .irv ∧ ¬ IsGeneral .irv) ∧
    (State.reset.cfg.intReg? 0x00 = some .pc ∧ ¬ IsGeneral .pc) ∧ (State.reset.cfg.intReg? 0x01 = some .sp ∧ ¬ IsGeneral .sp) ∧
    State.reset.cfg.intReg? 0x08 = none := by decide

theorem witness_float_operands :
    State.reset.cfg.fltReg? 0x00 = some .fr0 ∧ State.reset.cfg.fltReg? 0x04 = some .frv ∧
    State.reset.cfg.fltReg? 0x05 = none := by decide

/-- The immediates of SETI, SETF, the loads and stores and CALL, as the statements split them. -/
theorem witness_immediates :
    (0xBFFD : Word) = (0xBF : Byte) ++ (0xFD : Byte) ∧
    (0x7FC00001 : Pattern) = (0x7F : Byte) ++ (0xC0 : Byte) ++ (0x00 : Byte) ++ (0x01 : Byte) := by decide

/-- ADDI's and SUBI's flag at its edge: 0xFFFF + 0 and 0xFFFF + 1; 5 - 5 and 5 - 6. -/
theorem witness_wrap_edges :
    ¬ 2 ^ 16 ≤ (0xFFFF : Word).toNat + (0x0000 : Word).toNat ∧ 2 ^ 16 ≤ (0xFFFF : Word).toNat + (0x0001 : Word).toNat ∧
    ¬ (5 : Word).toNat < (5 : Word).toNat ∧ (5 : Word).toNat < (6 : Word).toNat := by decide

/-- DeciSubtractsOneAndRefusesZero: a general register that holds 1 and one that holds 0. -/
theorem witness_Deci :
    let s := withInts fun f => { f with ir0 := 1 }
    s.cfg.intReg? 0x03 = some .ir0 ∧ IsGeneral .ir0 ∧ s.ints.get .ir0 ≠ 0 ∧
    s.cfg.intReg? 0x04 = some .ir1 ∧ IsGeneral .ir1 ∧ s.ints.get .ir1 = 0 := by decide

/-- The conditional moves: each case of cmp for each predicate. -/
theorem witness_ConditionalMoves :
    State.reset.cmp = .uninitialized ∧
    (∀ p ∈ [Condition.equal, .notEqual, .greater, .greaterOrEqual, .less, .lessOrEqual],
      (∃ c ∈ [CmpFlag.equal, .greater, .less], PredicateHolds p (withCmp c State.reset).cmp) ∧
      ∃ c ∈ [CmpFlag.equal, .greater, .less], (withCmp c State.reset).cmp ≠ .uninitialized ∧
        ¬ PredicateHolds p (withCmp c State.reset).cmp) := by decide

/-- ConditionalMoveIntoPcBranches: `MGTI ir3 pc` in the highest record, taken and not taken. -/
theorem witness_ConditionalMoveIntoPcBranches :
    ∀ c ∈ [CmpFlag.greater, .less],
      let s := (withCmp c (withInts fun f => { f with pc := 0xFFFA, ir3 := 0x0018 })).placeRecord ⟨0x0B, 6, 0, 0, 0, 0⟩
      s.cfg.Valid ∧ s.status = .noError ∧ s.ints.pc.toNat ≤ 0xFFFA ∧
        decode s.cfg s.fetched = .ok (moveOf .greater 0x06 0x00) ∧ s.cmp ≠ .uninitialized ∧
        s.cfg.intReg? 0x06 = some .ir3 ∧ s.cfg.intReg? 0x00 = some .pc := by decide

theorem witness_ComparisonIsConsumedOnce :
    ∃ t, exec (moveOf .equal 3 4) (withCmp .equal State.reset) = .next t ∧ (t.status == .noError) = true :=
  exists_of_nextOf (by decide)

/-- LeaiComputesTheAddress: multipliers 2 and 3 as literals; and from ir0 and sp in register mode, where an id may name none. -/
theorem witness_Leai :
    let s := State.reset
    let q := smallReset
    (s.cfg.intReg? 0x03 = some .ir0 ∧ s.cfg.intReg? 0x07 = some .irv ∧ s.cfg.leaMultMode = .literal) ∧
    ((0x02 : Byte).toNat ≤ 2 ∧ 2 < (0x03 : Byte).toNat) ∧
    (s.cfg.intReg? 0x00 = some .pc ∧ IntReg.pc ≠ .sp ∧ s.cfg.intReg? 0x01 = some .sp ∧ s.cfg.intReg? 0x08 = none) ∧
    (q.cfg.leaMultMode = .register ∧ q.cfg.intReg? 0x03 = some .ir0 ∧ (q.ints.get .ir0).toNat ≤ 2) ∧
    (q.cfg.intReg? 0x01 = some .sp ∧ 2 < (q.ints.get .sp).toNat) ∧ q.cfg.intReg? 0x08 = none := by decide

/-- PushiStoresAtSp: 2 bytes fit at 0xFFFD and not at 0xFFFE. -/
theorem witness_Pushi :
    let s := withInts fun f => { f with sp := 0xFFFD }
    s.mem.wf ∧ PushFits s 2 ∧ s.cfg.intReg? 0x01 = some .sp ∧ s.cfg.intReg? 0x08 = none ∧
    ¬ PushFits (withInts fun f => { f with sp := 0xFFFE }) 2 := by decide

/-- PushfStoresAtSp: 4 bytes fit at 0xFFFB and not at 0xFFFC. -/
theorem witness_Pushf :
    let s := withInts fun f => { f with sp := 0xFFFB }
    s.mem.wf ∧ PushFits s 4 ∧ s.cfg.fltReg? 0x04 = some .frv ∧ s.cfg.fltReg? 0x05 = none ∧
    ¬ PushFits (withInts fun f => { f with sp := 0xFFFC }) 4 := by decide

/-- PopiLoadsFromTheStack, at RW_MAX + 1 and at RW_MAX. -/
theorem witness_Popi :
    let s := withInts fun f => { f with sp := 0xC000 }
    s.cfg.boundsOk ∧ s.cfg.rwMax.toNat < s.ints.sp.toNat ∧ (s.cfg.intReg? 0x00 = some .pc ∧ IntReg.pc ≠ .sp) ∧
    s.cfg.intReg? 0x01 = some .sp ∧ s.cfg.intReg? 0x08 = none ∧
    State.reset.ints.sp.toNat ≤ State.reset.cfg.rwMax.toNat := by decide

/-- PopfLoadsFromTheStack, at RW_MAX + 1 and at RW_MAX. -/
theorem witness_Popf :
    let s := withInts fun f => { f with sp := 0xC000 }
    s.cfg.boundsOk ∧ s.cfg.rwMax.toNat < s.ints.sp.toNat ∧ s.cfg.fltReg? 0x04 = some .frv ∧ s.cfg.fltReg? 0x05 = none ∧
    State.reset.ints.sp.toNat ≤ State.reset.cfg.rwMax.toNat := by decide

/-- PushThenPopRestoresAnIntegerRegister, at RW_MAX, with `u` the state the push leaves. -/
theorem witness_PushThenPop_integer :
    State.reset.mem.wf ∧ State.reset.cfg.intReg? 0x07 = some .irv ∧ IntReg.irv ≠ .sp ∧ PushFits State.reset 2 ∧
    State.reset.cfg.rwMax.toNat < State.reset.ints.sp.toNat + 2 ∧ ∃ t, exec (.pushi 0x07) State.reset = .next t :=
  ⟨by decide, by decide, by decide, by decide, by decide, _, rfl⟩

/-- PushThenPopRestoresAFloatRegister, at RW_MAX - 2 (the least sp), with `u` the state the push leaves. -/
theorem witness_PushThenPop_float :
    let s := withInts fun f => { f with sp := 0xBFFD }
    s.mem.wf ∧ s.cfg.fltReg? 0x04 = some .frv ∧ PushFits s 4 ∧ s.cfg.rwMax.toNat < s.ints.sp.toNat + 4 ∧
    ∃ t, exec (.pushf 0x04) s = .next t := ⟨by decide, by decide, by decide, by decide, _, rfl⟩

/-- LodiLoadsInsideTheWindow and StoiStoresInsideTheWindow: the first and last address of the window and those beside them
(vectors M3, M5, M6), with each kind of register. -/
theorem witness_Lodi_Stoi :
    let s := State.reset
    s.mem.wf ∧ InWindow s.cfg 0x4000 2 ∧ InWindow s.cfg 0xBFFD 2 ∧ ¬ InWindow s.cfg 0x3FFF 2 ∧ ¬ InWindow s.cfg 0xBFFE 2 ∧
    (s.cfg.intReg? 0x06 = some .ir3 ∧ IsGeneral .ir3) ∧ (s.cfg.intReg? 0x07 = some .irv ∧ ¬ IsGeneral .irv) ∧
    s.cfg.intReg? 0x08 = none := by decide

/-- LodfLoadsInsideTheWindow and StofStoresInsideTheWindow: the same for 4 bytes (vectors M12, M13). -/
theorem witness_Lodf_Stof :
    let s := State.reset
    s.mem.wf ∧ InWindow s.cfg 0x4000 4 ∧ InWindow s.cfg 0xBFFB 4 ∧ ¬ InWindow s.cfg 0x3FFF 4 ∧ ¬ InWindow s.cfg 0xBFFC 4 ∧
    s.cfg.fltReg? 0x04 = some .frv ∧ s.cfg.fltReg? 0x05 = none := by decide

/-- ByteOrderOfMultiByteValues: the highest address whose bytes all exist. -/
theorem witness_ByteOrder :
    Memory.wf [] ∧ (0xFFFE : Word).toNat + 1 < 65536 ∧ (0xFFFC : Word).toNat + 3 < 65536 := by decide

/-- CallSavesTheFrameAndJumps: room for a frame at 0xFFE3 and not at 0xFFE4; a target just below RW_MIN and one at it. -/
theorem witness_Call :
    let s := withInts fun f => { f with sp := 0xFFE3 }
    s.mem.wf ∧ PushFits s 28 ∧ (0x3FFF : Word).toNat < s.cfg.rwMin.toNat ∧ ¬ (0x4000 : Word).toNat < s.cfg.rwMin.toNat ∧
    (withInts fun f => { f with sp := 0xFFE4 }).mem.wf ∧ ¬ PushFits (withInts fun f => { f with sp := 0xFFE4 }) 28 := by decide

/-- RetnRestoresTheFrame: the last pop is ready from RW_MAX + 27 on. -/
theorem witness_Retn :
    let s := withInts fun f => { f with sp := 0xC01A }
    s.cfg.boundsOk ∧ s.cfg.rwMax.toNat + 26 < s.ints.sp.toNat ∧
    (withInts fun f => { f with sp := 0xC019 }).cfg.boundsOk ∧
    (withInts fun f => { f with sp := 0xC019 }).ints.sp.toNat ≤ s.cfg.rwMax.toNat + 26 := by decide

/-- CallThenReturnRestores, from RW_MAX and from the highest sp, with `u` the state the CALL leaves. -/
theorem witness_CallThenReturnRestores :
    State.reset.cfg.Valid ∧ State.reset.mem.wf ∧
    (∃ t, exec (.call 0x001E) State.reset = .next t) ∧
    (State.reset.cfg.rwMax.toNat < State.reset.ints.sp.toNat + 2 ∧ PushFits State.reset 28) ∧
    let s := withInts fun f => { f with sp := 0xFFE3 }
    s.cfg.rwMax.toNat < s.ints.sp.toNat + 2 ∧ PushFits s 28 ∧ (0x001E : Word).toNat < s.cfg.rwMin.toNat ∧
    ∃ t, exec (.call 0x001E) s = .next t :=
  ⟨by decide, by decide, ⟨_, rfl⟩, by decide, by decide, by decide, by decide, _, rfl⟩

/-- ProgramLoadCopiesTheRecords: a file of one record that wraps around the top of memory. -/
theorem witness_ProgramLoad :
    State.reset.mem.wf ∧ 6 = 6 * (assembleWord State.reset.cfg.endian 0x01 0x00).toNat ∧
    6 ≤ ([1, 2, 3, 4, 5, 6] : List Byte).length ∧ (0xFFFE : Word).toNat + 2 = 65536 := by decide

theorem witness_StackContents :
    0 < (withInts fun f => { f with sp := 0xC001 }).ints.sp.toNat - State.reset.cfg.rwMax.toNat := by decide

end Sys2Proof.Tests
end

namespace Sys2Proof.Machine

/-- The configuration is tested before all else: whatever the status and pc, the sequencer answers the refusal (00_scope.md R8;
log 3 for the tables). -/
theorem prepare_of_not_valid {s : State} (hc : ¬ s.cfg.Valid) :
    prepare s = .answer (.refused .invalidConfiguration) :=
  if_pos hc

/-- Settles O12: the sequencer's answer is the step's own, so no instruction is reached. -/
theorem otherConfigurationsAreRefused : Obligations.OtherConfigurationsAreRefused := by
  intro s hc
  rw [step, prepare_of_not_valid hc]

end Sys2Proof.Machine

/-! ### The state: noninterference, which fields an instruction changes, register ids and reset (10_state.md) -/

namespace Sys2Proof.Machine

section Noninterference

/-! An instruction is a sequence of shared operations, so an update of the state that each operation carries along is carried along
by the whole instruction. -/

variable {α β γ δ : Type} {φ : State → State}

/-- `y` is `x` with its result carried along `g` and the state of its raise along `φ`. -/
def Carries (φ : State → State) (g : α → β) : Exec α → Exec β → Prop
  | .ok a, y => y = .ok (g a)
  | .error t, y => y = .error (φ t)

/-- A meaning whose next states follow an update of the state it is given. -/
def Follows (φ : State → State) (f : State → Answer) : Prop := ∀ s t, f s = .next t → f (φ s) = .next (φ t)

theorem Carries.of_eq {g : α → β} {a : α} {b : β} (e : b = g a) : Carries φ g (pure a) (pure b) := congrArg Except.ok e

theorem Carries.ite {g : α → β} {x x' : Exec α} {y y' : Exec β} (c : Prop) [Decidable c] (h : Carries φ g x y)
    (h' : Carries φ g x' y') : Carries φ g (if c then x else x') (if c then y else y') := by
  split
  · exact h
  · exact h'

theorem Carries.bind {g : α → β} {x : Exec α} {y : Exec β} {g' : γ → δ} {f : α → Exec γ} {k : β → Exec δ}
    (hxy : Carries φ g x y) (hfk : ∀ a, Carries φ g' (f a) (k (g a))) : Carries φ g' (x >>= f) (y >>= k) := by
  cases x with
  | ok a =>
    cases hxy
    exact hfk a
  | error t =>
    cases hxy
    rfl

/-- An instruction whose body is carried along `φ` follows `φ`: its next state is the body's result or the state its raise left. -/
theorem Carries.follows {x : State → Exec State} (hx : ∀ s, Carries φ φ (x s) (x (φ s))) :
    Follows φ (fun s => finish (x s)) := by
  intro s t ht
  have hs := hx s
  rcases finish_eq_next_iff.mp ht with h | h <;> rw [h] at hs <;> exact congrArg finish hs

/-- An update that keeps every field an integer instruction reads and commutes with every write one makes. -/
structure IntegerBlind (φ : State → State) : Prop where
  cfg : ∀ s, (φ s).cfg = s.cfg
  ints : ∀ s, (φ s).ints = s.ints
  cmp : ∀ s, (φ s).cmp = s.cmp
  mem : ∀ s, (φ s).mem = s.mem
  putInt : ∀ s r v, (φ s).putInt r v = φ (s.putInt r v)
  putCmp : ∀ s c, (φ s).putCmp c = φ (s.putCmp c)
  putStatus : ∀ s k, (φ s).putStatus k = φ (s.putStatus k)
  putMem : ∀ s m, (φ s).putMem m = φ (s.putMem m)

/-- The same for every instruction: the float file too is kept and its writes commute. -/
structure Blind (φ : State → State) : Prop extends IntegerBlind φ where
  flts : ∀ s, (φ s).flts = s.flts
  putFlt : ∀ s r w, (φ s).putFlt r w = φ (s.putFlt r w)

section SharedOperations

variable (h : IntegerBlind φ)
include h

theorem IntegerBlind.loadWord_eq (s : State) (a : Word) : (φ s).loadWord a = s.loadWord a := by
  rw [State.loadWord, State.loadWord, h.mem, h.cfg]

theorem IntegerBlind.loadPattern_eq (s : State) (a : Word) : (φ s).loadPattern a = s.loadPattern a := by
  rw [State.loadPattern, State.loadPattern, h.mem, h.cfg]

theorem IntegerBlind.storeWord_eq (s : State) (a v : Word) : (φ s).storeWord a v = φ (s.storeWord a v) := by
  rw [State.storeWord, State.storeWord, h.mem, h.cfg, h.putMem]

theorem IntegerBlind.storePattern_eq (s : State) (a : Word) (w : Pattern) :
    (φ s).storePattern a w = φ (s.storePattern a w) := by
  rw [State.storePattern, State.storePattern, h.mem, h.cfg, h.putMem]

theorem IntegerBlind.stackWord_eq (s : State) (v : Word) : (φ s).stackWord v = φ (s.stackWord v) := by
  rw [State.stackWord, State.stackWord, h.ints, h.storeWord_eq, h.putInt]

theorem IntegerBlind.stackPattern_eq (s : State) (w : Pattern) : (φ s).stackPattern w = φ (s.stackPattern w) := by
  rw [State.stackPattern, State.stackPattern, h.ints, h.storePattern_eq, h.putInt]

theorem IntegerBlind.unstack_eq (s : State) (n : Nat) : (φ s).unstack n = φ (s.unstack n) := by
  rw [State.unstack, State.unstack, h.ints, h.putInt]

theorem IntegerBlind.carries_raise (g : α → β) (s : State) (k : ErrorKind) : Carries φ g (raise s k) (raise (φ s) k) :=
  congrArg Except.error (h.putStatus s _)

theorem IntegerBlind.carries_intOperand (s : State) (r : IntId) : Carries φ id (intOperand s r) (intOperand (φ s) r) := by
  rw [intOperand, intOperand, h.cfg]
  cases s.cfg.intReg? r with
  | some d => exact Carries.of_eq rfl
  | none => exact h.carries_raise id s _

theorem IntegerBlind.carries_fltOperand (s : State) (f : FltId) : Carries φ id (fltOperand s f) (fltOperand (φ s) f) := by
  rw [fltOperand, fltOperand, h.cfg]
  cases s.cfg.fltReg? f with
  | some d => exact Carries.of_eq rfl
  | none => exact h.carries_raise id s _

theorem IntegerBlind.carries_getInt (s : State) (r : IntId) : Carries φ id (getInt s r) (getInt (φ s) r) :=
  (h.carries_intOperand s r).bind fun d => .of_eq (congrArg (IntFile.get · d) (h.ints s))

theorem IntegerBlind.carries_generalDest (s : State) (r : IntId) :
    Carries φ id (generalDest s r) (generalDest (φ s) r) :=
  (h.carries_intOperand s r).bind fun _ => .ite _ (.of_eq rfl) (h.carries_raise id s _)

theorem IntegerBlind.carries_anyDest (s : State) (r : IntId) : Carries φ id (anyDest s r) (anyDest (φ s) r) :=
  (h.carries_intOperand s r).bind fun _ => .ite _ (.of_eq rfl) (h.carries_raise id s _)

theorem IntegerBlind.carries_checkGeneral (s : State) (r : IntId) :
    Carries φ id (checkGeneral s r) (checkGeneral (φ s) r) :=
  (h.carries_generalDest s r).bind fun _ => .of_eq rfl

theorem IntegerBlind.carries_checkAny (s : State) (r : IntId) : Carries φ id (checkAny s r) (checkAny (φ s) r) :=
  (h.carries_anyDest s r).bind fun _ => .of_eq rfl

theorem IntegerBlind.carries_checkFlt (s : State) (f : FltId) : Carries φ id (checkFlt s f) (checkFlt (φ s) f) :=
  (h.carries_fltOperand s f).bind fun _ => .of_eq rfl

theorem IntegerBlind.carries_setIntGeneral (s : State) (r : IntId) (v : Word) :
    Carries φ φ (setIntGeneral s r v) (setIntGeneral (φ s) r v) :=
  (h.carries_generalDest s r).bind fun d => .of_eq (h.putInt s d v)

theorem IntegerBlind.carries_setIntAny (s : State) (r : IntId) (v : Word) :
    Carries φ φ (setIntAny s r v) (setIntAny (φ s) r v) :=
  (h.carries_anyDest s r).bind fun d => .of_eq (h.putInt s d v)

theorem IntegerBlind.carries_multiplier (s : State) (m : Byte) : Carries φ id (multiplier s m) (multiplier (φ s) m) := by
  rw [multiplier, multiplier, h.cfg]
  cases s.cfg.leaMultMode with
  | literal => exact .of_eq rfl
  | register => exact (h.carries_getInt s m).bind fun _ => .of_eq rfl

theorem IntegerBlind.carries_checkWindow (s : State) (addr : Word) (n : Nat) :
    Carries φ id (checkWindow s addr n) (checkWindow (φ s) addr n) := by
  rw [checkWindow, checkWindow, State.inWindow, State.inWindow, h.cfg]
  exact .ite _ (.of_eq rfl) (h.carries_raise id s _)

theorem IntegerBlind.carries_checkPush (s : State) (n : Nat) : Carries φ id (checkPush s n) (checkPush (φ s) n) := by
  rw [checkPush, checkPush, State.pushFits, State.pushFits, h.ints, h.cfg]
  exact .ite _ (.of_eq rfl) (h.carries_raise id s _)

theorem IntegerBlind.carries_checkPop (s : State) : Carries φ id (checkPop s) (checkPop (φ s)) := by
  rw [checkPop, checkPop, State.popReady, State.popReady, h.ints, h.cfg]
  exact .ite _ (.of_eq rfl) (h.carries_raise id s _)

theorem IntegerBlind.carries_condMove (p : Condition) (src dst : IntId) (s : State) :
    Carries φ φ (condMove p src dst s) (condMove p src dst (φ s)) := by
  rw [condMove, condMove, h.cmp]
  exact .ite _ (h.carries_raise φ s _) <| .ite _
    ((h.carries_getInt s src).bind fun v => (h.carries_setIntAny s dst v).bind fun t => .of_eq (h.putCmp t _))
    (.of_eq (h.putCmp s _))

end SharedOperations

/-- The instructions that read or write the float file (10_state.md R21; 46_call_return.md R220, R221). -/
def floatOpcodes : List Opcode := [.setf, .pushf, .popf, .lodf, .stof, .call, .retn]

/-- An instruction that is not on the float list follows every update that leaves the integer side alone. -/
theorem IntegerBlind.follows_exec (h : IntegerBlind φ) {i : Instr} (hi : i.opcode ∉ floatOpcodes) :
    Follows φ (exec i) := by
  cases i with
  | halt =>
    rintro s _ ⟨⟩
    exact congrArg Host.Outcome.next (h.putStatus s .halt)
  | seti r v => exact Carries.follows fun s => h.carries_setIntGeneral s r v
  | addi a b =>
    exact Carries.follows fun s => (h.carries_getInt s a).bind fun va => (h.carries_getInt s b).bind fun vb =>
      (h.carries_setIntGeneral s b _).bind fun t => .ite _ (h.carries_raise φ t _) (.of_eq rfl)
  | subi a b =>
    exact Carries.follows fun s => (h.carries_getInt s a).bind fun va => (h.carries_getInt s b).bind fun vb =>
      (h.carries_setIntGeneral s b _).bind fun t => .ite _ (h.carries_raise φ t _) (.of_eq rfl)
  | inci r => exact Carries.follows fun s => (h.carries_getInt s r).bind fun v => h.carries_setIntGeneral s r _
  | deci r =>
    exact Carries.follows fun s => (h.carries_getInt s r).bind fun v => (h.carries_checkGeneral s r).bind fun _ =>
      .ite _ (h.carries_raise φ s _) (h.carries_setIntGeneral s r _)
  | cmpi a b =>
    exact Carries.follows fun s => (h.carries_getInt s a).bind fun va => (h.carries_getInt s b).bind fun vb =>
      .of_eq (h.putCmp s _)
  | meqi src dst => exact Carries.follows (h.carries_condMove .equal src dst)
  | mnei src dst => exact Carries.follows (h.carries_condMove .notEqual src dst)
  | mgti src dst => exact Carries.follows (h.carries_condMove .greater src dst)
  | mgei src dst => exact Carries.follows (h.carries_condMove .greaterOrEqual src dst)
  | mlti src dst => exact Carries.follows (h.carries_condMove .less src dst)
  | mlei src dst => exact Carries.follows (h.carries_condMove .lessOrEqual src dst)
  | leai base off mult dest =>
    exact Carries.follows fun s => (h.carries_getInt s base).bind fun vb => (h.carries_getInt s off).bind fun vo =>
      (h.carries_multiplier s mult).bind fun m => .ite _ (h.carries_raise φ s _) (h.carries_setIntAny s dest _)
  | pushi r =>
    exact Carries.follows fun s => (h.carries_checkPush s 2).bind fun _ => (h.carries_getInt s r).bind fun v =>
      .of_eq (h.stackWord_eq s v)
  | popi r =>
    refine Carries.follows fun s => (h.carries_checkPop s).bind fun _ => (h.carries_checkAny s r).bind fun _ => ?_
    simp only [h.unstack_eq, h.ints, h.loadWord_eq]
    exact h.carries_setIntAny (s.unstack 2) r _
  | lodi addr r =>
    refine Carries.follows fun s => (h.carries_checkWindow s addr 2).bind fun _ =>
      (h.carries_checkGeneral s r).bind fun _ => ?_
    rw [h.loadWord_eq]
    exact h.carries_setIntGeneral s r _
  | stoi addr r =>
    exact Carries.follows fun s => (h.carries_checkWindow s addr 2).bind fun _ => (h.carries_getInt s r).bind fun v =>
      .of_eq (h.storeWord_eq s addr v)
  | _ => simp [Instr.opcode, floatOpcodes] at hi

section FloatOperations

variable (h : Blind φ)
include h

theorem Blind.carries_getFlt (s : State) (f : FltId) : Carries φ id (getFlt s f) (getFlt (φ s) f) :=
  (h.carries_fltOperand s f).bind fun d => .of_eq (congrArg (FltFile.get · d) (h.flts s))

theorem Blind.carries_setFlt (s : State) (f : FltId) (w : Pattern) : Carries φ φ (setFlt s f w) (setFlt (φ s) f w) :=
  (h.carries_fltOperand s f).bind fun d => .of_eq (h.putFlt s d w)

theorem Blind.carries_pushSlot (s : State) (x : FrameSlot) : Carries φ φ (pushSlot s x) (pushSlot (φ s) x) := by
  cases x with
  | int r =>
    rw [pushSlot, pushSlot, h.ints]
    exact (h.carries_checkPush s 2).bind fun _ => .of_eq (h.stackWord_eq s _)
  | flt r =>
    rw [pushSlot, pushSlot, h.flts]
    exact (h.carries_checkPush s 4).bind fun _ => .of_eq (h.stackPattern_eq s _)

theorem Blind.carries_popSlot (s : State) (x : FrameSlot) : Carries φ φ (popSlot s x) (popSlot (φ s) x) := by
  cases x with
  | int r =>
    refine (h.carries_checkPop s).bind fun _ => .of_eq ?_
    simp only [h.unstack_eq, h.ints, h.loadWord_eq, h.putInt]
  | flt r =>
    refine (h.carries_checkPop s).bind fun _ => .of_eq ?_
    simp only [h.unstack_eq, h.ints, h.loadPattern_eq, h.putFlt]

theorem Blind.carries_pushSlots (xs : List FrameSlot) (s : State) :
    Carries φ φ (pushSlots xs s) (pushSlots xs (φ s)) := by
  induction xs generalizing s with
  | nil => exact .of_eq rfl
  | cons x xs ih => exact (h.carries_pushSlot s x).bind ih

theorem Blind.carries_popSlots (xs : List FrameSlot) (s : State) : Carries φ φ (popSlots xs s) (popSlots xs (φ s)) := by
  induction xs generalizing s with
  | nil => exact .of_eq rfl
  | cons x xs ih => exact (h.carries_popSlot s x).bind ih

/-- Every instruction follows an update that no shared operation sees. -/
theorem Blind.follows_exec (i : Instr) : Follows φ (exec i) := by
  cases i with
  | setf f w => exact Carries.follows fun s => h.carries_setFlt s f w
  | pushf f =>
    exact Carries.follows fun s => (h.carries_checkPush s 4).bind fun _ => (h.carries_getFlt s f).bind fun w =>
      .of_eq (h.stackPattern_eq s w)
  | popf f =>
    refine Carries.follows fun s => (h.carries_checkPop s).bind fun _ => (h.carries_checkFlt s f).bind fun _ => ?_
    simp only [h.unstack_eq, h.ints, h.loadPattern_eq]
    exact h.carries_setFlt (s.unstack 4) f _
  | lodf addr f =>
    refine Carries.follows fun s => (h.carries_checkWindow s addr 4).bind fun _ =>
      (h.carries_checkFlt s f).bind fun _ => ?_
    rw [h.loadPattern_eq]
    exact h.carries_setFlt s f _
  | stof addr f =>
    exact Carries.follows fun s => (h.carries_checkWindow s addr 4).bind fun _ => (h.carries_getFlt s f).bind fun w =>
      .of_eq (h.storePattern_eq s addr w)
  | call addr =>
    refine Carries.follows fun s => (h.carries_pushSlots frameSlots s).bind fun t => ?_
    rw [State.inCodeBlock, State.inCodeBlock, h.cfg]
    exact .ite _ (.of_eq (h.putInt t _ _)) (h.carries_raise φ t _)
  | retn => exact Carries.follows (h.carries_popSlots frameSlots.reverse)
  | _ => exact h.toIntegerBlind.follows_exec (by simp [Instr.opcode, floatOpcodes])

end FloatOperations

/-- The cycle counter and last_instr set to given values (10_state.md R35, R36). -/
def State.withHidden (n : Nat) (ib : Record) (s : State) : State := { s with cycles := n, lastInstr := ib }

/-- The float file replaced (10_state.md R21). -/
def State.withFlts (g : FltFile) (s : State) : State := { s with flts := g }

theorem blind_withHidden (n : Nat) (ib : Record) : Blind (State.withHidden n ib) := by
  constructor
  · constructor <;> intros <;> rfl
  all_goals intros; rfl

theorem integerBlind_withFlts (g : FltFile) : IntegerBlind (State.withFlts g) := by
  constructor <;> intros <;> rfl

end Noninterference

/-- Settles O16: setting cycles and last_instr is an update no shared operation sees. -/
theorem hiddenStateIsNeitherReadNorWritten : Obligations.HiddenStateIsNeitherReadNorWritten :=
  fun i s t n ib => (blind_withHidden n ib).follows_exec i s t

/-- Settles O18: replacing the float file is an update the integer operations do not see. -/
theorem integerInstructionsIgnoreTheFloatFile : Obligations.IntegerInstructionsIgnoreTheFloatFile :=
  fun _ s t g hi => (integerBlind_withFlts g).follows_exec hi s t

section Frames

variable {i : Instr} {s t : State}

/-- No instruction writes the configuration, the cycle counter or last_instr (10_state.md R35, R36, R39). -/
theorem Effect.keeps_cfg_cycles_lastInstr (h : Effect i s t) :
    t.cfg = s.cfg ∧ t.cycles = s.cycles ∧ t.lastInstr = s.lastInstr := by
  cases h with
  | called u _ _ hu | calledOutside u _ hu | callStopped n u _ _ hu =>
    exact ⟨(pushSlots_frame hu).cfg, (pushSlots_frame hu).cycles, (pushSlots_frame hu).lastInstr⟩
  | returned _ _ hu | returnStopped n u _ _ hu =>
    exact ⟨(popSlots_frame hu).cfg, (popSlots_frame hu).cycles, (popSlots_frame hu).lastInstr⟩
  | _ => exact ⟨rfl, rfl, rfl⟩

/-- cmp is written by CMPI, and by the conditional moves, which reset it (10_state.md R30). -/
theorem Effect.cmp_writers (h : Effect i s t) (hc : t.cmp ≠ s.cmp) :
    i.opcode = .cmpi ∨ (i.opcode ∈ moveOpcodes ∧ t.cmp = .uninitialized) := by
  cases h with
  | compared c hi => exact .inl hi
  | moved d v _ hi => exact .inr ⟨hi, rfl⟩
  | notMoved hi => exact .inr ⟨hi, rfl⟩
  | called u _ _ hu | calledOutside u _ hu | callStopped n u _ _ hu => exact absurd (pushSlots_frame hu).cmp hc
  | returned _ _ hu | returnStopped n u _ _ hu => exact absurd (popSlots_frame hu).cmp hc
  | _ => exact absurd rfl hc

theorem IntFile.eq_of_get_set_ne {f : IntFile} {d r : IntReg} {v : Word} (h : (f.set d v).get r ≠ f.get r) : r = d := by
  by_contra hn
  exact h (by rw [IntFile.get_set, if_neg hn])

theorem FltFile.ext_get {f g : FltFile} (h : ∀ r, f.get r = g.get r) : f = g := by
  cases f
  cases g
  exact FltFile.mk.injEq .. ▸ ⟨h .fr0, h .fr1, h .fr2, h .fr3, h .frv⟩

/-- Completed pushes change no integer register but sp. -/
theorem eq_sp_of_pushSlots_get_ne {xs : List FrameSlot} (h : pushSlots xs s = .ok t) {r : IntReg}
    (hr : t.ints.get r ≠ s.ints.get r) : r = .sp := by
  obtain ⟨v, hv⟩ := (pushSlots_frame h).ints
  exact IntFile.eq_of_get_set_ne (hv ▸ hr)

/-- Which instructions can write each integer register (10_state.md R24). -/
def MayWriteInt (o : Opcode) (r : IntReg) : Prop :=
  (generalAllowed r = true ∧ o ∈ [Opcode.seti, .addi, .subi, .inci, .deci, .lodi]) ∨
  (anyAllowed r = true ∧ o ∈ moveOpcodes ++ [.leai, .popi]) ∨
  (r = .sp ∧ o ∈ [Opcode.pushi, .popi, .pushf, .popf, .call, .retn]) ∨
  (r = .pc ∧ o = .call) ∨
  (.int r ∈ frameSlots ∧ o = .retn)

/-- Completed pops of registers of the frame write those and sp. -/
theorem mayWriteInt_of_popSlots {xs : List FrameSlot} (hxs : xs ⊆ frameSlots.reverse) (h : popSlots xs s = .ok t)
    (hi : i.opcode = .retn) {r : IntReg} (hr : t.ints.get r ≠ s.ints.get r) : MayWriteInt i.opcode r := by
  by_cases hsp : r = .sp
  · exact .inr (.inr (.inl ⟨hsp, by simp [hi]⟩))
  · have hmem : .int r ∈ xs := by_contra fun hn => hr ((popSlots_frame h).ints r hsp hn)
    exact .inr (.inr (.inr (.inr ⟨List.mem_reverse.mp (hxs hmem), hi⟩)))

theorem Effect.mayWriteInt (h : Effect i s t) (r : IntReg) (hr : t.ints.get r ≠ s.ints.get r) :
    MayWriteInt i.opcode r := by
  cases h with
  | general d v hd hi =>
    obtain rfl := IntFile.eq_of_get_set_ne hr
    exact .inl ⟨hd, hi⟩
  | wrapped d v k hd hi _ =>
    obtain rfl := IntFile.eq_of_get_set_ne hr
    exact .inl ⟨hd, by rcases List.mem_pair.mp hi with hi | hi <;> simp [hi]⟩
  | moved d v hd hi =>
    obtain rfl := IntFile.eq_of_get_set_ne hr
    exact .inr (.inl ⟨hd, List.mem_append_left _ hi⟩)
  | address d v hd hi =>
    obtain rfl := IntFile.eq_of_get_set_ne hr
    exact .inr (.inl ⟨hd, by simp [hi]⟩)
  | pushedWord v _ hi | pushedPattern w _ hi => exact .inr (.inr (.inl ⟨IntFile.eq_of_get_set_ne hr, by simp [hi]⟩))
  | poppedWord d v hd _ hi =>
    by_cases hrd : r = d
    · exact .inr (.inl ⟨hrd ▸ hd, by simp [hi]⟩)
    · have hsp : r = .sp := by_contra fun hsp => hr (by simp [hrd, hsp])
      exact .inr (.inr (.inl ⟨hsp, by simp [hi]⟩))
  | poppedPattern d w _ hi => exact .inr (.inr (.inl ⟨IntFile.eq_of_get_set_ne hr, by simp [hi]⟩))
  | called u addr hi hu _ =>
    by_cases hpc : r = .pc
    · exact .inr (.inr (.inr (.inl ⟨hpc, hi⟩)))
    · exact .inr (.inr (.inl ⟨eq_sp_of_pushSlots_get_ne hu (by simpa [hpc] using hr), by simp [hi]⟩))
  | calledOutside u hi hu | callStopped n u hi _ hu =>
    exact .inr (.inr (.inl ⟨eq_sp_of_pushSlots_get_ne hu hr, by simp [hi]⟩))
  | returned _ hi hu => exact mayWriteInt_of_popSlots (List.Subset.refl _) hu hi hr
  | returnStopped n u hi _ hu => exact mayWriteInt_of_popSlots (List.take_subset n _) hu hi hr
  | _ => exact absurd rfl hr

/-- Completed pops write no float register but those they name. -/
theorem mem_of_popSlots_flts_ne {xs : List FrameSlot} (h : popSlots xs s = .ok t) {r : FltReg}
    (hr : t.flts.get r ≠ s.flts.get r) : .flt r ∈ xs :=
  by_contra fun hn => hr ((popSlots_frame h).flts r hn)

/-- A float register is written by SETF, POPF and LODF, and by RETN when the frame holds it (10_state.md R24). -/
theorem Effect.mayWriteFlt (h : Effect i s t) (r : FltReg) (hr : t.flts.get r ≠ s.flts.get r) :
    i.opcode ∈ [Opcode.setf, .popf, .lodf] ∨ (.flt r ∈ frameSlots ∧ i.opcode = .retn) := by
  cases h with
  | float d w hi => exact .inl (by rcases List.mem_pair.mp hi with hi | hi <;> simp [hi])
  | poppedPattern d w _ hi => exact .inl (by simp [hi])
  | called u _ _ hu | calledOutside u _ hu | callStopped n u _ _ hu =>
    exact absurd (congrArg (FltFile.get · r) (pushSlots_frame hu).flts) hr
  | returned _ hi hu => exact .inr ⟨List.mem_reverse.mp (mem_of_popSlots_flts_ne hu hr), hi⟩
  | returnStopped n u hi _ hu =>
    exact .inr ⟨List.mem_reverse.mp (List.mem_of_mem_take (mem_of_popSlots_flts_ne hu hr)), hi⟩
  | _ => exact absurd rfl hr

end Frames

/-- Settles O29: each register's writers, read off the table for that register; a float file that differs does so in some
register, and the frame holds every float register but frv. -/
theorem registersChangeOnlyByTheirInstructions : Obligations.RegistersChangeOnlyByTheirInstructions := by
  intro i s t h
  have hint := (exec_effect h).mayWriteInt
  have hflt := (exec_effect h).mayWriteFlt
  refine ⟨fun hr => ?_, fun hr => ?_, fun hr => ?_, fun hr => ?_, fun hr => ?_, fun hr => ?_⟩
  · simpa [MayWriteInt, generalAllowed, anyAllowed, frameSlots] using hint .sp hr
  · simpa [MayWriteInt, generalAllowed, anyAllowed, frameSlots, or_assoc] using hint .bp hr
  · simpa [MayWriteInt, generalAllowed, anyAllowed, frameSlots] using hint .irv hr
  · simpa [MayWriteInt, generalAllowed, anyAllowed, frameSlots, or_assoc] using hint .pc hr
  · obtain ⟨r, hr⟩ := not_forall.mp (mt FltFile.ext_get hr)
    rcases hflt r hr with hi | ⟨-, hi⟩
    · exact List.mem_append_left [Opcode.retn] hi
    · simp [hi]
  · simpa [frameSlots] using hflt .frv hr

/-- Settles O30: the effects that write cmp are CMPI's and the conditional moves'. -/
theorem cmpChangesOnlyByCompareAndMoves : Obligations.CmpChangesOnlyByCompareAndMoves :=
  fun _ _ _ h => (exec_effect h).cmp_writers

/-- Settles O15: the sequencer keeps the fetched record, and the instruction then leaves last_instr and the configuration. -/
theorem lastInstrIsTheFetchedRecord : Obligations.LastInstrIsTheFetchedRecord := by
  intro s t h
  obtain ⟨-, -, hp, ⟨i, -, hi⟩ | ⟨-, rfl⟩⟩ := step_eq_next h
  · obtain ⟨hcfg, -, hlast⟩ := (exec_effect hi).keeps_cfg_cycles_lastInstr
    rw [hlast, hcfg]
    exact ⟨State.fetched_eq hp, rfl⟩
  · exact ⟨State.fetched_eq hp, rfl⟩

/-- A byte above every byte of a table stands for no name. -/
theorem nameOf?_eq_none_of_lt {α : Type} {rows : List (Byte × α)} {n : Nat} (hrows : ∀ p ∈ rows, p.1.toNat < n) {b : Byte}
    (hb : n ≤ b.toNat) : nameOf? rows b = none := by
  cases h : nameOf? rows b with
  | none => rfl
  | some x => exact absurd (hrows _ (mem_of_nameOf? h)) (Nat.not_lt.mpr hb)

theorem intReg?_ex_of_out_of_range {id : IntId} (h : 0x08 ≤ id.toNat) : Config.ex.intReg? id = none :=
  nameOf?_eq_none_of_lt (by decide : ∀ p ∈ defaultIntIds, p.1.toNat < 0x08) h

theorem fltReg?_ex_of_out_of_range {id : FltId} (h : 0x05 ≤ id.toNat) : Config.ex.fltReg? id = none :=
  nameOf?_eq_none_of_lt (by decide : ∀ p ∈ defaultFltIds, p.1.toNat < 0x05) h

/-- Settles O7: the tables of R22 end at 0x07 and 0x04, and an accessor given an id outside its table raises. -/
theorem registerIdsNameTheRegisters : Obligations.RegisterIdsNameTheRegisters := by
  refine ⟨by decide, by decide, fun s hs => ⟨fun id v hid => ?_, fun id w hid => ?_⟩⟩
  · have hnone : s.cfg.intReg? id = none := hs ▸ intReg?_ex_of_out_of_range hid
    exact ⟨getInt_of_none hnone, setIntGeneral_of_none hnone v, setIntAny_of_none hnone v⟩
  · have hnone : s.cfg.fltReg? id = none := hs ▸ fltReg?_ex_of_out_of_range hid
    exact ⟨getFlt_of_none hnone, setFlt_of_none hnone w⟩

theorem State.engine_eq_running_iff {s : State} : s.engine = .running ↔ s.status = .noError := by
  cases h : s.status <;> simp [State.engine, h]

theorem State.engine_eq_halted_iff {s : State} : s.engine = .halted ↔ s.status = .halt := by
  cases h : s.status <;> simp [State.engine, h]

theorem State.engine_eq_errored_iff {s : State} {k : ErrorKind} : s.engine = .errored k ↔ s.status = .error k := by
  cases h : s.status <;> simp [State.engine, h]

/-- Settles O11: a step that has a next state began with status NoError. -/
theorem engineStateFollowsStatus : Obligations.EngineStateFollowsStatus := by
  refine ⟨fun s => ⟨State.engine_eq_running_iff, State.engine_eq_halted_iff, fun _ => State.engine_eq_errored_iff⟩,
    fun c => rfl, fun s t hs h => ?_⟩
  obtain ⟨-, hstatus, -⟩ := step_eq_next h
  exact hs (State.engine_eq_running_iff.mpr hstatus)

/-- Settles O21: the reset state is written with these values, and an empty memory reads 0x00 everywhere. -/
theorem resetLeavesTheStatedValues : Obligations.ResetLeavesTheStatedValues :=
  ⟨fun _ => ⟨rfl, rfl, rfl, rfl, fun _ => rfl, rfl, rfl⟩, fun _ => rfl⟩

/-- Settles O32: the read after write of the two files. -/
theorem registersAreSeparate : Obligations.RegistersAreSeparate :=
  ⟨fun f r q v => f.get_set r v q, fun f r q w => f.get_set r w q⟩

end Sys2Proof.Machine

/-! ### Memory: the regions an instruction writes, byte order, the program load (20_memory.md) -/

namespace Sys2Proof.Machine

section Regions

variable {R : Nat → Prop} {i : Instr} {s t u : State}

/-- From `s` the machine went to `t` under the same configuration: memory stays canonical, sp keeps its rule (44_stack.md R187),
and every byte that changed lies in `R`. -/
structure Confined (R : Nat → Prop) (s t : State) : Prop where
  cfg : t.cfg = s.cfg
  memWf : t.mem.wf
  stackOk : t.stackOk
  changed : ∀ a, t.mem.read a ≠ s.mem.read a → R a

theorem Confined.inv (h : Confined R s t) (hs : s.Inv) : t.Inv := ⟨h.cfg ▸ hs.1, h.memWf, h.stackOk⟩

theorem Confined.refl (hs : s.Inv) : Confined R s s := ⟨rfl, hs.2.1, hs.2.2, fun _ h => absurd rfl h⟩

theorem Confined.trans (h : Confined R s u) (h' : Confined R u t) : Confined R s t := by
  refine ⟨h'.cfg.trans h.cfg, h'.memWf, h'.stackOk, fun a ha => ?_⟩
  by_cases hu : u.mem.read a = s.mem.read a
  · exact h'.changed a (hu ▸ ha)
  · exact h.changed a hu

/-- An update that leaves the configuration, memory and sp adds nothing to what was changed. -/
theorem Confined.then_same (h : Confined R s u) (hcfg : t.cfg = u.cfg) (hmem : t.mem = u.mem)
    (hsp : t.ints.sp = u.ints.sp) : Confined R s t := by
  obtain ⟨h1, h2, h3, h4⟩ := h
  exact ⟨hcfg.trans h1, hmem ▸ h2, by rwa [State.stackOk, hsp, hcfg], hmem ▸ h4⟩

/-- An update that leaves memory and keeps sp's rule. -/
theorem Confined.of_mem_eq (hs : s.Inv) (hcfg : t.cfg = s.cfg) (hmem : t.mem = s.mem) (hstack : t.stackOk) :
    Confined R s t :=
  ⟨hcfg, hmem ▸ hs.2.1, hstack, fun _ ha => absurd (congrArg (Memory.read · _) hmem) ha⟩

/-- A run of bytes stored below the top of memory, inside `R`. -/
theorem Confined.of_writeBytes (hs : s.Inv) {a : Word} {bs : List Byte} {n : Nat} (hn : bs.length = n)
    (hcfg : t.cfg = s.cfg) (hmem : t.mem = s.mem.writeBytes a bs) (hstack : t.stackOk) (hfit : a.toNat + n ≤ 65536)
    (hR : ∀ x, a.toNat ≤ x → x < a.toNat + n → R x) : Confined R s t := by
  obtain ⟨-, hm, -⟩ := hs
  subst hn
  refine ⟨hcfg, hmem ▸ Memory.wf_writeBytes hm a bs, hstack, fun x hx => ?_⟩
  by_cases hin : a.toNat ≤ x ∧ x < a.toNat + bs.length
  · exact hR x hin.1 hin.2
  · exact absurd (hmem ▸ Memory.read_writeBytes_of_outside hm hfit (by omega)) hx

/-- Raising sp by an even size that fits keeps its rule (44_stack.md R184, R187). -/
theorem stackOk_of_raised {n : Nat} (hs : s.stackOk) (hn : n % 2 = 0) (hfit : s.ints.sp.toNat + n ≤ s.cfg.maxAddr.toNat)
    (hcfg : t.cfg = s.cfg) (hsp : t.ints.sp = s.ints.sp + BitVec.ofNat 16 n) : t.stackOk := by
  have htop : t.ints.sp.toNat = s.ints.sp.toNat + n := hsp ▸ word_toNat_add_ofNat _ n (by omega)
  rw [State.stackOk, hcfg, htop]
  omega

/-- Lowering sp, from above RW_MAX, by a pop's size keeps its rule: sp is then at least RW_MAX + 2 (44_stack.md R185, R187). -/
theorem stackOk_of_lowered {n : Nat} (hs : s.Inv) (hn : n = 2 ∨ n = 4) (hpop : s.cfg.rwMax.toNat < s.ints.sp.toNat)
    (hcfg : t.cfg = s.cfg) (hsp : t.ints.sp = s.ints.sp - BitVec.ofNat 16 n) : t.stackOk := by
  obtain ⟨⟨hbounds, -⟩, -, hstack⟩ := hs
  have hlow : t.ints.sp.toNat = s.ints.sp.toNat - n := hsp ▸ word_toNat_sub_ofNat _ n (by omega)
  rw [State.stackOk, hcfg, hlow]
  omega

/-- The bytes an instruction may change: stores, those of the read-write block below RW_MAX; pushes, those from RW_MAX - 2 and below
MAX_ADDR; any other, none (20_memory.md R59; 44_stack.md R187). -/
abbrev MayWriteByte (c : Config) (o : Opcode) (a : Nat) : Prop :=
  ((o = .stoi ∨ o = .stof) ∧ c.rwMin.toNat ≤ a ∧ a < c.rwMax.toNat) ∨
  ((o = .pushi ∨ o = .pushf ∨ o = .call) ∧ c.rwMax.toNat ≤ a + 2 ∧ a < c.maxAddr.toNat)

/-- No instruction may write the code block. -/
theorem not_mayWriteByte_of_lt_rwMin {c : Config} (hc : c.boundsOk) {o : Opcode} {a : Nat} (ha : a < c.rwMin.toNat) :
    ¬ MayWriteByte c o a := by
  rintro (⟨-, hlo, -⟩ | ⟨-, hlo, -⟩) <;> omega

section Pushes

variable {o : Opcode} (hs : s.Inv) (ho : o = .pushi ∨ o = .pushf ∨ o = .call)
include hs ho

theorem confined_stackWord (hfit : s.ints.sp.toNat + 2 ≤ s.cfg.maxAddr.toNat) (v : Word) :
    Confined (MayWriteByte s.cfg o) s (s.stackWord v) := by
  have ⟨_, _, hstack⟩ := hs
  exact .of_writeBytes hs (wordBytes_length _ _) rfl rfl (stackOk_of_raised hstack rfl hfit rfl rfl) (by omega)
    fun x hlo hhi => .inr ⟨ho, by omega, by omega⟩

theorem confined_stackPattern (hfit : s.ints.sp.toNat + 4 ≤ s.cfg.maxAddr.toNat) (w : Pattern) :
    Confined (MayWriteByte s.cfg o) s (s.stackPattern w) := by
  have ⟨_, _, hstack⟩ := hs
  exact .of_writeBytes hs (patternBytes_length _ _) rfl rfl (stackOk_of_raised hstack rfl hfit rfl rfl) (by omega)
    fun x hlo hhi => .inr ⟨ho, by omega, by omega⟩

/-- Pushes that complete, of any registers, are confined: each one is. -/
theorem confined_pushSlots {xs : List FrameSlot} (h : pushSlots xs s = .ok t) :
    Confined (MayWriteByte s.cfg o) s t := by
  refine pushSlots_ok_keeps (fun u x v hu hx => hu.trans ?_) (.refl hs) h
  rw [← hu.cfg]
  rcases pushSlot_cases u x with ⟨r, -, hfit, h⟩ | ⟨r, -, hfit, h⟩ | h <;> rw [h] at hx <;> cases hx
  · exact confined_stackWord (hu.inv hs) ho hfit _
  · exact confined_stackPattern (hu.inv hs) ho hfit _

end Pushes

section Pops

variable (hs : s.Inv)
include hs

theorem confined_popWord (hpop : s.cfg.rwMax.toNat < s.ints.sp.toNat) {d : IntReg} (hd : d ≠ .sp) (v : Word) :
    Confined R s ((s.unstack 2).putInt d v) :=
  .of_mem_eq hs rfl rfl (stackOk_of_lowered hs (.inl rfl) hpop rfl (IntFile.sp_set_of_ne hd _ v))

theorem confined_popPattern (hpop : s.cfg.rwMax.toNat < s.ints.sp.toNat) (d : FltReg) (w : Pattern) :
    Confined R s ((s.unstack 4).putFlt d w) :=
  .of_mem_eq hs rfl rfl (stackOk_of_lowered hs (.inr rfl) hpop rfl rfl)

/-- Pops that complete, of any registers but sp, are confined: each one is. -/
theorem confined_popSlots {xs : List FrameSlot} (hxs : .int .sp ∉ xs) (h : popSlots xs s = .ok t) : Confined R s t := by
  refine popSlots_ok_keeps (fun u x v hmem hu hx => hu.trans ?_) (.refl hs) h
  rcases popSlot_cases u x with ⟨r, rfl, hpop, h⟩ | ⟨r, -, hpop, h⟩ | h <;> rw [h] at hx <;> cases hx
  · exact confined_popWord (hu.inv hs) hpop (fun hr => hxs (hr ▸ hmem)) _
  · exact confined_popPattern (hu.inv hs) hpop r _

end Pops

/-- From a state with the invariant every effect is confined to the bytes its instruction may change. -/
theorem Effect.confined (h : Effect i s t) (hs : s.Inv) : Confined (MayWriteByte s.cfg i.opcode) s t := by
  have hrefl : Confined (MayWriteByte s.cfg i.opcode) s s := .refl hs
  have hframe : .int .sp ∉ frameSlots.reverse := by decide
  cases h with
  | halt | raised | float | compared | notMoved => exact hrefl.then_same rfl rfl rfl
  | general d v hd _ | wrapped d v _ hd _ _ =>
    exact hrefl.then_same rfl rfl (IntFile.sp_set_of_ne (ne_sp_of_generalAllowed hd) s.ints v)
  | moved d v hd _ | address d v hd _ =>
    exact hrefl.then_same rfl rfl (IntFile.sp_set_of_ne (ne_sp_of_anyAllowed hd) s.ints v)
  | pushedWord v hfit hi => exact confined_stackWord hs (.inl hi) hfit v
  | pushedPattern w hfit hi => exact confined_stackPattern hs (.inr (.inl hi)) hfit w
  | poppedWord d v hd hpop _ => exact confined_popWord hs hpop (ne_sp_of_anyAllowed hd) v
  | poppedPattern d w hpop _ => exact confined_popPattern hs hpop d w
  | storedWord a v hlo hhi hi =>
    exact .of_writeBytes hs (wordBytes_length _ _) rfl rfl hrefl.stackOk (by omega)
      fun x hx hx' => .inl ⟨.inl hi, by omega, by omega⟩
  | storedPattern a w hlo hhi hi =>
    exact .of_writeBytes hs (patternBytes_length _ _) rfl rfl hrefl.stackOk (by omega)
      fun x hx hx' => .inl ⟨.inr hi, by omega, by omega⟩
  | called u _ hi hu _ | calledOutside u hi hu | callStopped n u hi _ hu =>
    exact (confined_pushSlots hs (.inr (.inr hi)) hu).then_same rfl rfl rfl
  | returned _ _ hu => exact confined_popSlots hs hframe hu
  | returnStopped n u _ _ hu =>
    exact (confined_popSlots hs (fun hsp => hframe (List.mem_of_mem_take hsp)) hu).then_same rfl rfl rfl

theorem Confined.sameCodeBlock {o : Opcode} (h : Confined (MayWriteByte s.cfg o) s t) (hc : s.cfg.boundsOk) :
    SameCodeBlock s t :=
  fun a ha => by_contra fun hne => not_mayWriteByte_of_lt_rwMin hc ha (h.changed a hne)

/-- Every step keeps the code block, the invariant and the configuration: the sequencer writes none of them, and the instruction is
confined. -/
theorem step_keeps_codeBlock_inv_cfg (hs : s.Inv) (h : step s = .next t) : SameCodeBlock s t ∧ t.Inv ∧ t.cfg = s.cfg := by
  obtain ⟨hc, -, -, ⟨i, -, hi⟩ | ⟨-, rfl⟩⟩ := step_eq_next h
  · have hexec : s.executing.Inv := hs
    have hconf := (exec_effect hi).confined hexec
    exact ⟨hconf.sameCodeBlock hc.1, hconf.inv hexec, hconf.cfg⟩
  · exact ⟨fun _ _ => rfl, hs, rfl⟩

end Regions

/-- Settles O25: what every step keeps, carried along the run; the code block is the same block in each state, since the
configuration is. -/
theorem noRunWritesTheCodeBlock : Obligations.NoRunWritesTheCodeBlock := by
  intro n s t hs hrun
  refine run_keeps (P := fun s t => s.Inv → SameCodeBlock s t ∧ t.Inv ∧ t.cfg = s.cfg)
    (fun s hs => ⟨fun _ _ => rfl, hs, rfl⟩) (fun s u t hstep ih hs => ?_) hrun hs
  obtain ⟨hcode, hinv, hcfg⟩ := step_keeps_codeBlock_inv_cfg hs hstep
  obtain ⟨hcode', hinv', hcfg'⟩ := ih hinv
  exact ⟨fun a ha => (hcode' a (hcfg ▸ ha)).trans (hcode a ha), hinv', hcfg'.trans hcfg⟩

/-- Settles O24: every effect is confined to the bytes its instruction may change, and none of those is in the code block. -/
theorem memoryWritesStayInTheirRegions : Obligations.MemoryWritesStayInTheirRegions := by
  intro i s t hs h
  have hconf := (exec_effect h).confined hs
  exact ⟨hconf.changed, hconf.stackOk, hconf.sameCodeBlock hs.1.1⟩

/-- Byte `k` of a stored pattern lies at offset `k`. -/
theorem Memory.read_writePattern_add {m : Memory} (hm : m.wf) (e : Endian) (a : Word) (w : Pattern)
    (h : a.toNat + 3 < 65536) {k : Nat} (hk : k < 4) :
    (m.writePattern e a w).read (a.toNat + k) = patternByte e w k := by
  rw [Memory.read_writePattern hm e a w h]
  interval_cases k <;> simp

/-- Settles O54: the bytes a store leaves are those `wordByte` and `patternByte` name, and a read in the same order assembles them. -/
theorem byteOrderOfMultiByteValues : Obligations.ByteOrderOfMultiByteValues := by
  refine ⟨fun m a v hm h => ?_, fun m a w hm h => ⟨fun k hk => ⟨?_, ?_⟩, fun e => ?_⟩, fun b0 b1 => ⟨rfl, rfl⟩⟩
  · have hlow (e : Endian) : (m.writeWord e a v).read a.toNat = wordByte e v 0 := by
      simp [Memory.read_writeWord hm e a v h]
    have hhigh (e : Endian) : (m.writeWord e a v).read (a.toNat + 1) = wordByte e v 1 := by
      simp [Memory.read_writeWord hm e a v h]
    exact ⟨hlow .little, hhigh .little, hlow .big, hhigh .big, fun e => Memory.readWord_writeWord hm e a v h⟩
  · exact Memory.read_writePattern_add hm .little a w h hk
  · exact Memory.read_writePattern_add hm .big a w h hk
  · exact Memory.readPattern_writePattern hm e a w h

/-- Storing bytes, however often it goes around memory: an address holds the last byte stored to it (20_memory.md R70). -/
theorem Memory.read_writeBytes_last {m : Memory} (hm : m.wf) (a : Word) (bs : List Byte) {k : Nat} (hk : k < bs.length)
    (hlast : bs.length ≤ k + 65536) : (m.writeBytes a bs).read ((a.toNat + k) % 65536) = bs.getD k 0 := by
  have hsplit : m.writeBytes a bs = (m.writeBytes a (bs.take k)).writeBytes (a + BitVec.ofNat 16 k) (bs.drop k) := by
    have happ := Memory.writeBytes_append m a (bs.take k) (bs.drop k)
    rwa [List.take_append_drop, List.length_take_of_le (Nat.le_of_lt hk)] at happ
  have htail := Memory.read_writeBytes_wrapped (Memory.wf_writeBytes hm a (bs.take k)) (a + BitVec.ofNat 16 k)
    (bs.drop k) (by rw [List.length_drop]; omega) 0 (by rw [List.length_drop]; omega)
  rw [hsplit]
  simpa using htail

/-- Settles O58: the load stores the first `n` bytes after the header, and a store changes only the addresses it goes over. -/
theorem programLoadCopiesTheRecords : Obligations.ProgramLoadCopiesTheRecords := by
  intro s base h0 h1 rest n hm hn hlen
  have hlength : (rest.take n).length = n := List.length_take_of_le hlen
  have hload : s.loadProgram base (h0 :: h1 :: rest) = s.putMem (s.mem.writeBytes base (rest.take n)) := by
    rw [State.loadProgram, programBytes, ← hn, State.load]
  refine ⟨_, hload, rfl, Memory.wf_writeBytes hm base _, fun k hk hlast => ?_, fun a ha => ?_⟩
  · rw [State.putMem_mem, Memory.read_writeBytes_last hm base _ (by omega) (by omega)]
    simp [List.getD_eq_getElem?_getD, hk]
  · refine Memory.read_writeBytes_of_ne hm fun k hk => ?_
    simpa [BitVec.toNat_add] using ha k (by omega)

end Sys2Proof.Machine

/-! ### Encoding: the round trip, the unused bytes and the opcode map (30_encoding.md) -/

namespace Sys2Proof

/-- The operand fields of an instruction's record are its operands (30_encoding.md R81, R91). -/
theorem operandsOf_encode (c : Config) (i : Instr) : operandsOf c i.opcode (encode c i) = i := by
  cases i with
  | seti r v => exact Laws.OperandFields.seti r v c
  | setf f w => exact Laws.OperandFields.setf f w c
  | lodi addr r => exact Laws.OperandFields.lodi addr r c
  | stoi addr r => exact Laws.OperandFields.stoi addr r c
  | lodf addr f => exact Laws.OperandFields.lodf addr f c
  | stof addr f => exact Laws.OperandFields.stof addr f c
  | call addr => exact Laws.OperandFields.call addr c
  | _ => rfl

/-- Settles O4: the opcode byte selects the mnemonic, whose fields are the operands. -/
theorem decodeUndoesEncode : Obligations.DecodeUndoesEncode := by
  intro c hc i
  have hop : c.opcodeAt? (encode c i).b0 = some i.opcode := encode_b0 c i ▸ opcodeAt?_opcodeByte hc i.opcode
  exact decode_eq_ok_iff.mpr ⟨i.opcode, hop, operandsOf_encode c i⟩

/-- The record that keeps the first `n` bytes of `r` and has 0x00 in the others. -/
def Record.keep (r : Record) (n : Nat) : Record :=
  let bs := r.bytes.take n
  ⟨bs.getD 0 0, bs.getD 1 0, bs.getD 2 0, bs.getD 3 0, bs.getD 4 0, bs.getD 5 0⟩

theorem Record.keep_congr {r q : Record} {n : Nat} (h : r.bytes.take n = q.bytes.take n) : r.keep n = q.keep n := by
  rw [Record.keep, Record.keep, h]

theorem Record.bytes_keep (r : Record) {n : Nat} (hn : n ≤ 6) :
    (r.keep n).bytes = r.bytes.take n ++ List.replicate (6 - n) 0 := by
  interval_cases n <;> rfl

theorem Record.take_bytes_keep (r : Record) {n : Nat} (hn : n ≤ 6) : (r.keep n).bytes.take n = r.bytes.take n := by
  rw [r.bytes_keep hn, List.take_left' (List.length_take_of_le hn)]

theorem Record.drop_bytes_keep (r : Record) {n : Nat} (hn : n ≤ 6) :
    (r.keep n).bytes.drop n = List.replicate (6 - n) 0 := by
  rw [r.bytes_keep hn, List.drop_left' (List.length_take_of_le hn)]

theorem Schema.usedBytes_le (sc : Schema) : sc.usedBytes ≤ 6 := by cases sc <;> decide

/-- The operand fields lie in the bytes the opcode's schema uses (30_encoding.md R81, R85). -/
theorem operandsOf_keep (c : Config) (o : Opcode) (r : Record) :
    operandsOf c o (r.keep o.schema.usedBytes) = operandsOf c o r := by
  cases o <;> rfl

/-- The encoder puts every operand field back in its place and writes 0x00 in the unused bytes (30_encoding.md R81, R85). -/
theorem encode_operandsOf {c : Config} {o : Opcode} {r : Record} (h : c.opcodeByte o = r.b0) :
    encode c (operandsOf c o r) = r.keep o.schema.usedBytes := by
  cases o with
  | setf | seti | lodi | stoi | lodf | stof | call =>
    simp [operandsOf, imm16At1, imm16At2, imm32At2, patternByte_assemblePattern, encode, recordS2, recordS3, recordS6,
      Instr.opcode, h, Record.keep, Record.bytes, Opcode.schema, Schema.usedBytes]
  | _ =>
    rw [operandsOf, encode, Instr.opcode, h]
    rfl

/-- Settles O5: the record keeps the decoded one's used bytes. -/
theorem encodeRestoresTheUsedBytes : Obligations.EncodeRestoresTheUsedBytes := by
  intro c hc r i h
  obtain ⟨o, ho, rfl⟩ := decode_eq_ok_iff.mp h
  rw [encode_operandsOf (opcodeByte_of_opcodeAt? hc ho), operandsOf_opcode]
  exact r.take_bytes_keep o.schema.usedBytes_le

/-- An encoded record holds 0x00 in the bytes its schema does not use (30_encoding.md R85). -/
theorem encode_eq_keep (c : Config) (i : Instr) : encode c i = (encode c i).keep i.opcode.schema.usedBytes := by
  have h := encode_operandsOf (encode_b0 c i).symm
  rwa [operandsOf_encode] at h

/-- Settles O6: the operand fields are read from the used bytes alone, and an encoded record is its used bytes followed by
0x00. -/
theorem unusedBytesAreIgnored : Obligations.UnusedBytesAreIgnored := by
  refine ⟨fun c r q hb h => ?_, fun c i b hmem => ?_⟩
  · cases ho : c.opcodeAt? r.b0 with
    | none => rw [decode_eq_error_iff.mpr ⟨ho, rfl⟩, decode_eq_error_iff.mpr ⟨hb ▸ ho, rfl⟩, hb]
    | some o =>
      have hops : operandsOf c o r = operandsOf c o q := by
        rw [← operandsOf_keep c o r, Record.keep_congr (h o ho), operandsOf_keep]
      rw [decode_eq_ok_iff.mpr ⟨o, ho, hops⟩, decode_eq_ok_iff.mpr ⟨o, hb ▸ ho, rfl⟩]
  · rw [encode_eq_keep, Record.drop_bytes_keep _ (Schema.usedBytes_le _)] at hmem
    exact List.eq_of_mem_replicate hmem

/-- Settles O1: each line's record and each record's line, evaluated. -/
theorem exampleLinesEncodeAndDecode : Obligations.ExampleLinesEncodeAndDecode := by
  unfold Obligations.ExampleLinesEncodeAndDecode
  decide

/-- Settles O2: the table has a row for the byte, whatever the operand bytes, and the row's schema gives the fields. -/
theorem opcodeMapSelectsTheInstruction : Obligations.OpcodeMapSelectsTheInstruction := by
  intro x1 x2 x3 x4 x5
  and_intros <;> exact decode_eq_ok_iff.mpr ⟨_, rfl, rfl⟩

theorem nameOf?_eq_none_iff {α : Type} {rows : List (Byte × α)} {b : Byte} :
    nameOf? rows b = none ↔ b ∉ rows.map Prod.fst := by
  induction rows with
  | nil => simp [nameOf?]
  | cons row rows ih =>
    by_cases hk : row.1 = b
    · simp [nameOf?, hk]
    · simp [nameOf?, hk, Ne.symm hk, ih]

/-- The opcode bytes of R86 are 0x01 to 0x19; the others are illegal (30_encoding.md R87). -/
theorem opcodeAt?_ex_eq_none_iff (b : Byte) : Config.ex.opcodeAt? b = none ↔ b = 0x00 ∨ 0x1A ≤ b.toNat := by
  rw [Config.opcodeAt?, nameOf?_eq_none_iff]
  simp only [Config.ex, defaultOpcodeMap, List.map_cons, List.map_nil, List.mem_cons, List.not_mem_nil, or_false, not_or]
  bv_omega

theorem isNone_opcodeAt?_ex {n : Nat} (hn : n < 256) :
    (Config.ex.opcodeAt? (BitVec.ofNat 8 n)).isNone = decide (n = 0 ∨ 0x1A ≤ n) := by
  rw [Bool.eq_iff_iff, Option.isNone_iff_eq_none, opcodeAt?_ex_eq_none_iff, decide_eq_true_iff]
  bv_omega

end Sys2Proof

namespace Sys2Proof.Machine

/-- A running core whose fetch is in range, and finds no opcode byte, stops there (40_sequencer.md R113). -/
theorem step_of_opcodeAt?_none {s : State} (hc : s.cfg.Valid) (hs : s.status = .noError)
    (hp : s.ints.pc.toNat ≤ 0xFFFA) (h : s.cfg.opcodeAt? (s.mem.read s.ints.pc.toNat) = none) :
    step s = .next s.undecoded := by
  have hd : decode s.cfg s.fetched = .error (.unrecognizedOpcode s.fetched.b0) :=
    decode_eq_error_iff.mpr ⟨by rwa [State.fetched_eq hp], rfl⟩
  rw [step, prepare_of_running hc hs hp, hd]

/-- Settles O3: a record fails to decode by its opcode byte alone, and its fetch leaves the registers. -/
theorem illegalOpcodeBytesAreRejected : Obligations.IllegalOpcodeBytesAreRejected := by
  refine ⟨fun r => ?_, ?_, fun s hcfg hs hp hb => ?_⟩
  · rw [decode_eq_error_iff, opcodeAt?_ex_eq_none_iff, and_iff_left rfl]
  · rw [List.filter_congr fun n hn => isNone_opcodeAt?_ex (List.mem_range.mp hn)]
    rfl
  · have hc : s.cfg.Valid := hcfg ▸ Tests.test_ex_is_valid
    have hnone := (opcodeAt?_ex_eq_none_iff _).mpr hb
    exact ⟨_, step_of_opcodeAt?_none hc hs hp (hcfg ▸ hnone), rfl, rfl⟩

end Sys2Proof.Machine

/-! ### RegisterUnrecognized is raised for register ids alone (30_encoding.md R88, 60_exceptions.md R242) -/

namespace Sys2Proof.Machine

section Recognized

variable {α β : Type} {s : State}

/-- The status of the state is not RegisterUnrecognized. -/
def State.Recognized (s : State) : Prop := s.status ≠ .error .registerUnrecognized

/-- A part of an instruction whose raise is not RegisterUnrecognized and whose result, if it has one, is in `Q`. -/
def Recognizes (Q : α → Prop) : Exec α → Prop
  | .ok a => Q a
  | .error t => t.Recognized

theorem Recognizes.of_result {Q : α → Prop} {a : α} (h : Q a) : Recognizes Q (pure a) := h

theorem Recognizes.bind {P : α → Prop} {Q : β → Prop} {x : Exec α} {f : α → Exec β} (hx : Recognizes P x)
    (hf : ∀ a, P a → Recognizes Q (f a)) : Recognizes Q (x >>= f) := by
  cases x with
  | ok a => exact hf a hx
  | error t => exact hx

theorem Recognizes.ite {Q : α → Prop} {x y : Exec α} (c : Prop) [Decidable c] (hx : Recognizes Q x)
    (hy : Recognizes Q y) : Recognizes Q (if c then x else y) := by
  split
  · exact hx
  · exact hy

theorem recognizes_raise {Q : α → Prop} (s : State) {k : ErrorKind} (hk : k ≠ .registerUnrecognized) :
    Recognizes Q (raise s k) :=
  fun h => hk (Status.error.inj h)

/-- The next state, if the answer is one, has a status other than RegisterUnrecognized. -/
def AnswerRecognized (o : Answer) : Prop := ∀ t, o = .next t → t.Recognized

/-- The state `finish` answers is the result or the state a raise left. -/
theorem Recognizes.finish {x : Exec State} (h : Recognizes State.Recognized x) : AnswerRecognized (finish x) := by
  intro t ht
  rcases finish_eq_next_iff.mp ht with rfl | rfl <;> exact h

theorem recognizes_checkWindow (s : State) (addr : Word) (n : Nat) :
    Recognizes (fun _ => True) (checkWindow s addr n) :=
  .ite _ trivial (recognizes_raise s nofun)

theorem recognizes_checkPush (s : State) (n : Nat) : Recognizes (fun _ => True) (checkPush s n) :=
  .ite _ trivial (recognizes_raise s nofun)

theorem recognizes_checkPop (s : State) : Recognizes (fun _ => True) (checkPop s) :=
  .ite _ trivial (recognizes_raise s nofun)

section Operands

variable {id : Byte}

theorem recognizes_intOperand (h : s.cfg.namesInt id = true) : Recognizes (fun _ => True) (intOperand s id) := by
  obtain ⟨r, hr⟩ := Option.isSome_iff_exists.mp h
  rw [intOperand, hr]
  trivial

theorem recognizes_fltOperand (h : s.cfg.namesFlt id = true) : Recognizes (fun _ => True) (fltOperand s id) := by
  obtain ⟨r, hr⟩ := Option.isSome_iff_exists.mp h
  rw [fltOperand, hr]
  trivial

theorem recognizes_getInt (h : s.cfg.namesInt id = true) : Recognizes (fun _ => True) (getInt s id) :=
  (recognizes_intOperand h).bind fun _ _ => trivial

theorem recognizes_getFlt (h : s.cfg.namesFlt id = true) : Recognizes (fun _ => True) (getFlt s id) :=
  (recognizes_fltOperand h).bind fun _ _ => trivial

theorem recognizes_generalDest (h : s.cfg.namesInt id = true) : Recognizes (fun _ => True) (generalDest s id) :=
  (recognizes_intOperand h).bind fun _ _ => .ite _ trivial (recognizes_raise s nofun)

theorem recognizes_anyDest (h : s.cfg.namesInt id = true) : Recognizes (fun _ => True) (anyDest s id) :=
  (recognizes_intOperand h).bind fun _ _ => .ite _ trivial (recognizes_raise s nofun)

theorem recognizes_checkGeneral (h : s.cfg.namesInt id = true) : Recognizes (fun _ => True) (checkGeneral s id) :=
  (recognizes_generalDest h).bind fun _ _ => trivial

theorem recognizes_checkAny (h : s.cfg.namesInt id = true) : Recognizes (fun _ => True) (checkAny s id) :=
  (recognizes_anyDest h).bind fun _ _ => trivial

theorem recognizes_checkFlt (h : s.cfg.namesFlt id = true) : Recognizes (fun _ => True) (checkFlt s id) :=
  (recognizes_fltOperand h).bind fun _ _ => trivial

theorem recognizes_multiplier (h : s.cfg.leaMultMode = .literal ∨ s.cfg.namesInt id = true) :
    Recognizes (fun _ => True) (multiplier s id) := by
  rw [multiplier]
  split
  · trivial
  next hmode =>
    have hid := h.resolve_left (by simp [hmode])
    exact (recognizes_getInt hid).bind fun _ _ => trivial

variable (hs : s.Recognized)
include hs

theorem recognizes_setIntGeneral (h : s.cfg.namesInt id = true) (v : Word) :
    Recognizes State.Recognized (setIntGeneral s id v) :=
  (recognizes_generalDest h).bind fun _ _ => hs

theorem recognizes_setIntAny (h : s.cfg.namesInt id = true) (v : Word) :
    Recognizes State.Recognized (setIntAny s id v) :=
  (recognizes_anyDest h).bind fun _ _ => hs

theorem recognizes_setFlt (h : s.cfg.namesFlt id = true) (w : Pattern) :
    Recognizes State.Recognized (setFlt s id w) :=
  (recognizes_fltOperand h).bind fun _ _ => hs

theorem recognizes_condMove (p : Condition) {src dst : IntId}
    (h : (s.cfg.namesInt src && s.cfg.namesInt dst) = true) :
    Recognizes State.Recognized (condMove p src dst s) := by
  obtain ⟨hsrc, hdst⟩ := Bool.and_eq_true_iff.mp h
  exact .ite _ (recognizes_raise s nofun) <| .ite _
    ((recognizes_getInt hsrc).bind fun v _ => (recognizes_setIntAny hs hdst v).bind fun _ ht => ht) hs

end Operands

section Frames

variable (hs : s.Recognized)
include hs

/-- The pushes of a frame read registers by name, so they stop with StackOverflow alone. -/
theorem recognizes_pushSlots (xs : List FrameSlot) : Recognizes State.Recognized (pushSlots xs s) := by
  cases h : pushSlots xs s with
  | ok t => exact fun ht => hs ((pushSlots_frame h).status ▸ ht)
  | error t =>
    obtain ⟨-, u, -, -, rfl⟩ := pushSlots_error h
    exact recognizes_raise (Q := State.Recognized) u nofun

/-- The pops of a frame write registers by name, so they stop with StackUnderflow alone. -/
theorem recognizes_popSlots (xs : List FrameSlot) : Recognizes State.Recognized (popSlots xs s) := by
  cases h : popSlots xs s with
  | ok t => exact fun ht => hs ((popSlots_frame h).status ▸ ht)
  | error t =>
    obtain ⟨-, u, -, -, rfl⟩ := popSlots_error h
    exact recognizes_raise (Q := State.Recognized) u nofun

end Frames

/-- An instruction whose register operands all name registers finds them, and raises RegisterUnrecognized nowhere else. -/
theorem answerRecognized_exec (hs : s.Recognized) {i : Instr} (hw : i.wellFormed s.cfg = true) :
    AnswerRecognized (exec i s) := by
  cases i with
  | halt =>
    rintro t ⟨⟩
    exact nofun
  | seti r v => exact (recognizes_setIntGeneral hs hw v).finish
  | setf f w => exact (recognizes_setFlt hs hw w).finish
  | addi a b | subi a b =>
    obtain ⟨ha, hb⟩ := Bool.and_eq_true_iff.mp hw
    exact Recognizes.finish <| (recognizes_getInt ha).bind fun va _ => (recognizes_getInt hb).bind fun vb _ =>
      (recognizes_setIntGeneral hs hb _).bind fun u hu => .ite _ (recognizes_raise u nofun) (.of_result hu)
  | inci r => exact Recognizes.finish <| (recognizes_getInt hw).bind fun v _ => recognizes_setIntGeneral hs hw _
  | deci r =>
    exact Recognizes.finish <| (recognizes_getInt hw).bind fun v _ => (recognizes_checkGeneral hw).bind fun _ _ =>
      .ite _ (recognizes_raise s nofun) (recognizes_setIntGeneral hs hw _)
  | cmpi a b =>
    obtain ⟨ha, hb⟩ := Bool.and_eq_true_iff.mp hw
    exact Recognizes.finish <| (recognizes_getInt ha).bind fun va _ => (recognizes_getInt hb).bind fun vb _ =>
      .of_result hs
  | meqi | mnei | mgti | mgei | mlti | mlei => exact (recognizes_condMove hs _ hw).finish
  | leai base off mult dest =>
    simp only [Instr.wellFormed, Bool.and_eq_true, Bool.or_eq_true, decide_eq_true_eq] at hw
    obtain ⟨⟨⟨hbase, hoff⟩, hmult⟩, hdest⟩ := hw
    exact Recognizes.finish <| (recognizes_getInt hbase).bind fun vb _ => (recognizes_getInt hoff).bind fun vo _ =>
      (recognizes_multiplier hmult).bind fun m _ => .ite _ (recognizes_raise s nofun)
        (recognizes_setIntAny hs hdest _)
  | pushi r =>
    exact Recognizes.finish <| (recognizes_checkPush s 2).bind fun _ _ => (recognizes_getInt hw).bind fun v _ =>
      .of_result hs
  | popi r =>
    exact Recognizes.finish <| (recognizes_checkPop s).bind fun _ _ => (recognizes_checkAny hw).bind fun _ _ =>
      recognizes_setIntAny (s := s.unstack 2) hs hw _
  | pushf f =>
    exact Recognizes.finish <| (recognizes_checkPush s 4).bind fun _ _ => (recognizes_getFlt hw).bind fun w _ =>
      .of_result hs
  | popf f =>
    exact Recognizes.finish <| (recognizes_checkPop s).bind fun _ _ => (recognizes_checkFlt hw).bind fun _ _ =>
      recognizes_setFlt (s := s.unstack 4) hs hw _
  | lodi addr r =>
    exact Recognizes.finish <| (recognizes_checkWindow s addr 2).bind fun _ _ =>
      (recognizes_checkGeneral hw).bind fun _ _ => recognizes_setIntGeneral hs hw _
  | stoi addr r =>
    exact Recognizes.finish <| (recognizes_checkWindow s addr 2).bind fun _ _ =>
      (recognizes_getInt hw).bind fun v _ => .of_result hs
  | lodf addr f =>
    exact Recognizes.finish <| (recognizes_checkWindow s addr 4).bind fun _ _ =>
      (recognizes_checkFlt hw).bind fun _ _ => recognizes_setFlt hs hw _
  | stof addr f =>
    exact Recognizes.finish <| (recognizes_checkWindow s addr 4).bind fun _ _ =>
      (recognizes_getFlt hw).bind fun w _ => .of_result hs
  | call addr =>
    exact Recognizes.finish <| (recognizes_pushSlots hs frameSlots).bind fun u hu =>
      .ite _ (.of_result hu) (recognizes_raise u nofun)
  | retn => exact (recognizes_popSlots hs frameSlots.reverse).finish

end Recognized

/-- Settles O31: a status of NoError is not RegisterUnrecognized, and a well-formed instruction does not make it so. -/
theorem wellFormedNeverRaisesRegisterUnrecognized : Obligations.WellFormedNeverRaisesRegisterUnrecognized := by
  intro i s t hw hstatus
  have hs : s.Recognized := by simp [State.Recognized, hstatus]
  exact answerRecognized_exec hs hw t

end Sys2Proof.Machine

/-! ### The sequencer: what a step answers, case by case, and how a run ends (40_sequencer.md) -/

namespace Sys2Proof.Machine

section SequencerCases

variable {s : State}

/-- A core that is Halted or Errored has no step (40_sequencer.md R115). -/
theorem prepare_of_stopped (hc : s.cfg.Valid) (hs : s.status ≠ .noError) :
    prepare s = .answer (.fault (.stopped s.status)) := by
  rw [prepare, if_neg (not_not.mpr hc), if_pos hs]

/-- A running core whose fetch is out of range faults with the cycle counted (60_exceptions.md R243; log 4). -/
theorem prepare_of_fetch_out_of_range (hc : s.cfg.Valid) (hs : s.status = .noError) (hp : 0xFFFA < s.ints.pc.toNat) :
    prepare s = .answer (.fault (.fetchOutOfRange s.countCycle)) := by
  rw [prepare, if_neg (not_not.mpr hc), if_neg (not_not.mpr hs), if_neg (by simpa [State.fetchInRange] using hp)]

/-- A running core whose fetched record decodes executes the instruction (40_sequencer.md R110). -/
theorem step_of_decode_ok {i : Instr} (hc : s.cfg.Valid) (hs : s.status = .noError) (hp : s.ints.pc.toNat ≤ 0xFFFA)
    (hd : decode s.cfg s.fetched = .ok i) : step s = exec i s.executing := by
  rw [step, prepare_of_running hc hs hp, hd]

/-- A fetch past the top happens only to a running core. -/
theorem status_of_step_fetchOutOfRange {w : State} (h : step s = .fault (.fetchOutOfRange w)) : s.status = .noError := by
  by_contra hs
  by_cases hc : s.cfg.Valid
  · rw [step, prepare_of_stopped hc hs] at h
    cases h
  · rw [step, prepare_of_not_valid hc] at h
    cases h

/-- A core out of Running steps to no state (40_sequencer.md R115). -/
theorem step_ne_next_of_stopped {t : State} (hs : s.engine ≠ .running) : step s ≠ .next t := by
  obtain ⟨-, -, hstopped⟩ := engineStateFollowsStatus
  exact hstopped s t hs

end SequencerCases

/-- Settles O8: the fetched bytes are the record given, so the state executed in is the one written out. -/
theorem stepRunsTheDecodedInstruction : Obligations.StepRunsTheDecodedInstruction := by
  rintro s ib i hc hs hp rfl hd
  rw [← State.fetched_eq hp] at hd ⊢
  exact step_of_decode_ok hc hs hp hd

/-- Settles O9: the record's first byte is the byte at pc, which no opcode has. -/
theorem unrecognizedOpcodeStops : Obligations.UnrecognizedOpcodeStops := by
  rintro s ib hc hs hp rfl hnone
  rw [← State.fetched_eq hp]
  exact step_of_opcodeAt?_none hc hs hp hnone

/-- Settles O10: the sequencer's answer is the step's own. -/
theorem fetchPastTheTopFaults : Obligations.FetchPastTheTopFaults := by
  intro s hc hs hp
  rw [step, prepare_of_fetch_out_of_range hc hs hp]
  rfl

/-- Settles O19: HALT answers a next state itself; every other instruction ends in `finish`, which answers the result or the state
a raise left. -/
theorem everyInstructionEndsInANextState : Obligations.EveryInstructionEndsInANextState := by
  intro i s
  cases i with
  | halt => exact ⟨_, rfl⟩
  | _ => exact finish_eq_next _

/-- Settles O13: in range a record decodes to an instruction, which ends in a next state, or stops the core, which is one. -/
theorem stepsExactlyWhenRunningAndInRange : Obligations.StepsExactlyWhenRunningAndInRange := by
  refine fun s => ⟨fun ⟨t, h⟩ => ?_, fun ⟨hc, hs, hp⟩ => ?_⟩
  · obtain ⟨hc, hs, hp, -⟩ := step_eq_next h
    exact ⟨hc, hs, hp⟩
  · cases hd : decode s.cfg s.fetched with
    | ok i =>
      obtain ⟨t, ht⟩ := everyInstructionEndsInANextState i s.executing
      exact ⟨t, (step_of_decode_ok hc hs hp hd).trans ht⟩
    | error e =>
      obtain ⟨hnone, -⟩ := decode_eq_error_iff.mp hd
      rw [State.fetched_eq hp] at hnone
      exact ⟨_, step_of_opcodeAt?_none hc hs hp hnone⟩

/-- The sequencer counts the step, and the instruction leaves the count (40_sequencer.md R116). -/
theorem step_cycles {s t : State} (h : step s = .next t) : t.cycles = s.cycles + 1 := by
  obtain ⟨-, -, -, ⟨i, -, hi⟩ | ⟨-, rfl⟩⟩ := step_eq_next h
  · obtain ⟨-, hcycles, -⟩ := (exec_effect hi).keeps_cfg_cycles_lastInstr
    exact hcycles
  · rfl

theorem run_cycles {n : Nat} {s t : State} (h : Sys2Proof.core.run n s = .next t) : t.cycles = s.cycles + n := by
  induction n generalizing s with
  | zero =>
    cases h
    rfl
  | succ n ih =>
    obtain ⟨u, hstep, hrun⟩ := run_succ h
    rw [ih hrun, step_cycles hstep]
    omega

/-- Settles O14: one step, the run by induction on its length, and reset, where the count is 0. -/
theorem everyStepCountsOneCycle : Obligations.EveryStepCountsOneCycle :=
  ⟨fun _ _ => step_cycles, fun _ _ _ => run_cycles, fun n _ _ h => (run_cycles h).trans (Nat.zero_add n)⟩

section RunEnds

variable {m n : Nat} {s t u w : State}

/-- A core out of Running goes no further: the only run it has is the one of no step (40_sequencer.md R115). -/
theorem run_of_stopped (hs : s.engine ≠ .running) (h : Sys2Proof.core.run n s = .next t) : n = 0 ∧ t = s := by
  cases n with
  | zero =>
    cases h
    exact ⟨rfl, rfl⟩
  | succ n =>
    obtain ⟨u, hstep, -⟩ := run_succ h
    exact absurd hstep (step_ne_next_of_stopped hs)

/-- Two runs from one state that both end out of Running take the same steps. -/
theorem run_end_unique (ht : t.engine ≠ .running) (hu : u.engine ≠ .running) (hm : Sys2Proof.core.run m s = .next t)
    (hn : Sys2Proof.core.run n s = .next u) : m = n ∧ u = t := by
  induction m generalizing n s with
  | zero =>
    cases hm
    obtain ⟨rfl, rfl⟩ := run_of_stopped ht hn
    exact ⟨rfl, rfl⟩
  | succ m ih =>
    cases n with
    | zero =>
      cases hn
      obtain ⟨h, -⟩ := run_of_stopped hu hm
      exact absurd h m.succ_ne_zero
    | succ n =>
      obtain ⟨v, hstep, hm⟩ := run_succ hm
      obtain ⟨v', hstep', hn⟩ := run_succ hn
      obtain rfl := Host.Outcome.next.inj (hstep.symm.trans hstep')
      obtain ⟨rfl, rfl⟩ := ih hm hn
      exact ⟨rfl, rfl⟩

/-- A state from which a run ends out of Running has no run into a fetch past the top. -/
theorem run_ne_fetchOutOfRange (ht : t.engine ≠ .running) (hm : Sys2Proof.core.run m s = .next t) :
    Sys2Proof.core.run n s ≠ .fault (.fetchOutOfRange w) := by
  intro hn
  induction n generalizing m s with
  | zero => cases hn
  | succ n ih =>
    cases m with
    | zero =>
      cases hm
      rcases run_fault hn with hfault | ⟨u, hstep, -⟩
      · exact ht (State.engine_eq_running_iff.mpr (status_of_step_fetchOutOfRange hfault))
      · exact step_ne_next_of_stopped ht hstep
    | succ m =>
      obtain ⟨v, hstep, hm⟩ := run_succ hm
      rcases run_fault hn with hfault | ⟨v', hstep', hn⟩
      · cases hstep.symm.trans hfault
      · obtain rfl := Host.Outcome.next.inj (hstep.symm.trans hstep')
        exact ih hm hn

end RunEnds

/-- Settles O17: two ends are one state, which has one engine state. -/
theorem runsEndOneWay : Obligations.RunsEndOneWay := by
  refine fun s => ⟨fun m n t u hm hn ht hu => run_end_unique ht hu hm hn, fun m n t w hm ht => run_ne_fetchOutOfRange ht hm,
    fun e ⟨m, t, hm, ht⟩ ⟨n, u, hn, hu⟩ => ?_, fun e e' ⟨m, t, hm, ht⟩ ⟨n, u, hn, hu⟩ => ?_⟩
  · obtain ⟨-, rfl⟩ := run_end_unique (by simp [ht]) (by simp [hu]) hm hn
    cases ht.symm.trans hu
  · obtain ⟨-, rfl⟩ := run_end_unique (by simp [ht]) (by simp [hu]) hm hn
    exact EngineState.errored.inj (ht.symm.trans hu)

/-- Settles O20: the opcode byte alone selects HALT, which writes the status of the state with pc advanced. -/
theorem haltStopsCleanly : Obligations.HaltStopsCleanly := by
  refine ⟨fun x1 x2 x3 x4 x5 => decode_eq_ok_iff.mpr ⟨.halt, rfl, rfl⟩, fun _ => rfl, fun s hc hs hp hop => ?_⟩
  have hd : decode s.cfg s.fetched = .ok .halt :=
    decode_eq_ok_iff.mpr ⟨.halt, by rwa [State.fetched_eq hp], rfl⟩
  exact ⟨_, step_of_decode_ok hc hs hp hd, rfl, rfl, rfl, rfl, rfl⟩

end Sys2Proof.Machine

/-! ### Register set, integer arithmetic and compare (41_arithmetic.md) -/

namespace Sys2Proof.Machine

section IntegerPair

variable {α : Type} {s : State} {a b : IntId} (f : Word → Word → Exec α)

/-- ADDI, SUBI and CMPI begin with two reads; an id of either that names no register ends them there (00_scope.md R11). -/
theorem getInt_getInt_bind_of_none (h : s.cfg.intReg? a = none ∨ s.cfg.intReg? b = none) :
    (getInt s a >>= fun va => getInt s b >>= f va) = raise s .registerUnrecognized := by
  cases ha : s.cfg.intReg? a with
  | none => rw [getInt_of_none ha, exec_raise_bind]
  | some ra =>
    have hb : s.cfg.intReg? b = none := h.resolve_left (by simp [ha])
    rw [getInt_of_some ha, exec_ok_bind, getInt_of_none hb, exec_raise_bind]

theorem getInt_getInt_bind_of_some {ra rb : IntReg} (ha : s.cfg.intReg? a = some ra) (hb : s.cfg.intReg? b = some rb) :
    (getInt s a >>= fun va => getInt s b >>= f va) = f (s.ints.get ra) (s.ints.get rb) := by
  rw [getInt_of_some ha, exec_ok_bind, getInt_of_some hb, exec_ok_bind]

end IntegerPair

section StoreThenFlag

/-- What ADDI and SUBI share: the result goes into `b`, and then the wrap is raised (41_arithmetic.md R134, R136). -/
def storeThenFlag (result : Word → Word → Word) (wraps : Word → Word → Bool) (k : ErrorKind) (a b : IntId) (s : State) :
    Exec State := do
  let va ← getInt s a
  let vb ← getInt s b
  let t ← setIntGeneral s b (result va vb)
  if wraps va vb then raise t k else pure t

theorem exec_addi (a b : IntId) (s : State) :
    exec (.addi a b) s = finish (storeThenFlag sumOf sumWrapped .arithmeticOverflow a b s) := rfl

theorem exec_subi (a b : IntId) (s : State) :
    exec (.subi a b) s = finish (storeThenFlag differenceOf differenceWrapped .arithmeticUnderflow a b s) := rfl

variable {result : Word → Word → Word} {wraps : Word → Word → Bool} {k : ErrorKind} {a b : IntId} {s : State}

theorem finish_storeThenFlag_of_allowed {ra rb : IntReg} (ha : s.cfg.intReg? a = some ra) (hb : s.cfg.intReg? b = some rb)
    (hg : IsGeneral rb) :
    finish (storeThenFlag result wraps k a b s) = .next
      { s with
        ints := s.ints.set rb (result (s.ints.get ra) (s.ints.get rb))
        status := if wraps (s.ints.get ra) (s.ints.get rb) then .error k else s.status } := by
  rw [storeThenFlag, getInt_getInt_bind_of_some _ ha hb, setIntGeneral_of_allowed hb (isGeneral_iff.mp hg), exec_ok_bind]
  cases wraps (s.ints.get ra) (s.ints.get rb) <;> rfl

theorem finish_storeThenFlag_of_refused {ra rb : IntReg} (ha : s.cfg.intReg? a = some ra) (hb : s.cfg.intReg? b = some rb)
    (hg : ¬ IsGeneral rb) :
    finish (storeThenFlag result wraps k a b s) = .next { s with status := .error .registerNotAllowed } := by
  rw [storeThenFlag, getInt_getInt_bind_of_some _ ha hb, setIntGeneral_of_refused hb (not_isGeneral_iff.mp hg),
    exec_raise_bind]
  rfl

theorem finish_storeThenFlag_of_none (h : s.cfg.intReg? a = none ∨ s.cfg.intReg? b = none) :
    finish (storeThenFlag result wraps k a b s) = .next { s with status := .error .registerUnrecognized } := by
  rw [storeThenFlag, getInt_getInt_bind_of_none _ h]
  rfl

end StoreThenFlag

/-- Settles O35: the wrap test is the carry out of bit 15, and the sum is stored before it is raised. -/
theorem addiStoresTheSumAndFlagsOverflow : Obligations.AddiStoresTheSumAndFlagsOverflow := by
  refine fun s a b => ⟨fun x3 x4 x5 => decode_eq_ok_iff.mpr ⟨.addi, rfl, rfl⟩, fun ra rb ha hb hg => ?_,
    fun ra rb ha hb hg => finish_storeThenFlag_of_refused ha hb hg, finish_storeThenFlag_of_none⟩
  rw [exec_addi, finish_storeThenFlag_of_allowed ha hb hg, sumWrapped_eq]
  simp only [decide_eq_true_iff, sumOf]

/-- Settles O36: the wrap test is the borrow, and the difference is stored before it is raised. -/
theorem subiStoresTheDifferenceAndFlagsUnderflow : Obligations.SubiStoresTheDifferenceAndFlagsUnderflow := by
  refine fun s a b => ⟨fun x3 x4 x5 => decode_eq_ok_iff.mpr ⟨.subi, rfl, rfl⟩, fun ra rb ha hb hg => ?_,
    fun ra rb ha hb hg => finish_storeThenFlag_of_refused ha hb hg, finish_storeThenFlag_of_none⟩
  rw [exec_subi, finish_storeThenFlag_of_allowed ha hb hg, differenceWrapped_eq]
  simp only [decide_eq_true_iff, differenceOf_eq_sub]

/-- Settles O33: SETI is `set_int_general`, which looks at the id and then at the register. -/
theorem setiWritesAGeneralRegister : Obligations.SetiWritesAGeneralRegister := by
  refine fun s id v =>
    ⟨fun lo hi x4 x5 hv => decode_eq_ok_iff.mpr ⟨.seti, rfl, congrArg (Instr.seti id) hv.symm⟩,
      fun r hr hg => ?_, fun r hr hg => ?_, fun hr => ?_⟩
  · exact congrArg finish (setIntGeneral_of_allowed hr (isGeneral_iff.mp hg) v)
  · exact congrArg finish (setIntGeneral_of_refused hr (not_isGeneral_iff.mp hg) v)
  · exact congrArg finish (setIntGeneral_of_none hr v)

/-- Settles O34: SETF is `set_float`, which refuses no register. -/
theorem setfWritesAFloatRegister : Obligations.SetfWritesAFloatRegister := fun _ id w =>
  ⟨fun _ _ _ _ hw => decode_eq_ok_iff.mpr ⟨.setf, rfl, congrArg (Instr.setf id) hw.symm⟩,
    fun _ hr => congrArg finish (setFlt_of_some hr w), fun hr => congrArg finish (setFlt_of_none hr w)⟩

theorem exec_inci_of_some {s : State} {id : IntId} {r : IntReg} (h : s.cfg.intReg? id = some r) :
    exec (.inci id) s = finish (setIntGeneral s id (s.ints.get r + 1)) := by
  rw [exec, execInci, getInt_of_some h, exec_ok_bind]

theorem exec_deci_of_some {s : State} {id : IntId} {r : IntReg} (h : s.cfg.intReg? id = some r) :
    exec (.deci id) s = finish (checkGeneral s id >>= fun _ =>
      if s.ints.get r = 0 then raise s .decrementZero else setIntGeneral s id (s.ints.get r - 1)) := by
  rw [exec, execDeci, getInt_of_some h, exec_ok_bind]

/-- Settles O37: the sum mod 2^16 is the word's own sum, and nothing tests it. -/
theorem inciAddsOneSilently : Obligations.InciAddsOneSilently := by
  refine fun s id => ⟨fun x2 x3 x4 x5 => decode_eq_ok_iff.mpr ⟨.inci, rfl, rfl⟩, fun r hr hg => ?_, fun r hr hg => ?_,
    fun hr => ?_⟩
  · have hsum : BitVec.ofNat 16 (((s.ints.get r).toNat + 1) % 2 ^ 16) = s.ints.get r + 1 := by bv_omega
    rw [exec_inci_of_some hr, setIntGeneral_of_allowed hr (isGeneral_iff.mp hg), hsum]
    rfl
  · rw [exec_inci_of_some hr, setIntGeneral_of_refused hr (not_isGeneral_iff.mp hg)]
    rfl
  · rw [exec, execInci, getInt_of_none hr, exec_raise_bind]
    rfl

/-- Settles O38: the register is refused before its value is tested (92_eei_decisions.md D9), and a value that is not 0 has no
borrow. -/
theorem deciSubtractsOneAndRefusesZero : Obligations.DeciSubtractsOneAndRefusesZero := by
  refine fun s id => ⟨fun x2 x3 x4 x5 => decode_eq_ok_iff.mpr ⟨.deci, rfl, rfl⟩, fun r hr hg hv => ?_,
    fun r hr hg hv => ?_, fun r hr hg => ?_, fun hr => ?_⟩
  · have hg' := isGeneral_iff.mp hg
    have hdiff : BitVec.ofNat 16 ((s.ints.get r).toNat - 1) = s.ints.get r - 1 := by bv_omega
    rw [exec_deci_of_some hr, checkGeneral_of_allowed hr hg', exec_ok_bind, if_neg hv, setIntGeneral_of_allowed hr hg', hdiff]
    rfl
  · rw [exec_deci_of_some hr, checkGeneral_of_allowed hr (isGeneral_iff.mp hg), exec_ok_bind, if_pos hv]
    rfl
  · rw [exec_deci_of_some hr, checkGeneral_of_refused hr (not_isGeneral_iff.mp hg), exec_raise_bind]
    rfl
  · rw [exec, execDeci, getInt_of_none hr, exec_raise_bind]
    rfl

/-- Words are equal iff their unsigned values are (41_arithmetic.md R142). -/
theorem compareWords_eq (va vb : Word) :
    compareWords va vb = if va = vb then .equal else if vb.toNat < va.toNat then .greater else .less := by
  simp only [compareWords, BitVec.toNat_inj]

/-- Settles O39: both reads first, and then cmp is overwritten by the comparison. -/
theorem cmpiComparesUnsigned : Obligations.CmpiComparesUnsigned := by
  refine fun s a b => ⟨fun x3 x4 x5 => decode_eq_ok_iff.mpr ⟨.cmpi, rfl, rfl⟩, fun ra rb ha hb => ?_, fun h => ?_⟩
  · rw [exec, execCmpi, getInt_getInt_bind_of_some _ ha hb, compareWords_eq]
    rfl
  · rw [exec, execCmpi, getInt_getInt_bind_of_none _ h]
    rfl

end Sys2Proof.Machine

/-! ### Conditional moves (42_conditional_move.md) -/

namespace Sys2Proof.Machine

section MoveCases

variable {p : Condition} {s : State} {src dst : IntId}

theorem ne_uninitialized_of_predicateHolds {c : CmpFlag} (h : PredicateHolds p c) : c ≠ .uninitialized := by
  rintro rfl
  simp [PredicateHolds] at h

/-- A move with no comparison to consume raises before it looks at an id (42_conditional_move.md R150, R159). -/
theorem exec_moveOf_of_uninitialized (hc : s.cmp = .uninitialized) :
    exec (moveOf p src dst) s = .next { s with status := .error .comparisonNotInitialized } := by
  rw [exec_moveOf, condMove, if_pos hc]
  rfl

/-- A move whose predicate fails consumes cmp and looks at no id (42_conditional_move.md R150). -/
theorem exec_moveOf_of_fails (hc : s.cmp ≠ .uninitialized) (hp : ¬ PredicateHolds p s.cmp) :
    exec (moveOf p src dst) s = .next { s with cmp := .uninitialized } := by
  rw [exec_moveOf, condMove, if_neg hc, if_neg (mt (predicateHolds_iff p s.cmp).mpr hp)]
  rfl

/-- A move whose predicate holds is a read, a `set_int_any` and the reset of cmp (42_conditional_move.md R150). -/
theorem exec_moveOf_of_holds (hp : PredicateHolds p s.cmp) :
    exec (moveOf p src dst) s =
      finish (getInt s src >>= fun v => setIntAny s dst v >>= fun t => pure (t.putCmp .uninitialized)) := by
  rw [exec_moveOf, condMove, if_neg (ne_uninitialized_of_predicateHolds hp), if_pos ((predicateHolds_iff p s.cmp).mp hp)]

theorem exec_moveOf_of_moved {rs rd : IntReg} (hp : PredicateHolds p s.cmp) (hsrc : s.cfg.intReg? src = some rs)
    (hdst : s.cfg.intReg? dst = some rd) (hd : rd ≠ .sp) :
    exec (moveOf p src dst) s = .next { s with ints := s.ints.set rd (s.ints.get rs), cmp := .uninitialized } := by
  rw [exec_moveOf_of_holds hp, getInt_of_some hsrc, exec_ok_bind, setIntAny_of_allowed hdst (ne_sp_iff.mp hd), exec_ok_bind]
  rfl

theorem exec_moveOf_of_sp {rs : IntReg} (hp : PredicateHolds p s.cmp) (hsrc : s.cfg.intReg? src = some rs)
    (hdst : s.cfg.intReg? dst = some .sp) :
    exec (moveOf p src dst) s = .next { s with status := .error .registerNotAllowed } := by
  rw [exec_moveOf_of_holds hp, getInt_of_some hsrc, exec_ok_bind, setIntAny_of_refused hdst rfl, exec_raise_bind]
  rfl

theorem exec_moveOf_of_none (hp : PredicateHolds p s.cmp) (h : s.cfg.intReg? src = none ∨ s.cfg.intReg? dst = none) :
    exec (moveOf p src dst) s = .next { s with status := .error .registerUnrecognized } := by
  rw [exec_moveOf_of_holds hp]
  cases hsrc : s.cfg.intReg? src with
  | none =>
    rw [getInt_of_none hsrc, exec_raise_bind]
    rfl
  | some rs =>
    have hdst : s.cfg.intReg? dst = none := h.resolve_left (by simp [hsrc])
    rw [getInt_of_some hsrc, exec_ok_bind, setIntAny_of_none hdst, exec_raise_bind]
    rfl

/-- A move that ends with NoError did not raise, and so consumed cmp (42_conditional_move.md R150). -/
theorem cmp_of_exec_moveOf {t : State} (h : exec (moveOf p src dst) s = .next t) (ht : t.status = .noError) :
    t.cmp = .uninitialized := by
  rw [exec_moveOf] at h
  rcases condMove_cases p src dst s with ⟨-, -, d, q, -, hmoved⟩ | ⟨-, -, hfails⟩ | ⟨k, -, hraised⟩
  · cases hmoved.symm.trans h
    rfl
  · cases hfails.symm.trans h
    rfl
  · cases hraised.symm.trans h
    cases ht

end MoveCases

/-- Settles O40: each clause is one case of the common rule, under the predicate the opcode selects. -/
theorem conditionalMovesFollowTheirPredicate : Obligations.ConditionalMovesFollowTheirPredicate := by
  refine fun p s src dst => ⟨fun x3 x4 x5 => ?_, exec_moveOf_of_uninitialized, exec_moveOf_of_fails,
    fun hp => ⟨fun rs rd => exec_moveOf_of_moved hp, fun rs => exec_moveOf_of_sp hp, exec_moveOf_of_none hp⟩⟩
  exact decode_eq_ok_iff.mpr ⟨(moveOf p src dst).opcode, by cases p <;> rfl, by cases p <;> rfl⟩

/-- Settles O41: the move executes with pc already advanced, so the pc it writes, or reads as its source, is over pc_next. -/
theorem conditionalMoveIntoPcBranches : Obligations.ConditionalMoveIntoPcBranches := by
  intro p s src dst rs hc hs hp hd hcmp hsrc hdst
  rw [step_of_decode_ok hc hs hp hd]
  by_cases hholds : PredicateHolds p s.cmp
  · refine ⟨_, exec_moveOf_of_moved (s := s.executing) hholds hsrc hdst nofun, hs, rfl, ?_⟩
    have hsource : s.executing.ints.get rs = if rs = .pc then s.ints.pc + 6 else s.ints.get rs := IntFile.get_set ..
    by_cases hrs : rs = .pc
    · rw [if_neg fun h => h.2 hrs, hsource, if_pos hrs]
      rfl
    · rw [if_pos ⟨hholds, hrs⟩, hsource, if_neg hrs]
      rfl
  · refine ⟨_, exec_moveOf_of_fails (s := s.executing) hcmp hholds, hs, rfl, ?_⟩
    rw [if_neg fun h => hholds h.1]
    rfl

/-- Settles O42: the first move leaves the cmp on which any move raises. -/
theorem comparisonIsConsumedOnce : Obligations.ComparisonIsConsumedOnce := by
  intro p q s t u src dst src' dst' _ h ht
  have hcmp := cmp_of_exec_moveOf h ht
  exact ⟨hcmp, fun hu => exec_moveOf_of_uninitialized (hu.trans hcmp)⟩

end Sys2Proof.Machine

/-! ### Load effective address (43_address.md) -/

namespace Sys2Proof.Machine

section AddressCases

variable {s : State} {base off dest : IntId} {mult : Byte} {rb ro : IntReg} {m : Nat}

/-- `(vb + ((vo << m) mod 2^16)) mod 2^16` reduces the sum once (43_address.md R170). -/
theorem effectiveAddress_eq (vb vo : Word) (m : Nat) :
    effectiveAddress vb vo m = BitVec.ofNat 16 (vb.toNat + vo.toNat * 2 ^ m) := by
  rw [effectiveAddress, BitVec.ofNat_add, BitVec.ofNat_toNat, BitVec.setWidth_eq]

/-- The multiplier in either mode: the literal byte, or the value of the register it names (43_address.md R171). -/
theorem multiplier_eq_ok (h : s.cfg.leaMultMode = .literal ∧ m = mult.toNat ∨
    s.cfg.leaMultMode = .register ∧ ∃ rm, s.cfg.intReg? mult = some rm ∧ m = (s.ints.get rm).toNat) :
    multiplier s mult = .ok m := by
  rcases h with ⟨hmode, rfl⟩ | ⟨hmode, rm, hrm, rfl⟩
  · exact multiplier_literal hmode mult
  · exact multiplier_register hmode hrm

/-- Once base, off and the multiplier are read, the multiplier's test comes before the destination (43_address.md R170). -/
theorem exec_leai_of_reads (hb : s.cfg.intReg? base = some rb) (ho : s.cfg.intReg? off = some ro)
    (hm : multiplier s mult = .ok m) :
    exec (.leai base off mult dest) s = finish (if 2 < m then raise s .invalidAddressMultiplier
      else setIntAny s dest (effectiveAddress (s.ints.get rb) (s.ints.get ro) m)) := by
  rw [exec, execLeai, getInt_getInt_bind_of_some _ hb ho, hm, exec_ok_bind]

theorem exec_leai_of_large_multiplier (hb : s.cfg.intReg? base = some rb) (ho : s.cfg.intReg? off = some ro)
    (hm : multiplier s mult = .ok m) (h2 : 2 < m) :
    exec (.leai base off mult dest) s = .next { s with status := .error .invalidAddressMultiplier } := by
  rw [exec_leai_of_reads hb ho hm, if_pos h2]
  rfl

/-- With a multiplier of at most 2, LEAI is `set_int_any` of the address (43_address.md R170). -/
theorem exec_leai_of_multiplier (hb : s.cfg.intReg? base = some rb) (ho : s.cfg.intReg? off = some ro)
    (hm : multiplier s mult = .ok m) (h2 : m ≤ 2) :
    exec (.leai base off mult dest) s = finish (setIntAny s dest
      (BitVec.ofNat 16 ((s.ints.get rb).toNat + (s.ints.get ro).toNat * 2 ^ m))) := by
  rw [exec_leai_of_reads hb ho hm, if_neg (Nat.not_lt.mpr h2), effectiveAddress_eq]

/-- An id of base, off or, in Register mode, mult that names no register ends the reads (43_address.md R170, R171). -/
theorem exec_leai_of_none (h : s.cfg.intReg? base = none ∨ s.cfg.intReg? off = none ∨
    (s.cfg.leaMultMode = .register ∧ s.cfg.intReg? mult = none)) :
    exec (.leai base off mult dest) s = .next { s with status := .error .registerUnrecognized } := by
  rw [exec, execLeai]
  by_cases hpair : s.cfg.intReg? base = none ∨ s.cfg.intReg? off = none
  · rw [getInt_getInt_bind_of_none _ hpair]
    rfl
  · obtain ⟨hbase, hoff⟩ := not_or.mp hpair
    obtain ⟨rb, hb⟩ := Option.ne_none_iff_exists'.mp hbase
    obtain ⟨ro, ho⟩ := Option.ne_none_iff_exists'.mp hoff
    obtain ⟨hmode, hmult⟩ := (h.resolve_left hbase).resolve_left hoff
    rw [getInt_getInt_bind_of_some _ hb ho, multiplier_register_none hmode hmult, exec_raise_bind]
    rfl

end AddressCases

/-- Settles O43: the two modes differ in where the multiplier comes from alone, and after its test LEAI is `set_int_any`. -/
theorem leaiComputesTheAddress : Obligations.LeaiComputesTheAddress := by
  refine fun s base off mult dest => ⟨fun x5 => decode_eq_ok_iff.mpr ⟨.leai, rfl, rfl⟩, fun rb ro m hb ho hmode => ?_,
    exec_leai_of_none⟩
  have hm := multiplier_eq_ok hmode
  refine ⟨exec_leai_of_large_multiplier hb ho hm, fun h2 => ?_⟩
  rw [exec_leai_of_multiplier hb ho hm h2]
  exact ⟨fun rd hd hsp => congrArg finish (setIntAny_of_allowed hd (ne_sp_iff.mp hsp) _),
    fun hd => congrArg finish (setIntAny_of_refused hd rfl _), fun hd => congrArg finish (setIntAny_of_none hd _)⟩

end Sys2Proof.Machine

/-! ### Stack (44_stack.md) -/

namespace Sys2Proof.Machine

/-- Settles O23: it is part of what every step keeps. -/
theorem everyStepKeepsTheInvariant : Obligations.EveryStepKeepsTheInvariant := by
  intro s t hs h
  obtain ⟨-, hinv, -⟩ := step_keeps_codeBlock_inv_cfg hs h
  exact hinv

theorem inv_resetWith {c : Config} (hc : c.Valid) : (State.resetWith c).Inv := by
  have ⟨⟨_, _, hmax⟩, _⟩ := hc
  have hstack : (State.resetWith c).stackOk := by
    simp only [State.stackOk, State.resetWith]
    omega
  exact ⟨hc, ⟨List.Pairwise.nil, nofun⟩, hstack⟩

/-- Settles O22: an empty memory is canonical, and sp at RW_MAX is an even distance from it and not above MAX_ADDR. -/
theorem resetMeetsTheInvariant : Obligations.ResetMeetsTheInvariant :=
  ⟨fun _ hc => inv_resetWith hc, inv_resetWith (by decide)⟩

section PushCases

variable {s : State} {id : Byte}

theorem exec_pushi_of_fits {r : IntReg} (hfit : PushFits s 2) (hr : s.cfg.intReg? id = some r) :
    exec (.pushi id) s = .next (s.stackWord (s.ints.get r)) := by
  rw [exec, execPushi, checkPush_of_fits (pushFits_iff.mp hfit), exec_ok_bind, getInt_of_some hr]
  rfl

/-- The overflow test comes before the register read (44_stack.md R180). -/
theorem exec_pushi_of_full (hfull : ¬ PushFits s 2) :
    exec (.pushi id) s = .next { s with status := .error .stackOverflow } := by
  rw [exec, execPushi, checkPush_of_full (Nat.lt_of_not_le (mt pushFits_iff.mpr hfull)), exec_raise_bind]
  rfl

theorem exec_pushi_of_none (hfit : PushFits s 2) (hr : s.cfg.intReg? id = none) :
    exec (.pushi id) s = .next { s with status := .error .registerUnrecognized } := by
  rw [exec, execPushi, checkPush_of_fits (pushFits_iff.mp hfit), exec_ok_bind, getInt_of_none hr]
  rfl

theorem exec_pushf_of_fits {r : FltReg} (hfit : PushFits s 4) (hr : s.cfg.fltReg? id = some r) :
    exec (.pushf id) s = .next (s.stackPattern (s.flts.get r)) := by
  rw [exec, execPushf, checkPush_of_fits (pushFits_iff.mp hfit), exec_ok_bind, getFlt_of_some hr]
  rfl

/-- The overflow test comes before the register read (44_stack.md R182). -/
theorem exec_pushf_of_full (hfull : ¬ PushFits s 4) :
    exec (.pushf id) s = .next { s with status := .error .stackOverflow } := by
  rw [exec, execPushf, checkPush_of_full (Nat.lt_of_not_le (mt pushFits_iff.mpr hfull)), exec_raise_bind]
  rfl

theorem exec_pushf_of_none (hfit : PushFits s 4) (hr : s.cfg.fltReg? id = none) :
    exec (.pushf id) s = .next { s with status := .error .registerUnrecognized } := by
  rw [exec, execPushf, checkPush_of_fits (pushFits_iff.mp hfit), exec_ok_bind, getFlt_of_none hr]
  rfl

/-- A push that fits stores below MAX_ADDR, so its bytes do not go around memory (44_stack.md R180). -/
theorem storedWord_stackWord (hm : s.mem.wf) (hfit : PushFits s 2) (v : Word) :
    StoredWord s (s.stackWord v) s.ints.sp.toNat v := by
  rw [pushFits_iff] at hfit
  exact storedWord_of_write hm (by omega) rfl

theorem storedPattern_stackPattern (hm : s.mem.wf) (hfit : PushFits s 4) (w : Pattern) :
    StoredPattern s (s.stackPattern w) s.ints.sp.toNat w := by
  rw [pushFits_iff] at hfit
  exact storedPattern_of_write hm (by omega) rfl

end PushCases

/-- Settles O44: a push that fits stores the register's bytes, which lie below MAX_ADDR. -/
theorem pushiStoresAtSp : Obligations.PushiStoresAtSp := by
  refine fun s id => ⟨fun x2 x3 x4 x5 => decode_eq_ok_iff.mpr ⟨.pushi, rfl, rfl⟩, fun hm hfit r hr => ?_,
    exec_pushi_of_full, exec_pushi_of_none⟩
  exact ⟨_, exec_pushi_of_fits hfit hr, rfl, Memory.wf_writeBytes hm _ _, storedWord_stackWord hm hfit _⟩

/-- Settles O45: the same for the four bytes of a float register. -/
theorem pushfStoresAtSp : Obligations.PushfStoresAtSp := by
  refine fun s id => ⟨fun x2 x3 x4 x5 => decode_eq_ok_iff.mpr ⟨.pushf, rfl, rfl⟩, fun hm hfit r hr => ?_,
    exec_pushf_of_full, exec_pushf_of_none⟩
  exact ⟨_, exec_pushf_of_fits hfit hr, rfl, Memory.wf_writeBytes hm _ _, storedPattern_stackPattern hm hfit _⟩

section PopCases

variable {s : State} {id : Byte}

/-- A pop that is ready reads the bytes below sp; they do not go around memory when sp is at least 2 (44_stack.md R181). -/
theorem exec_popi_of_allowed {r : IntReg} (hpop : s.cfg.rwMax.toNat < s.ints.sp.toNat) (hsp : 2 ≤ s.ints.sp.toNat)
    (hr : s.cfg.intReg? id = some r) (hne : r ≠ .sp) :
    exec (.popi id) s = .next
      { s with ints := ({ s.ints with sp := s.ints.sp - 2 }).set r (wordAt s.cfg.endian s.mem (s.ints.sp.toNat - 2)) } := by
  have hany := ne_sp_iff.mp hne
  rw [exec, execPopi, checkPop_of_ready hpop, exec_ok_bind, checkAny_of_allowed hr hany, exec_ok_bind,
    setIntAny_of_allowed (s := s.unstack 2) hr hany, ← loadWord_below hsp (Nat.le_refl 2)]
  rfl

/-- The underflow test comes before the tests of the register (44_stack.md R181). -/
theorem exec_popi_of_empty (hempty : s.ints.sp.toNat ≤ s.cfg.rwMax.toNat) :
    exec (.popi id) s = .next { s with status := .error .stackUnderflow } := by
  rw [exec, execPopi, checkPop_of_empty hempty, exec_raise_bind]
  rfl

theorem exec_popi_of_sp (hpop : s.cfg.rwMax.toNat < s.ints.sp.toNat) (hr : s.cfg.intReg? id = some .sp) :
    exec (.popi id) s = .next { s with status := .error .registerNotAllowed } := by
  rw [exec, execPopi, checkPop_of_ready hpop, exec_ok_bind, checkAny_of_refused hr rfl, exec_raise_bind]
  rfl

theorem exec_popi_of_none (hpop : s.cfg.rwMax.toNat < s.ints.sp.toNat) (hr : s.cfg.intReg? id = none) :
    exec (.popi id) s = .next { s with status := .error .registerUnrecognized } := by
  rw [exec, execPopi, checkPop_of_ready hpop, exec_ok_bind, checkAny_of_none hr, exec_raise_bind]
  rfl

/-- A pop that is ready reads the bytes below sp; they do not go around memory when sp is at least 4 (44_stack.md R183). -/
theorem exec_popf_of_some {r : FltReg} (hpop : s.cfg.rwMax.toNat < s.ints.sp.toNat) (hsp : 4 ≤ s.ints.sp.toNat)
    (hr : s.cfg.fltReg? id = some r) :
    exec (.popf id) s = .next
      { s with
        ints := { s.ints with sp := s.ints.sp - 4 }
        flts := s.flts.set r (patternAt s.cfg.endian s.mem (s.ints.sp.toNat - 4)) } := by
  rw [exec, execPopf, checkPop_of_ready hpop, exec_ok_bind, checkFlt_of_some hr, exec_ok_bind,
    setFlt_of_some (s := s.unstack 4) hr, ← loadPattern_below hsp (Nat.le_refl 4)]
  rfl

/-- The underflow test comes before the test of the register (44_stack.md R183). -/
theorem exec_popf_of_empty (hempty : s.ints.sp.toNat ≤ s.cfg.rwMax.toNat) :
    exec (.popf id) s = .next { s with status := .error .stackUnderflow } := by
  rw [exec, execPopf, checkPop_of_empty hempty, exec_raise_bind]
  rfl

theorem exec_popf_of_none (hpop : s.cfg.rwMax.toNat < s.ints.sp.toNat) (hr : s.cfg.fltReg? id = none) :
    exec (.popf id) s = .next { s with status := .error .registerUnrecognized } := by
  rw [exec, execPopf, checkPop_of_ready hpop, exec_ok_bind, checkFlt_of_none hr, exec_raise_bind]
  rfl

end PopCases

/-- Settles O46: RW_MAX is at least 10, so above it there are two bytes below sp. -/
theorem popiLoadsFromTheStack : Obligations.PopiLoadsFromTheStack := by
  refine fun s id ⟨_, _, _⟩ => ⟨fun x2 x3 x4 x5 => decode_eq_ok_iff.mpr ⟨.popi, rfl, rfl⟩, fun r hpop hr hne => ?_,
    exec_popi_of_empty, exec_popi_of_sp, exec_popi_of_none⟩
  exact exec_popi_of_allowed hpop (by omega) hr hne

/-- Settles O47: RW_MAX is at least 10, so above it there are four bytes below sp. -/
theorem popfLoadsFromTheStack : Obligations.PopfLoadsFromTheStack := by
  refine fun s id ⟨_, _, _⟩ => ⟨fun x2 x3 x4 x5 => decode_eq_ok_iff.mpr ⟨.popf, rfl, rfl⟩, fun r hpop hr => ?_,
    exec_popf_of_empty, exec_popf_of_none⟩
  exact exec_popf_of_some hpop (by omega) hr

section RoundTrip

variable {s t u : State}

/-- The raised sp of a push that fits lies `n` above the old one: it does not wrap (44_stack.md R184). -/
theorem toNat_sp_raised {n : Nat} (hfit : PushFits s n) (hsp : t.ints.sp = s.ints.sp + BitVec.ofNat 16 n) :
    t.ints.sp.toNat = s.ints.sp.toNat + n := by
  rw [pushFits_iff] at hfit
  exact hsp ▸ word_toNat_add_ofNat _ n (by omega)

/-- A stored word is read back from any memory with the same two bytes. -/
theorem StoredWord.wordAt_eq {a : Nat} {v : Word} (h : StoredWord s t a v) (h0 : u.mem.read a = t.mem.read a)
    (h1 : u.mem.read (a + 1) = t.mem.read (a + 1)) : wordAt s.cfg.endian u.mem a = v := by
  obtain ⟨hb0, hb1, -⟩ := h
  rw [wordAt, h0, h1, hb0, hb1, assembleWord_wordByte]

/-- A stored pattern is read back from any memory with the same four bytes. -/
theorem StoredPattern.patternAt_eq {a : Nat} {w : Pattern} (h : StoredPattern s t a w)
    (hu : ∀ k, k < 4 → u.mem.read (a + k) = t.mem.read (a + k)) : patternAt s.cfg.endian u.mem a = w := by
  obtain ⟨hbytes, -⟩ := h
  have hread (k : Nat) (hk : k < 4) : u.mem.read (a + k) = patternByte s.cfg.endian w k := (hu k hk).trans (hbytes k hk)
  have hread0 : u.mem.read a = patternByte s.cfg.endian w 0 := hread 0 (by decide)
  rw [patternAt, hread0, hread 1 (by decide), hread 2 (by decide), hread 3 (by decide), assemblePattern_patternByte]

end RoundTrip

/-- Settles O48: the POPI is ready at the raised sp, and the two bytes it reads there are those the PUSHI stored. -/
theorem pushThenPopRestoresAnIntegerRegister : Obligations.PushThenPopRestoresAnIntegerRegister := by
  intro s t u id r hm hr hne hfit hmax h hcfg hsp h0 h1
  obtain rfl := Host.Outcome.next.inj ((exec_pushi_of_fits hfit hr).symm.trans h)
  have hcfg' : u.cfg = s.cfg := hcfg
  have htop : u.ints.sp.toNat = s.ints.sp.toNat + 2 := toNat_sp_raised hfit hsp
  have hlow : u.ints.sp - 2 = s.ints.sp := hsp ▸ BitVec.add_sub_cancel s.ints.sp 2
  have hword := (storedWord_stackWord hm hfit _).wordAt_eq h0 h1
  rw [exec_popi_of_allowed (r := r) (by rw [hcfg']; omega) (by omega) (hcfg' ▸ hr) hne, hlow, htop, Nat.add_sub_cancel,
    hcfg', hword]

/-- Settles O49: the same for the four bytes of a float register. -/
theorem pushThenPopRestoresAFloatRegister : Obligations.PushThenPopRestoresAFloatRegister := by
  intro s t u id r hm hr hfit hmax h hcfg hsp hbytes
  obtain rfl := Host.Outcome.next.inj ((exec_pushf_of_fits hfit hr).symm.trans h)
  have hcfg' : u.cfg = s.cfg := hcfg
  have htop : u.ints.sp.toNat = s.ints.sp.toNat + 4 := toNat_sp_raised hfit hsp
  have hlow : u.ints.sp - 4 = s.ints.sp := hsp ▸ BitVec.add_sub_cancel s.ints.sp 4
  have hpattern := (storedPattern_stackPattern hm hfit _).patternAt_eq hbytes
  rw [exec_popf_of_some (r := r) (by rw [hcfg']; omega) (by omega) (hcfg' ▸ hr), hlow, htop, Nat.add_sub_cancel,
    hcfg', hpattern]

end Sys2Proof.Machine

/-! ### Loads and stores (45_load_store.md) -/

namespace Sys2Proof.Machine

section Window

variable {s : State} {addr : Word} {n : Nat}

/-- Inside the window of 45_load_store.md R200 the access goes on. -/
theorem checkWindow_of_inWindow (h : InWindow s.cfg addr n) : checkWindow s addr n = .ok () := by
  obtain ⟨hlo, hhi⟩ := inWindow_iff.mp h
  exact checkWindow_of_inside hlo hhi

theorem checkWindow_of_not_inWindow (h : ¬ InWindow s.cfg addr n) :
    checkWindow s addr n = raise s .memoryAccessOutOfBounds := by
  rw [inWindow_iff] at h
  exact checkWindow_of_outside (by omega)

/-- RW_MAX is an address, so an access of `n` bytes inside the window does not go around memory (45_load_store.md R200). -/
theorem toNat_add_le_of_inWindow (h : InWindow s.cfg addr n) : addr.toNat + n ≤ 65535 := by
  obtain ⟨-, hhi⟩ := inWindow_iff.mp h
  have := s.cfg.rwMax.isLt
  omega

/-- The window test opens all four instructions: outside it nothing else is tested or done (60_exceptions.md R246). -/
theorem finish_checkWindow_bind_of_not_inWindow {f : Unit → Exec State} (h : ¬ InWindow s.cfg addr n) :
    finish (checkWindow s addr n >>= f) = .next { s with status := .error .memoryAccessOutOfBounds } := by
  rw [checkWindow_of_not_inWindow h, exec_raise_bind]
  rfl

theorem loadWord_of_inWindow (h : InWindow s.cfg addr 2) : s.loadWord addr = wordAt s.cfg.endian s.mem addr.toNat :=
  Memory.readWord_eq _ _ (by have := toNat_add_le_of_inWindow h; omega)

theorem loadPattern_of_inWindow (h : InWindow s.cfg addr 4) :
    s.loadPattern addr = patternAt s.cfg.endian s.mem addr.toNat :=
  Memory.readPattern_eq _ _ (by have := toNat_add_le_of_inWindow h; omega)

theorem storedWord_storeWord (hm : s.mem.wf) (h : InWindow s.cfg addr 2) (v : Word) :
    StoredWord s (s.storeWord addr v) addr.toNat v :=
  storedWord_of_write hm (by have := toNat_add_le_of_inWindow h; omega) rfl

theorem storedPattern_storePattern (hm : s.mem.wf) (h : InWindow s.cfg addr 4) (w : Pattern) :
    StoredPattern s (s.storePattern addr w) addr.toNat w :=
  storedPattern_of_write hm (by have := toNat_add_le_of_inWindow h; omega) rfl

end Window

section LoadCases

variable {s : State} {addr : Word} {id : Byte}

theorem exec_lodi_of_allowed {r : IntReg} (hw : InWindow s.cfg addr 2) (hr : s.cfg.intReg? id = some r)
    (hg : IsGeneral r) :
    exec (.lodi addr id) s = .next { s with ints := s.ints.set r (wordAt s.cfg.endian s.mem addr.toNat) } := by
  have ha := isGeneral_iff.mp hg
  rw [exec, execLodi, checkWindow_of_inWindow hw, exec_ok_bind, checkGeneral_of_allowed hr ha, exec_ok_bind,
    setIntGeneral_of_allowed hr ha, loadWord_of_inWindow hw]
  rfl

theorem exec_lodi_of_refused {r : IntReg} (hw : InWindow s.cfg addr 2) (hr : s.cfg.intReg? id = some r)
    (hg : ¬ IsGeneral r) : exec (.lodi addr id) s = .next { s with status := .error .registerNotAllowed } := by
  rw [exec, execLodi, checkWindow_of_inWindow hw, exec_ok_bind, checkGeneral_of_refused hr (not_isGeneral_iff.mp hg),
    exec_raise_bind]
  rfl

theorem exec_lodi_of_none (hw : InWindow s.cfg addr 2) (hr : s.cfg.intReg? id = none) :
    exec (.lodi addr id) s = .next { s with status := .error .registerUnrecognized } := by
  rw [exec, execLodi, checkWindow_of_inWindow hw, exec_ok_bind, checkGeneral_of_none hr, exec_raise_bind]
  rfl

theorem exec_lodf_of_some {r : FltReg} (hw : InWindow s.cfg addr 4) (hr : s.cfg.fltReg? id = some r) :
    exec (.lodf addr id) s = .next { s with flts := s.flts.set r (patternAt s.cfg.endian s.mem addr.toNat) } := by
  rw [exec, execLodf, checkWindow_of_inWindow hw, exec_ok_bind, checkFlt_of_some hr, exec_ok_bind, setFlt_of_some hr,
    loadPattern_of_inWindow hw]
  rfl

theorem exec_lodf_of_none (hw : InWindow s.cfg addr 4) (hr : s.cfg.fltReg? id = none) :
    exec (.lodf addr id) s = .next { s with status := .error .registerUnrecognized } := by
  rw [exec, execLodf, checkWindow_of_inWindow hw, exec_ok_bind, checkFlt_of_none hr, exec_raise_bind]
  rfl

end LoadCases

section StoreCases

variable {s : State} {addr : Word} {id : Byte}

/-- STOI reads any integer register: no test of the register's kind stands before the store (45_load_store.md R202). -/
theorem exec_stoi_of_some {r : IntReg} (hw : InWindow s.cfg addr 2) (hr : s.cfg.intReg? id = some r) :
    exec (.stoi addr id) s = .next (s.storeWord addr (s.ints.get r)) := by
  rw [exec, execStoi, checkWindow_of_inWindow hw, exec_ok_bind, getInt_of_some hr]
  rfl

theorem exec_stoi_of_none (hw : InWindow s.cfg addr 2) (hr : s.cfg.intReg? id = none) :
    exec (.stoi addr id) s = .next { s with status := .error .registerUnrecognized } := by
  rw [exec, execStoi, checkWindow_of_inWindow hw, exec_ok_bind, getInt_of_none hr]
  rfl

theorem exec_stof_of_some {r : FltReg} (hw : InWindow s.cfg addr 4) (hr : s.cfg.fltReg? id = some r) :
    exec (.stof addr id) s = .next (s.storePattern addr (s.flts.get r)) := by
  rw [exec, execStof, checkWindow_of_inWindow hw, exec_ok_bind, getFlt_of_some hr]
  rfl

theorem exec_stof_of_none (hw : InWindow s.cfg addr 4) (hr : s.cfg.fltReg? id = none) :
    exec (.stof addr id) s = .next { s with status := .error .registerUnrecognized } := by
  rw [exec, execStof, checkWindow_of_inWindow hw, exec_ok_bind, getFlt_of_none hr]
  rfl

end StoreCases

/-- Settles O50: the window is tested before the register, and inside it the two bytes read exist. -/
theorem lodiLoadsInsideTheWindow : Obligations.LodiLoadsInsideTheWindow := fun _ _ id =>
  ⟨fun _ _ _ _ ha => decode_eq_ok_iff.mpr ⟨.lodi, rfl, congrArg (Instr.lodi · id) ha.symm⟩,
    fun _ => exec_lodi_of_allowed, finish_checkWindow_bind_of_not_inWindow, fun _ => exec_lodi_of_refused, exec_lodi_of_none⟩

/-- Settles O51: inside the window the two bytes stored do not go around memory. -/
theorem stoiStoresInsideTheWindow : Obligations.StoiStoresInsideTheWindow := by
  refine fun s addr id => ⟨fun lo hi x4 x5 ha => decode_eq_ok_iff.mpr ⟨.stoi, rfl, congrArg (Instr.stoi · id) ha.symm⟩,
    fun hm hw r hr => ?_, finish_checkWindow_bind_of_not_inWindow, exec_stoi_of_none⟩
  exact ⟨_, exec_stoi_of_some hw hr, rfl, Memory.wf_writeWord hm _ _ _, storedWord_storeWord hm hw _⟩

/-- Settles O52: as for LODI with four bytes, and no float register is refused. -/
theorem lodfLoadsInsideTheWindow : Obligations.LodfLoadsInsideTheWindow := fun _ _ id =>
  ⟨fun _ _ _ _ ha => decode_eq_ok_iff.mpr ⟨.lodf, rfl, congrArg (Instr.lodf · id) ha.symm⟩,
    fun _ => exec_lodf_of_some, finish_checkWindow_bind_of_not_inWindow, exec_lodf_of_none⟩

/-- Settles O53: as for STOI with the four bytes of a float register. -/
theorem stofStoresInsideTheWindow : Obligations.StofStoresInsideTheWindow := by
  refine fun s addr id => ⟨fun lo hi x4 x5 ha => decode_eq_ok_iff.mpr ⟨.stof, rfl, congrArg (Instr.stof · id) ha.symm⟩,
    fun hm hw r hr => ?_, finish_checkWindow_bind_of_not_inWindow, exec_stof_of_none⟩
  exact ⟨_, exec_stof_of_some hw hr, rfl, Memory.wf_writePattern hm _ _ _, storedPattern_storePattern hm hw _⟩

end Sys2Proof.Machine

/-! ### Call and return (46_call_return.md) -/

namespace Sys2Proof.Machine

section FrameLayout

/-- The offset of a register is the size of those pushed before it (46_call_return.md R220). -/
theorem slotsSize_take_frameSlots (k : Nat) : slotsSize (frameSlots.take k) = frameOffset k := by
  by_cases hk : k < 10
  · interval_cases k <;> rfl
  · rw [List.take_of_length_le (Nat.le_of_not_lt hk), frameOffset, List.getD_eq_default _ _ (Nat.le_of_not_lt hk)]
    rfl

theorem frameOffset_le (k : Nat) : frameOffset k ≤ 28 := by
  have hsum : 28 = slotsSize (frameSlots.take k) + slotsSize (frameSlots.drop k) := by
    rw [← slotsSize_append, List.take_append_drop]
    rfl
  rw [slotsSize_take_frameSlots] at hsum
  omega

/-- What the first `j` pops of a RETN take, and what they leave of the frame, is the frame (46_call_return.md R221). -/
theorem slotsSize_take_reverse_frameSlots :
    ∀ j, j ≤ 10 → slotsSize (frameSlots.reverse.take j) + frameOffset (10 - j) = 28 := by
  decide

/-- The pop after `j` others takes at most 4 bytes, and there are at least 2 left (46_call_return.md R221). -/
theorem frameOffset_pop_bounds :
    ∀ j, j < 10 → 2 ≤ frameOffset (10 - j) ∧ frameOffset (10 - j) ≤ frameOffset (10 - (j + 1)) + 4 := by
  decide

theorem frameOffset_succ {k : Nat} (hk : k < frameSlots.length) :
    frameOffset (k + 1) = frameOffset k + slotSize frameSlots[k] := by
  rw [← slotsSize_take_frameSlots, ← slotsSize_take_frameSlots, List.take_succ_eq_append_getElem hk, slotsSize_append,
    slotsSize_cons, slotsSize_nil, Nat.add_zero]

theorem frameLayout_getElem : ∀ i (hi : i < frameLayout.length), frameLayout[i] = (frameOffset i, frameSlots[i]'hi) := by
  decide

theorem map_snd_frameLayout : frameLayout.map Prod.snd = frameSlots := rfl

theorem frameLayout_end_le : ∀ x ∈ frameLayout, x.1 + slotSize x.2 ≤ 28 := by decide

/-- A prefix, split at one of its elements. -/
theorem take_eq_take_append_getElem_cons {α : Type} {l : List α} {i k : Nat} (hi : i < l.length) (hik : i < k) :
    l.take k = l.take i ++ l[i] :: (l.take k).drop (i + 1) := by
  have hlen : i < (l.take k).length := by
    rw [List.length_take]
    omega
  calc l.take k = (l.take k).take i ++ (l.take k).drop i := (List.take_append_drop i _).symm
    _ = l.take i ++ l[i] :: (l.take k).drop (i + 1) := by
      rw [List.take_take, Nat.min_eq_left (Nat.le_of_lt hik), List.drop_eq_getElem_cons hlen, List.getElem_take]

/-- Where a prefix is split, the part before is a prefix. -/
theorem eq_take_of_take_eq_append {α : Type} {l pre post : List α} {x : α} {k : Nat} (h : l.take k = pre ++ x :: post) :
    pre.length < k ∧ pre.length < l.length ∧ pre = l.take pre.length := by
  have hlen : min k l.length = pre.length + (post.length + 1) := by
    simpa only [List.length_take, List.length_append, List.length_cons] using congrArg List.length h
  have hpre := congrArg (List.take pre.length) h
  rw [List.take_left, List.take_take, Nat.min_eq_left (by omega)] at hpre
  exact ⟨by omega, by omega, hpre.symm⟩

/-- A register of the first `k` is pushed when those below it are (46_call_return.md R220). -/
theorem exists_pushes_eq_append {k : Nat} {x : Nat × FrameSlot} (hx : x ∈ frameLayout.take k) :
    ∃ pre post, frameSlots.take k = pre ++ x.2 :: post ∧ slotsSize pre = x.1 := by
  obtain ⟨i, hi, rfl⟩ := List.mem_take_iff_getElem.mp hx
  obtain ⟨hik, hi⟩ := Nat.lt_min.mp hi
  rw [frameLayout_getElem i hi]
  exact ⟨_, _, take_eq_take_append_getElem_cons (l := frameSlots) hi hik, slotsSize_take_frameSlots i⟩

/-- A register of the last `k` is popped when those above it are (46_call_return.md R221). -/
theorem exists_pops_eq_append {k : Nat} {x : Nat × FrameSlot} (hx : x ∈ frameLayout.drop (10 - k)) :
    ∃ pre post, frameSlots.reverse.take k = pre ++ x.2 :: post ∧ slotsSize pre + slotSize x.2 + x.1 = 28 := by
  obtain ⟨n, hn, rfl⟩ := List.mem_drop_iff_getElem.mp hx
  rw [Nat.add_comm] at hn
  rw [frameLayout_getElem _ hn]
  generalize hi : 10 - k + n = i at hn ⊢
  have hlast : i < 10 := hn
  have hj : 9 - i < frameSlots.reverse.length := Nat.lt_of_le_of_lt (Nat.sub_le 9 i) (by decide)
  have hget : frameSlots.reverse[9 - i] = frameSlots[i]'hn := by
    rw [List.getElem_reverse]
    congr 1
    exact Nat.sub_sub_self (Nat.le_of_lt_succ hlast)
  have hsplit := take_eq_take_append_getElem_cons hj (k := k) (by omega)
  have hsize := slotsSize_take_reverse_frameSlots (9 - i) (by omega)
  rw [show 10 - (9 - i) = i + 1 by omega, frameOffset_succ hn] at hsize
  exact ⟨_, _, hget ▸ hsplit, by dsimp only; omega⟩

/-- The first number with a property that some number has. -/
theorem exists_first {p : Nat → Prop} {n : Nat} (h : p n) : ∃ k, k ≤ n ∧ p k ∧ ∀ j, j < k → ¬ p j := by
  classical
  exact ⟨Nat.find ⟨n, h⟩, Nat.find_min' _ h, Nat.find_spec _, fun _ => Nat.find_min _⟩

end FrameLayout

section CallCases

variable {s t : State} {addr : Word} {k : Nat}

/-- What the first `k` pushes of a CALL leave: their registers at the offsets of R220, every other byte as it was, and sp above
them (46_call_return.md R220). -/
structure FrameSaved (k : Nat) (s t : State) : Prop where
  rest : { t with mem := s.mem } = { s with ints := { s.ints with sp := s.ints.sp + BitVec.ofNat 16 (frameOffset k) } }
  memWf : t.mem.wf
  pushed : ∀ x ∈ frameLayout.take k, SlotHolds s s.cfg.endian t.mem (s.ints.sp.toNat + x.1) x.2
  outside : ∀ a, a < s.ints.sp.toNat ∨ s.ints.sp.toNat + frameOffset k ≤ a → t.mem.read a = s.mem.read a

theorem FrameSaved.cfg (h : FrameSaved k s t) : t.cfg = s.cfg := by
  have hcfg := congrArg State.cfg h.rest
  exact hcfg

theorem FrameSaved.sp (h : FrameSaved k s t) : t.ints.sp = s.ints.sp + BitVec.ofNat 16 (frameOffset k) := by
  have hsp := congrArg (fun q : State => q.ints.sp) h.rest
  exact hsp

theorem frameSaved_withSlots (hm : s.mem.wf) (hfit : s.ints.sp.toNat + frameOffset k ≤ 65536) :
    FrameSaved k s (s.withSlots (frameSlots.take k)) := by
  have hsize := slotsSize_take_frameSlots k
  refine ⟨by rw [← hsize]; rfl, Memory.wf_writeBytes hm _ _, fun x hx => ?_,
    fun a ha => read_withSlots_of_outside hm (hsize ▸ hfit) (hsize ▸ ha)⟩
  obtain ⟨pre, post, hsplit, hpre⟩ := exists_pushes_eq_append hx
  rw [← hpre, hsplit]
  exact slotHolds_withSlots hm (by rwa [← hsplit, hsize])

/-- A CALL with room for its frame does all ten pushes (46_call_return.md R220). -/
theorem pushSlots_frameSlots_of_fits (hm : s.mem.wf) (hfit : PushFits s 28) :
    ∃ t, pushSlots frameSlots s = .ok t ∧ FrameSaved 10 s t := by
  rw [pushFits_iff] at hfit
  have hroom : s.ints.sp.toNat + frameOffset 10 ≤ 65536 := Nat.le_of_lt (Nat.lt_of_le_of_lt hfit (by omega))
  exact ⟨_, pushSlots_of_fits (by decide) hfit, frameSaved_withSlots (k := 10) hm hroom⟩

theorem exec_call_of_inside (hm : s.mem.wf) (hfit : PushFits s 28) (ha : addr.toNat < s.cfg.rwMin.toNat) :
    ∃ t, exec (.call addr) s = .next (t.putInt .pc addr) ∧ FrameSaved 10 s t := by
  obtain ⟨t, ht, hsaved⟩ := pushSlots_frameSlots_of_fits hm hfit
  have hcfg : t.cfg = s.cfg := (pushSlots_frame ht).cfg
  exact ⟨t, by simp [exec, execCall, ht, State.inCodeBlock, hcfg, ha], hsaved⟩

/-- The target is tested after the ten pushes (46_call_return.md R220). -/
theorem exec_call_of_outside (hm : s.mem.wf) (hfit : PushFits s 28) (ha : ¬ addr.toNat < s.cfg.rwMin.toNat) :
    ∃ t, exec (.call addr) s = .next (t.putStatus (.error .executeOutOfCodeBlock)) ∧ FrameSaved 10 s t := by
  obtain ⟨t, ht, hsaved⟩ := pushSlots_frameSlots_of_fits hm hfit
  have hcfg : t.cfg = s.cfg := (pushSlots_frame ht).cfg
  exact ⟨t, by simp [exec, execCall, ht, State.inCodeBlock, hcfg, ha], hsaved⟩

/-- The first push that does not fit ends the CALL, with the pushes before it done (46_call_return.md R220; 44_stack.md R184). -/
theorem exec_call_of_full (hm : s.mem.wf) (hk : k < 10)
    (hfit : k = 0 ∨ s.ints.sp.toNat + frameOffset k ≤ s.cfg.maxAddr.toNat)
    (hfull : s.cfg.maxAddr.toNat < s.ints.sp.toNat + frameOffset (k + 1)) :
    ∃ t, exec (.call addr) s = .next (t.putStatus (.error .stackOverflow)) ∧ FrameSaved k s t := by
  have hlen : k < frameSlots.length := hk
  have hsize := slotsSize_take_frameSlots k
  have hroom : s.ints.sp.toNat + frameOffset k ≤ 65536 := by
    rcases hfit with rfl | hfit
    · exact Nat.le_of_lt s.ints.sp.isLt
    · omega
  have hstop : pushSlots frameSlots s = raise (s.withSlots (frameSlots.take k)) .stackOverflow := by
    conv_lhs => rw [← List.take_append_drop k frameSlots, List.drop_eq_getElem_cons hlen]
    refine pushSlots_of_full (fun hsp => absurd (List.mem_of_mem_take hsp) (by decide)) ?_ ?_
    · rw [hsize]
      exact hfit.imp_left (by rintro rfl; exact List.take_zero)
    · rwa [hsize, Nat.add_assoc, ← frameOffset_succ hlen]
  exact ⟨_, by rw [exec, execCall, hstop, exec_raise_bind, finish_raise], frameSaved_withSlots hm hroom⟩

end CallCases

/-- Settles O55: the pushes that fit are one run of bytes from sp upward, and when not all do, the first that does not ends the
CALL. -/
theorem callSavesTheFrameAndJumps : Obligations.CallSavesTheFrameAndJumps := by
  refine fun s addr hm => ⟨fun lo hi x3 x4 x5 ha => decode_eq_ok_iff.mpr ⟨.call, rfl, congrArg Instr.call ha.symm⟩,
    fun hfit => ?_, fun hfull => ?_⟩
  · by_cases ha : addr.toNat < s.cfg.rwMin.toNat
    · obtain ⟨t, ht, hrest, hwf, hpushed, houtside⟩ := exec_call_of_inside hm hfit ha
      rw [if_pos ha]
      exact ⟨_, ht, congrArg (State.putInt · .pc addr) hrest, hwf, hpushed, houtside⟩
    · obtain ⟨t, ht, hrest, hwf, hpushed, houtside⟩ := exec_call_of_outside hm hfit ha
      rw [if_neg ha]
      exact ⟨_, ht, congrArg (State.putStatus · _) hrest, hwf, hpushed, houtside⟩
  · obtain ⟨k, hk, hstop, hbefore⟩ := exists_first
      (p := fun k => s.cfg.maxAddr.toNat < s.ints.sp.toNat + frameOffset (k + 1)) (n := 9)
      (Nat.lt_of_not_le (mt pushFits_iff.mpr hfull))
    have hfit : k = 0 ∨ s.ints.sp.toNat + frameOffset k ≤ s.cfg.maxAddr.toNat := by
      cases k with
      | zero => exact .inl rfl
      | succ j => exact .inr (Nat.le_of_not_lt (hbefore j (Nat.lt_succ_self j)))
    obtain ⟨t, ht, hrest, hwf, hpushed, houtside⟩ := exec_call_of_full (addr := addr) hm (Nat.lt_succ_of_le hk) hfit hstop
    exact ⟨k, _, Nat.lt_succ_of_le hk, hfit, hstop, ht, congrArg (State.putStatus · _) hrest, hwf, hpushed, houtside⟩

section ReturnCases

variable {s t : State} {xs : List FrameSlot} {x : FrameSlot} {k : Nat}

theorem PopFrame.slotSame (h : PopFrame xs s t) (hsp : x ≠ .int .sp) (hx : x ∉ xs) : SlotSame s t x := by
  cases x with
  | int r => exact h.ints r (fun hr => hsp (hr ▸ rfl)) hx
  | flt r => exact h.flts r hx

theorem PopFrame.eq_but_registers (h : PopFrame xs s t) : { t with ints := s.ints, flts := s.flts } = s := by
  obtain ⟨hcfg, -, -, hcmp, hstatus, hmem, hcycles, hlast⟩ := h
  rw [hcfg, hcmp, hstatus, hmem, hcycles, hlast]

/-- What the first `k` pops of a RETN leave: the last `k` registers of the frame with their bytes below sp, sp that much lower, and
all else as it was (46_call_return.md R221). -/
structure FrameRestored (k : Nat) (s t : State) : Prop where
  popped : ∀ x ∈ frameLayout.drop (10 - k), SlotHolds t s.cfg.endian s.mem (s.ints.sp.toNat + x.1 - 28) x.2
  kept : ∀ x ∈ frameLayout.take (10 - k), SlotSame s t x.2
  sp : t.ints.sp = s.ints.sp + BitVec.ofNat 16 (frameOffset (10 - k)) - 28
  irv : t.ints.irv = s.ints.irv
  frv : t.flts.frv = s.flts.frv
  rest : { t with ints := s.ints, flts := s.flts } = s

theorem FrameRestored.sp_of_all (h : FrameRestored 10 s t) : t.ints.sp = s.ints.sp - 28 := by
  simpa [frameOffset] using h.sp

theorem FrameRestored.toNat_sp (h : FrameRestored k s t) (hlow : 28 ≤ s.ints.sp.toNat + frameOffset (10 - k)) :
    t.ints.sp.toNat = s.ints.sp.toNat + frameOffset (10 - k) - 28 := by
  have hle := frameOffset_le (10 - k)
  rw [h.sp]
  generalize frameOffset (10 - k) = n at hlow hle ⊢
  bv_omega

/-- The pops of a RETN that find sp above RW_MAX are done (46_call_return.md R221; 44_stack.md R185). -/
theorem popSlots_restores_frame (hc : s.cfg.boundsOk) (hk : k ≤ 10)
    (hready : ∀ j, j < k → s.cfg.rwMax.toNat + 28 < s.ints.sp.toNat + frameOffset (10 - j)) :
    ∃ t, popSlots (frameSlots.reverse.take k) s = .ok t ∧ FrameRestored k s t := by
  obtain ⟨hlow, hblock, -⟩ := hc
  have hsub : frameSlots.reverse.take k ⊆ frameSlots := fun x hx => List.mem_reverse.mp (List.mem_of_mem_take hx)
  have hnodup : (frameSlots.reverse.take k).Nodup := (by decide : frameSlots.reverse.Nodup).sublist (List.take_sublist _ _)
  obtain ⟨t, ht, hframe, hsp, hholds⟩ := popSlots_of_ready (s := s) (fun h => absurd (hsub h) (by decide)) hnodup (by omega)
    fun pre x post hsplit => by
      obtain ⟨hlen, hlen', hpre⟩ := eq_take_of_take_eq_append hsplit
      have hsize := slotsSize_take_reverse_frameSlots pre.length (by omega)
      rw [← hpre] at hsize
      have := hready pre.length hlen
      omega
  have hsize := slotsSize_take_reverse_frameSlots k hk
  refine ⟨t, ht, fun x hx => ?_, fun x hx => ?_, ?_, ?_, ?_, hframe.eq_but_registers⟩
  · obtain ⟨pre, post, hsplit, hbelow⟩ := exists_pops_eq_append hx
    have hheld := hholds pre x.2 post hsplit
    rwa [show s.ints.sp.toNat - slotsSize pre - slotSize x.2 = s.ints.sp.toNat + x.1 - 28 by omega] at hheld
  · have hleft : x.2 ∈ frameSlots.take (10 - k) := by
      rw [← map_snd_frameLayout, ← List.map_take]
      exact List.mem_map_of_mem hx
    refine hframe.slotSame (fun hsp => absurd (List.mem_of_mem_take (hsp ▸ hleft)) (by decide)) fun hpop => ?_
    rw [List.take_reverse, List.mem_reverse] at hpop
    exact List.disjoint_take_drop (by decide : frameSlots.Nodup) (Nat.le_refl _) hleft hpop
  · have hsum : BitVec.ofNat 16 (slotsSize (frameSlots.reverse.take k)) + BitVec.ofNat 16 (frameOffset (10 - k)) = 28 := by
      rw [← BitVec.ofNat_add, hsize]
      rfl
    rw [hsp, ← hsum]
    abel
  · exact hframe.ints .irv (by decide) fun h => absurd (hsub h) (by decide)
  · exact hframe.flts .frv fun h => absurd (hsub h) (by decide)

/-- A RETN whose last pop finds sp above RW_MAX does all ten (46_call_return.md R221). -/
theorem exec_retn_of_ready (hc : s.cfg.boundsOk) (h : s.cfg.rwMax.toNat + 26 < s.ints.sp.toNat) :
    ∃ t, exec .retn s = .next t ∧ FrameRestored 10 s t := by
  obtain ⟨t, ht, hrestored⟩ := popSlots_restores_frame hc (Nat.le_refl 10) fun j hj => by
    obtain ⟨htwo, -⟩ := frameOffset_pop_bounds j hj
    omega
  exact ⟨t, congrArg finish ht, hrestored⟩

/-- The first pop that finds sp at or below RW_MAX ends the RETN, with the pops before it done (46_call_return.md R221). -/
theorem exec_retn_of_empty (hc : s.cfg.boundsOk) (hk : k < 10)
    (hready : ∀ j, j < k → s.cfg.rwMax.toNat + 28 < s.ints.sp.toNat + frameOffset (10 - j))
    (hempty : s.ints.sp.toNat + frameOffset (10 - k) ≤ s.cfg.rwMax.toNat + 28) :
    ∃ t, exec .retn s = .next (t.putStatus (.error .stackUnderflow)) ∧ FrameRestored k s t := by
  obtain ⟨t, ht, hrestored⟩ := popSlots_restores_frame hc (Nat.le_of_lt hk) hready
  have hlow : 28 ≤ s.ints.sp.toNat + frameOffset (10 - k) := by
    cases k with
    | zero => exact Nat.le_add_left 28 _
    | succ j =>
      obtain ⟨-, hfour⟩ := frameOffset_pop_bounds j (Nat.lt_of_succ_lt hk)
      obtain ⟨hcode, hblock, -⟩ := hc
      have hpopped := hready j (Nat.lt_succ_self j)
      omega
  have hsp : t.ints.sp.toNat ≤ t.cfg.rwMax.toNat := by
    rw [hrestored.toNat_sp hlow, (popSlots_frame ht).cfg]
    omega
  have hlen : k < frameSlots.reverse.length := hk
  have hstop : popSlots frameSlots.reverse s = raise t .stackUnderflow := by
    conv_lhs => rw [← List.take_append_drop k frameSlots.reverse, List.drop_eq_getElem_cons hlen]
    exact popSlots_of_empty ht hsp
  exact ⟨t, by rw [exec, execRetn, hstop, finish_raise], hrestored⟩

end ReturnCases

/-- Settles O56: each pop that is ready restores the register above the ones left, and when not all are, the first that is not ends
the RETN. -/
theorem retnRestoresTheFrame : Obligations.RetnRestoresTheFrame := by
  refine fun s hc => ⟨fun x1 x2 x3 x4 x5 => decode_eq_ok_iff.mpr ⟨.retn, rfl, rfl⟩, fun hready => ?_, fun hempty => ?_⟩
  · obtain ⟨t, ht, hrestored⟩ := exec_retn_of_ready hc hready
    exact ⟨t, ht, hrestored.popped, hrestored.sp_of_all, hrestored.irv, hrestored.frv, hrestored.rest⟩
  · obtain ⟨k, hk, hstop, hbefore⟩ := exists_first
      (p := fun k => s.ints.sp.toNat + frameOffset (10 - k) ≤ s.cfg.rwMax.toNat + 28) (n := 9)
      (Nat.add_le_add_right hempty 2)
    have hready (j : Nat) (hj : j < k) := Nat.lt_of_not_le (hbefore j hj)
    have hlast : k = 0 ∨ s.cfg.rwMax.toNat + 28 < s.ints.sp.toNat + frameOffset (11 - k) := by
      cases k with
      | zero => exact .inl rfl
      | succ j => exact .inr (by rw [Nat.add_sub_add_right 10 1 j]; exact hready j (Nat.lt_succ_self j))
    obtain ⟨t, ht, hpopped, hkept, hsp, hirv, hfrv, hrest⟩ := exec_retn_of_empty hc (Nat.lt_succ_of_le hk) hready hstop
    exact ⟨k, _, Nat.lt_succ_of_le hk, hlast, hstop, ht, hpopped, hkept, hsp, hirv, hfrv,
      congrArg (State.putStatus · _) hrest⟩

section CallThenReturn

variable {s t : State}

/-- Two registers read from the same bytes are equal. -/
theorem slotSame_of_slotHolds {e : Endian} {m n : Memory} {a : Nat} {x : FrameSlot} (hs : SlotHolds s e m a x)
    (ht : SlotHolds t e n a x) (h : ∀ k, k < slotSize x → n.read (a + k) = m.read (a + k)) : SlotSame s t x := by
  cases x with
  | int r =>
    have hread (k : Nat) (hk : k < 2) : n.read (a + k) = m.read (a + k) := h k hk
    have hword : wordAt e n a = wordAt e m a := by
      rw [wordAt, wordAt, hread 1 (by decide), ← Nat.add_zero a, hread 0 (by decide)]
    exact ht.trans (hword.trans hs.symm)
  | flt r =>
    have hread (k : Nat) (hk : k < 4) : n.read (a + k) = m.read (a + k) := h k hk
    have hpattern : patternAt e n a = patternAt e m a := by
      rw [patternAt, patternAt, hread 1 (by decide), hread 2 (by decide), hread 3 (by decide), ← Nat.add_zero a,
        hread 0 (by decide)]
    exact ht.trans (hpattern.trans hs.symm)

theorem IntFile.ext_get {f g : IntFile} (h : ∀ r, f.get r = g.get r) : f = g := by
  cases f
  cases g
  exact IntFile.mk.injEq .. ▸ ⟨h .pc, h .sp, h .bp, h .ir0, h .ir1, h .ir2, h .ir3, h .irv⟩

/-- The registers of the frame are all but sp, irv and frv (46_call_return.md R220, R223). -/
theorem ints_eq_of_slotSame (h : ∀ x ∈ frameSlots, SlotSame s t x) (hsp : t.ints.sp = s.ints.sp) :
    t.ints = { s.ints with irv := t.ints.irv } := by
  refine IntFile.ext_get fun r => ?_
  cases r with
  | sp => exact hsp
  | irv => rfl
  | _ => exact h (.int _) (by decide)

theorem flts_eq_of_slotSame (h : ∀ x ∈ frameSlots, SlotSame s t x) : t.flts = { s.flts with frv := t.flts.frv } := by
  refine FltFile.ext_get fun r => ?_
  cases r with
  | frv => rfl
  | _ => exact h (.flt _) (by decide)

end CallThenReturn

/-- Settles O57: the RETN is ready at the raised sp, and pops each register from the bytes the CALL stored it in. -/
theorem callThenReturnRestores : Obligations.CallThenReturnRestores := by
  intro s t u addr hc hm hmax hfit ha h hcfg hsp hbytes
  obtain ⟨v, hv, hsaved⟩ := exec_call_of_inside hm hfit ha
  obtain rfl := Host.Outcome.next.inj (hv.symm.trans h)
  have hcfg' : u.cfg = s.cfg := hcfg.trans hsaved.cfg
  have hraised : u.ints.sp = s.ints.sp + 28 := hsp.trans hsaved.sp
  have htop : u.ints.sp.toNat = s.ints.sp.toNat + 28 := toNat_sp_raised hfit hraised
  obtain ⟨w, hw, hrestored⟩ := exec_retn_of_ready (s := u) (hcfg' ▸ hc.1) (by rw [hcfg']; omega)
  have hsame : ∀ x ∈ frameSlots, SlotSame s w x := by
    intro y hy
    obtain ⟨⟨a, x⟩, hx, rfl⟩ := List.mem_map.mp (map_snd_frameLayout ▸ hy)
    have hend := frameLayout_end_le _ hx
    have hpopped := hrestored.popped _ hx
    rw [htop, hcfg', show s.ints.sp.toNat + 28 + a - 28 = s.ints.sp.toNat + a by omega] at hpopped
    refine slotSame_of_slotHolds (hsaved.pushed _ hx) hpopped fun k hk => ?_
    rw [Nat.add_assoc]
    exact hbytes (a + k) (by omega)
  have hlow : w.ints.sp = s.ints.sp := by
    rw [hrestored.sp_of_all, hraised, BitVec.add_sub_cancel]
  have hints : w.ints = { s.ints with irv := u.ints.irv } := hrestored.irv ▸ ints_eq_of_slotSame hsame hlow
  have hflts : w.flts = { s.flts with frv := u.flts.frv } := hrestored.frv ▸ flts_eq_of_slotSame hsame
  have hrest : w = { u with ints := w.ints, flts := w.flts } :=
    congrArg (fun q : State => { q with ints := w.ints, flts := w.flts }) hrestored.rest
  rw [hw, hrest, hints, hflts]

end Sys2Proof.Machine

/-! ### Exceptions: what a raise leaves, where pc stands, and what the host observes (60_exceptions.md) -/

namespace Sys2Proof.Machine

/-- The instructions that write registers or memory before a raise, which those writes survive (60_exceptions.md R244). -/
def writesBeforeRaising : List Opcode := [.addi, .subi, .call, .retn]

/-- What instruction `i`, executed in `s`, leaves when it raises `k`: pc stays at pc_next, and only `writesBeforeRaising` change
more than the status (60_exceptions.md R242, R244). -/
structure Raises (i : Instr) (k : ErrorKind) (s t : State) : Prop where
  listed : i.opcode ∈ raisedBy k
  status : t.status = .error k
  pc : t.ints.pc = s.ints.pc
  precise : i.opcode ∈ writesBeforeRaising ∨ t = s.putStatus (.error k)

section Raising

variable {i : Instr} {s t : State}

theorem pushSlots_pc {xs : List FrameSlot} (h : pushSlots xs s = .ok t) : t.ints.pc = s.ints.pc := by
  obtain ⟨v, hv⟩ := (pushSlots_frame h).ints
  rw [hv, IntFile.pc_set_sp]

/-- pc is the last register RETN pops, so pops that stop before it leave it (46_call_return.md R221). -/
theorem popSlots_take_reverse_frameSlots_pc {n : Nat} (hn : n < 10)
    (h : popSlots (frameSlots.reverse.take n) s = .ok t) : t.ints.pc = s.ints.pc := by
  have hlast : .int .pc ∉ frameSlots.reverse.take 9 := by decide
  have hpc : .int .pc ∉ frameSlots.reverse.take n := fun hmem =>
    hlast (List.take_subset_take_left _ (Nat.le_of_lt_succ hn) hmem)
  exact (popSlots_frame h).ints .pc nofun hpc

/-- The status is written by HALT and by a raise alone (10_state.md R32). -/
theorem Effect.status_writers (h : Effect i s t) :
    t.status = s.status ∨ (i = .halt ∧ t = s.putStatus .halt) ∨ ∃ k, Raises i k s t := by
  cases h with
  | halt hi => exact .inr (.inl ⟨hi, rfl⟩)
  | raised k hk => exact .inr (.inr ⟨k, hk, rfl, rfl, .inr rfl⟩)
  | wrapped d v k hd hi hk =>
    have hpc : (s.putInt d v).ints.pc = s.ints.pc := IntFile.pc_set_of_ne (ne_pc_of_generalAllowed hd) s.ints v
    exact .inr (.inr ⟨k, hk, rfl, hpc, .inl (List.mem_append_left [Opcode.call, .retn] hi)⟩)
  | calledOutside u hi hu | callStopped n u hi _ hu =>
    have hpc : u.ints.pc = s.ints.pc := pushSlots_pc hu
    exact .inr (.inr ⟨_, by simp [hi, raisedBy], rfl, hpc, .inl (by simp [hi, writesBeforeRaising])⟩)
  | returnStopped n u hi hn hu =>
    have hpc : u.ints.pc = s.ints.pc := popSlots_take_reverse_frameSlots_pc hn hu
    exact .inr (.inr ⟨_, by simp [hi, raisedBy], rfl, hpc, .inl (by simp [hi, writesBeforeRaising])⟩)
  | called u addr _ hu _ => exact .inl (pushSlots_frame hu).status
  | returned _ _ hu => exact .inl (popSlots_frame hu).status
  | _ => exact .inl rfl

/-- No instruction raises UnrecognizedOpcode, which is the sequencer's (60_exceptions.md R242). -/
theorem Raises.ne_unrecognizedOpcode {k : ErrorKind} (h : Raises i k s t) : k ≠ .unrecognizedOpcode := by
  rintro rfl
  cases h.listed

end Raising

/-- Settles O26: HALT and the raises are the only writers of status, and a raise is of a kind listed for its instruction. -/
theorem statusChangesOnlyAsTheTableSays : Obligations.StatusChangesOnlyAsTheTableSays := by
  intro i s t h
  rcases (exec_effect h).status_writers with hsame | ⟨hi, rfl⟩ | ⟨k, hk⟩
  · exact .inl hsame
  · exact .inr (.inl ⟨hi, rfl⟩)
  · exact .inr (.inr ⟨k, hk.status, hk.listed⟩)

/-- Settles O27: from NoError, an error status was raised, and these instructions write nothing before they raise. -/
theorem failingInstructionsChangeOnlyStatus : Obligations.FailingInstructionsChangeOnlyStatus := by
  intro i s t k haddi hsubi hcall hretn hs h ht
  rcases (exec_effect h).status_writers with hsame | ⟨-, rfl⟩ | ⟨k', hk⟩
  · cases ht.symm.trans (hsame.trans hs)
  · cases ht
  · obtain rfl : k = k' := Status.error.inj (ht.symm.trans hk.status)
    exact hk.precise.resolve_left (by simp [writesBeforeRaising, haddi, hsubi, hcall, hretn])

/-- Settles O28: a record that does not decode leaves pc; an instruction executes with pc advanced, and neither HALT nor a raise
moves it. -/
theorem pcAtTheStop : Obligations.PcAtTheStop := by
  intro s t h ht
  obtain ⟨-, hs, -, ⟨i, -, hi⟩ | ⟨-, rfl⟩⟩ := step_eq_next h
  · rcases (exec_effect hi).status_writers with hsame | ⟨-, rfl⟩ | ⟨k, hk⟩
    · exact absurd (hsame.trans hs) ht
    · rfl
    · rw [if_neg fun hu => hk.ne_unrecognizedOpcode (Status.error.inj (hk.status.symm.trans hu))]
      exact hk.pc
  · rfl

theorem State.stackBytes_length (s : State) : s.stackBytes.length = s.ints.sp.toNat - s.cfg.rwMax.toNat := by
  rw [State.stackBytes, List.length_map, List.length_range]

theorem State.stackBytes_getElem? (s : State) {k : Nat} (hk : k < s.ints.sp.toNat - s.cfg.rwMax.toNat) :
    s.stackBytes[k]? = some (s.mem.read (s.cfg.rwMax.toNat + k)) := by
  have hfit : s.cfg.rwMax.toNat + k < 65536 := by omega
  rw [State.stackBytes, List.getElem?_map, List.getElem?_range hk, Option.map_some, Memory.readAt_eq _ hfit]

/-- Settles O60: below sp no address wraps, so byte `k` is the one at RW_MAX + k. -/
theorem stackContentsAreTheBytesFromRwMax : Obligations.StackContentsAreTheBytesFromRwMax :=
  fun s => ⟨s.stackBytes_length, fun _ => s.stackBytes_getElem?⟩

/-- Settles O59: the 14 codes, evaluated. -/
theorem statusCodesAreTheTable : Obligations.StatusCodesAreTheTable := rfl

end Sys2Proof.Machine
